-- ==== Sys2Proof/Word.lean ====
section
/-! DEFINITION. The word types of the block (spec/00_scope.md R10, spec/30_encoding.md R100).
Coordinates that rules compute with are exact integers (R11); these types are for what travels as bits. -/

namespace Sys2Proof

/-- A byte; bit 7 is the most significant (R10). -/
abbrev Byte := BitVec 8

/-- A `u16` operand (R100). -/
abbrev U16 := BitVec 16

/-- A `u32` operand (R100). -/
abbrev U32 := BitVec 32

/-- An `i32` operand: 32 bits read as two's complement by `BitVec.toInt` (R100). -/
abbrev I32 := BitVec 32

/-- A host-operation frame: a byte sequence the host presents whole (R99). -/
abbrev Frame := List Byte

end Sys2Proof
end

