-- ==== Sys2Proof/Config.lean ====
section
/-! DEFINITION. The parameters of spec/00_scope.md R8 and the one open parameter of the block.
The literals are the spec's and are unaudited (R7, spec/93_implementation_defined.md I1; UNVERIFIED, log entry 13). -/

namespace Sys2Proof.Config

/-- `W`: panel width in pixels (R8). -/
def panelWidth : Nat := 200

/-- `H`: panel height in pixels (R8). -/
def panelHeight : Nat := 200

/-- `STRIDE`: bytes per plane row, `ceil(W/8)` (R8). -/
def stride : Nat := (panelWidth + 7) / 8

/-- `PLANE_BYTES`: bytes per plane, `STRIDE * H` (R8). -/
def planeBytes : Nat := stride * panelHeight

/-- `NPLANES` (R8). -/
def planeCount : Nat := 2

/-- The framebuffer space holds the addresses below this one (R60, R82). -/
def spaceBytes : Nat := planeCount * planeBytes

/-- `CHUNK_MAX`: largest single transport write (R8). -/
def chunkMax : Nat := 4096

/-- `T_RESET_MS`: each delay of the reset pulse, in ms (R8). -/
def resetMs : Nat := 10

/-- `PARTIAL_REFRESH_FLAG`: OPEN, an 8-bit parameter with no value in the spec (R8, R96, D25).
Nothing in Lean can evaluate it, so a claim that names it holds for every value (DESIGN CHOICE, log entry 6). -/
opaque partialRefreshFlag : Byte

@[simp] theorem stride_eq : stride = 25 := rfl
@[simp] theorem planeBytes_eq : planeBytes = 5000 := rfl
@[simp] theorem spaceBytes_eq : spaceBytes = 10000 := rfl
@[simp] theorem chunkMax_eq : chunkMax = 4096 := rfl
@[simp] theorem resetMs_eq : resetMs = 10 := rfl
@[simp] theorem panelWidth_eq : panelWidth = 200 := rfl
@[simp] theorem panelHeight_eq : panelHeight = 200 := rfl

end Sys2Proof.Config
end

