-- ==== Sys2Proof/Syntax.lean ====
section
/-! DEFINITION. The instructions of spec/opcode_table.json: 19 host operations, 13 controller commands and
6 micro-operations, each a constructor of `Instr`; beside it the emitted commands and the micro-operations
as types of their own, since the block holds and emits them (spec/30_encoding.md R90, R105). -/

namespace Sys2Proof

/-- The two planes: BW is 0, Red is 1 (R8, R60). -/
inductive Plane where
  | bw
  | red
  deriving DecidableEq, Repr

/-- A rotation, clockwise: codes 0 to 3 (R35). -/
inductive Rot where
  | r0
  | r90
  | r180
  | r270
  deriving DecidableEq, Repr

/-- A `buf` operand: inline bytes, or the current bytes of a plane (R101). -/
inductive Buf where
  | inline (bytes : List Byte)
  | plane (p : Plane)
  deriving DecidableEq, Repr

/-- The 19 assigned selectors of the host-operation frame (R102). -/
inductive Selector where
  | init | setRamWindow | setRamCounter | updateBwFrame | updateRedFrame | updatePartialBwFrame
  | clearBwFrame | clearRedFrame | displayFrame | displayPartialFrame
  | fbNew | fbSetRotation | fbSetPixel | fbClear
  | fbOutsideBounds | fbRotate | fbAddress | fbBufferLength | fbRead
  deriving DecidableEq, Repr

/-- The thirteen commands the block emits (R95). The arguments are the fields as they stand on the wire
(R213 to R222); a command without arguments has one payload only. -/
inductive Command where
  | swReset
  | driverControl
  | dataEntryMode
  | setRamXPos (xs xe : Byte)
  | setRamYPos (ys ye : U16)
  | setRamXCounter (x : Byte)
  | setRamYCounter (y : U16)
  | borderWaveformControl
  | tempControl
  | writeBwData (bytes : List Byte)
  | writeRedData (bytes : List Byte)
  | updateDisplayCtrl2 (flag : Byte)
  | masterActivate
  deriving DecidableEq, Repr

/-- The six micro-operations (R105), as the block runs them inside a host operation. -/
inductive MicroOp where
  | cmd (op : Byte)
  | data (bytes : List Byte)
  | cmdData (op : Byte) (bytes : List Byte)
  | repeatByte (v : Byte) (n : Nat)
  | waitIdle
  | reset
  deriving DecidableEq, Repr

/-- Every row of spec/opcode_table.json. -/
inductive Instr where
  -- host operations, spec/41_command_protocol.md
  | init
  | setRamWindow (sx sy ex ey : U32)
  | setRamCounter (x y : U32)
  | updateBwFrame (buf : Buf)
  | updateRedFrame (buf : Buf)
  | updatePartialBwFrame (x y w h : U32) (buf : Buf)
  | clearBwFrame
  | clearRedFrame
  | displayFrame
  | displayPartialFrame
  -- host operations, spec/42_addressing_engine.md
  | fbNew (p : Plane) (on : Bool)
  | fbSetRotation (p : Plane) (r : Rot)
  | fbSetPixel (p : Plane) (x y : I32) (on : Bool)
  | fbClear (p : Plane) (on : Bool)
  | fbOutsideBounds (x y : I32) (w h : U16) (r : Rot)
  | fbRotate (x y : I32) (w h : U16) (r : Rot)
  | fbAddress (x y : I32) (w h : U16) (r : Rot)
  | fbBufferLength (w h : U16)
  | fbRead (p : Plane)
  -- controller commands, spec/43_bus_commands.md
  | swReset
  | driverControl
  | dataEntryMode
  | setRamXPos (xs xe : Byte)
  | setRamYPos (ys ye : U16)
  | setRamXCounter (x : Byte)
  | setRamYCounter (y : U16)
  | borderWaveformControl
  | tempControl
  | writeBwData (bytes : List Byte)
  | writeRedData (bytes : List Byte)
  | updateDisplayCtrl2 (flag : Byte)
  | masterActivate
  -- micro-operations, spec/40_control_interface.md
  | muCmd (op : Byte)
  | muData (bytes : List Byte)
  | muCmdData (op : Byte) (bytes : List Byte)
  | muRepeat (v : Byte) (n : Nat)
  | muWaitIdle
  | muReset
  deriving DecidableEq, Repr

/-- The row of the opcode table that stands for an emitted command. -/
def Command.instr : Command → Instr
  | .swReset => .swReset
  | .driverControl => .driverControl
  | .dataEntryMode => .dataEntryMode
  | .setRamXPos xs xe => .setRamXPos xs xe
  | .setRamYPos ys ye => .setRamYPos ys ye
  | .setRamXCounter x => .setRamXCounter x
  | .setRamYCounter y => .setRamYCounter y
  | .borderWaveformControl => .borderWaveformControl
  | .tempControl => .tempControl
  | .writeBwData d => .writeBwData d
  | .writeRedData d => .writeRedData d
  | .updateDisplayCtrl2 f => .updateDisplayCtrl2 f
  | .masterActivate => .masterActivate

/-- The row of the opcode table that stands for a micro-operation. -/
def MicroOp.instr : MicroOp → Instr
  | .cmd op => .muCmd op
  | .data d => .muData d
  | .cmdData op d => .muCmdData op d
  | .repeatByte v n => .muRepeat v n
  | .waitIdle => .muWaitIdle
  | .reset => .muReset

/-- The selector of a host operation; `none` for what the host cannot issue (R90, R105). -/
def Instr.selector? : Instr → Option Selector
  | .init => some .init
  | .setRamWindow _ _ _ _ => some .setRamWindow
  | .setRamCounter _ _ => some .setRamCounter
  | .updateBwFrame _ => some .updateBwFrame
  | .updateRedFrame _ => some .updateRedFrame
  | .updatePartialBwFrame _ _ _ _ _ => some .updatePartialBwFrame
  | .clearBwFrame => some .clearBwFrame
  | .clearRedFrame => some .clearRedFrame
  | .displayFrame => some .displayFrame
  | .displayPartialFrame => some .displayPartialFrame
  | .fbNew _ _ => some .fbNew
  | .fbSetRotation _ _ => some .fbSetRotation
  | .fbSetPixel _ _ _ _ => some .fbSetPixel
  | .fbClear _ _ => some .fbClear
  | .fbOutsideBounds _ _ _ _ _ => some .fbOutsideBounds
  | .fbRotate _ _ _ _ _ => some .fbRotate
  | .fbAddress _ _ _ _ _ => some .fbAddress
  | .fbBufferLength _ _ => some .fbBufferLength
  | .fbRead _ => some .fbRead
  | .swReset | .driverControl | .dataEntryMode | .setRamXPos _ _ | .setRamYPos _ _
  | .setRamXCounter _ | .setRamYCounter _ | .borderWaveformControl | .tempControl
  | .writeBwData _ | .writeRedData _ | .updateDisplayCtrl2 _ | .masterActivate => none
  | .muCmd _ | .muData _ | .muCmdData _ _ | .muRepeat _ _ | .muWaitIdle | .muReset => none

end Sys2Proof
end

