-- ==== Sys2Proof/Decode.lean ====
section
/-! DEFINITION. The encodings of spec/30_encoding.md. The block decodes one thing, the host-operation frame
(R99 to R104, R109); what it emits is encoded here too (R91 to R97), with the reader's side of a command
(R94) as `decodeCommand`. Decoding is total and refuses by name (R246). -/

namespace Sys2Proof

/-! ### Byte order and payload fields -/

/-- Bits 7 to 0 of a value (R10). -/
def lo8 (v : Nat) : Byte := BitVec.ofNat 8 v

/-- Bits 15 to 8 of a value (R10). -/
def hi8 (v : Nat) : Byte := BitVec.ofNat 8 (v / 256)

/-- An X position in bytes, `(x >> 3) mod 256` (R72, R97). -/
def xByte (x : Nat) : Byte := BitVec.ofNat 8 (x / 8)

/-- A Y position as the 16 bits that are sent, `lo8` and `hi8` (R72, R97). -/
def yWord (y : Nat) : U16 := BitVec.ofNat 16 y

/-- Two little-endian bytes (R71, R100). -/
def le16 (v : U16) : List Byte := [v.extractLsb' 0 8, v.extractLsb' 8 8]

/-- Four little-endian bytes (R100). -/
def le32 (v : U32) : List Byte :=
  [v.extractLsb' 0 8, v.extractLsb' 8 8, v.extractLsb' 16 8, v.extractLsb' 24 8]

/-- The little-endian 16-bit value at offset `k` (R100). -/
def u16At (bs : List Byte) (k : Nat) : U16 := bs.getD (k + 1) 0 ++ bs.getD k 0

/-- The little-endian 32-bit value at offset `k` (R100). -/
def u32At (bs : List Byte) (k : Nat) : U32 :=
  ((bs.getD (k + 3) 0 ++ bs.getD (k + 2) 0) ++ bs.getD (k + 1) 0) ++ bs.getD k 0

/-! ### The host selector map (R102) -/

/-- The selector byte (R102). -/
def Selector.code : Selector → Byte
  | .init => 0x01
  | .setRamWindow => 0x02
  | .setRamCounter => 0x03
  | .updateBwFrame => 0x04
  | .updateRedFrame => 0x05
  | .updatePartialBwFrame => 0x06
  | .clearBwFrame => 0x07
  | .clearRedFrame => 0x08
  | .displayFrame => 0x09
  | .displayPartialFrame => 0x0A
  | .fbNew => 0x10
  | .fbSetRotation => 0x11
  | .fbSetPixel => 0x12
  | .fbClear => 0x13
  | .fbOutsideBounds => 0x14
  | .fbRotate => 0x15
  | .fbAddress => 0x16
  | .fbBufferLength => 0x17
  | .fbRead => 0x18

/-- The assigned selectors, in the order of R102. -/
def selectors : List Selector :=
  [.init, .setRamWindow, .setRamCounter, .updateBwFrame, .updateRedFrame, .updatePartialBwFrame,
   .clearBwFrame, .clearRedFrame, .displayFrame, .displayPartialFrame,
   .fbNew, .fbSetRotation, .fbSetPixel, .fbClear,
   .fbOutsideBounds, .fbRotate, .fbAddress, .fbBufferLength, .fbRead]

/-- The selector a byte stands for; every other byte is unassigned (R103). -/
def selectorOf (b : Byte) : Option Selector := selectors.find? (fun c => c.code == b)

/-- The bytes of operands before a `buf` operand, or of all operands where there is none; and whether a `buf`
operand follows (R102). -/
def Selector.operands : Selector → Nat × Bool
  | .init | .clearBwFrame | .clearRedFrame | .displayFrame | .displayPartialFrame => (0, false)
  | .setRamWindow => (16, false)
  | .setRamCounter => (8, false)
  | .updateBwFrame | .updateRedFrame => (0, true)
  | .updatePartialBwFrame => (16, true)
  | .fbNew | .fbSetRotation | .fbClear => (2, false)
  | .fbSetPixel => (10, false)
  | .fbOutsideBounds | .fbRotate | .fbAddress => (13, false)
  | .fbBufferLength => (4, false)
  | .fbRead => (1, false)

/-! ### Decoding a frame -/

/-- Why a frame is refused (R246, first three rows). -/
inductive DecodeError where
  /-- Shorter or longer than its layout (R99). -/
  | badFrameLength
  /-- Unassigned selector (R103). -/
  | badSelector
  /-- An operand outside its type (R104). -/
  | badOperand
  deriving DecidableEq, Repr

/-- A `plane` operand (R100). -/
def decodePlane (b : Byte) : Except DecodeError Plane :=
  if b = 0 then .ok .bw else if b = 1 then .ok .red else .error .badOperand

/-- A `rot` operand (R100). -/
def decodeRot (b : Byte) : Except DecodeError Rot :=
  if b = 0 then .ok .r0 else if b = 1 then .ok .r90
  else if b = 2 then .ok .r180 else if b = 3 then .ok .r270 else .error .badOperand

/-- A `bit` operand (R100). -/
def decodeBit (b : Byte) : Except DecodeError Bool :=
  if b = 0 then .ok false else if b = 1 then .ok true else .error .badOperand

/-- A `buf` operand, which ends its frame (R101, R102). Its length is checked before its value (R247): only a `src` of
0 brings a length field (R109), and every other `src` stands alone (DESIGN CHOICE for 3 or more, log entry 9). -/
def decodeBuf : List Byte → Except DecodeError Buf
  | [] => .error .badFrameLength
  | src :: rest =>
    if src = 0 then
      if 4 ≤ rest.length ∧ rest.length = 4 + (u32At rest 0).toNat then .ok (.inline (rest.drop 4))
      else .error .badFrameLength
    else if rest ≠ [] then .error .badFrameLength
    else if src = 1 then .ok (.plane .bw)
    else if src = 2 then .ok (.plane .red)
    else .error .badOperand

/-- Operands of a fixed length: the length is checked before any operand is read (R247). -/
def fixedOperands (n : Nat) (ops : List Byte) (k : Except DecodeError Instr) : Except DecodeError Instr :=
  if ops.length = n then k else .error .badFrameLength

/-- The operand bytes of each selector (R102). -/
def decodeOperands (c : Selector) (ops : List Byte) : Except DecodeError Instr :=
  match c with
  | .init => fixedOperands 0 ops (.ok .init)
  | .setRamWindow =>
    fixedOperands 16 ops (.ok (.setRamWindow (u32At ops 0) (u32At ops 4) (u32At ops 8) (u32At ops 12)))
  | .setRamCounter => fixedOperands 8 ops (.ok (.setRamCounter (u32At ops 0) (u32At ops 4)))
  | .updateBwFrame => do
    let buf ← decodeBuf ops
    return .updateBwFrame buf
  | .updateRedFrame => do
    let buf ← decodeBuf ops
    return .updateRedFrame buf
  | .updatePartialBwFrame => do
    let buf ← decodeBuf (ops.drop 16)
    return .updatePartialBwFrame (u32At ops 0) (u32At ops 4) (u32At ops 8) (u32At ops 12) buf
  | .clearBwFrame => fixedOperands 0 ops (.ok .clearBwFrame)
  | .clearRedFrame => fixedOperands 0 ops (.ok .clearRedFrame)
  | .displayFrame => fixedOperands 0 ops (.ok .displayFrame)
  | .displayPartialFrame => fixedOperands 0 ops (.ok .displayPartialFrame)
  | .fbNew => fixedOperands 2 ops do
    let p ← decodePlane (ops.getD 0 0)
    let on ← decodeBit (ops.getD 1 0)
    return .fbNew p on
  | .fbSetRotation => fixedOperands 2 ops do
    let p ← decodePlane (ops.getD 0 0)
    let r ← decodeRot (ops.getD 1 0)
    return .fbSetRotation p r
  | .fbSetPixel => fixedOperands 10 ops do
    let p ← decodePlane (ops.getD 0 0)
    let on ← decodeBit (ops.getD 9 0)
    return .fbSetPixel p (u32At ops 1) (u32At ops 5) on
  | .fbClear => fixedOperands 2 ops do
    let p ← decodePlane (ops.getD 0 0)
    let on ← decodeBit (ops.getD 1 0)
    return .fbClear p on
  | .fbOutsideBounds => fixedOperands 13 ops do
    let r ← decodeRot (ops.getD 12 0)
    return .fbOutsideBounds (u32At ops 0) (u32At ops 4) (u16At ops 8) (u16At ops 10) r
  | .fbRotate => fixedOperands 13 ops do
    let r ← decodeRot (ops.getD 12 0)
    return .fbRotate (u32At ops 0) (u32At ops 4) (u16At ops 8) (u16At ops 10) r
  | .fbAddress => fixedOperands 13 ops do
    let r ← decodeRot (ops.getD 12 0)
    return .fbAddress (u32At ops 0) (u32At ops 4) (u16At ops 8) (u16At ops 10) r
  | .fbBufferLength => fixedOperands 4 ops (.ok (.fbBufferLength (u16At ops 0) (u16At ops 2)))
  | .fbRead => fixedOperands 1 ops do
    let p ← decodePlane (ops.getD 0 0)
    return .fbRead p

/-- The host operation a frame stands for, or the name of its refusal (R99, R103, R104, R109). -/
def decode : Frame → Except DecodeError Instr
  | [] => .error .badFrameLength
  | sel :: ops =>
    match selectorOf sel with
    | none => .error .badSelector
    | some c => decodeOperands c ops

/-- The length a frame must have, told from its selector and, for an inline `buf`, from the length field (R109).
`none` for an unassigned selector, and where the frame ends before its `buf` operand. -/
def frameLength : Frame → Option Nat
  | [] => none
  | sel :: ops =>
    match selectorOf sel with
    | none => none
    | some c =>
      match c.operands with
      | (n, false) => some (1 + n)
      | (n, true) =>
        match ops.drop n with
        | [] => none
        | src :: rest =>
          if src = 0 then some (1 + n + 5 + (u32At rest 0).toNat)
          else some (1 + n + 1)

/-! ### The wire: commands (R92 to R97) -/

/-- The opcode byte (R95). -/
def Command.opcode : Command → Byte
  | .swReset => 0x12
  | .driverControl => 0x01
  | .dataEntryMode => 0x11
  | .setRamXPos _ _ => 0x44
  | .setRamYPos _ _ => 0x45
  | .setRamXCounter _ => 0x4E
  | .setRamYCounter _ => 0x4F
  | .borderWaveformControl => 0x3C
  | .tempControl => 0x18
  | .writeBwData _ => 0x24
  | .writeRedData _ => 0x26
  | .updateDisplayCtrl2 _ => 0x22
  | .masterActivate => 0x20

/-- The thirteen opcodes (R95, R98). -/
def opcodes : List Byte :=
  [0x12, 0x01, 0x11, 0x44, 0x45, 0x4E, 0x4F, 0x3C, 0x18, 0x24, 0x26, 0x22, 0x20]

/-- `FLAG_INTERNAL_TEMP` (R96). -/
def flagInternalTemp : Byte := 0x80
/-- `FLAG_BORDER_FOLLOW_LUT` (R96). -/
def flagBorderFollowLut : Byte := 0x04
/-- `FLAG_BORDER_LUT1` (R96). -/
def flagBorderLut1 : Byte := 0x01
/-- `FLAG_DISPLAY_FULL` (R96). -/
def flagDisplayFull : Byte := 0xF7
/-- `FLAG_DATA_ENTRY_INC_XY` (R96). -/
def flagDataEntryIncXY : Byte := 0x03

/-- The payload bytes (R93, R210 to R222). -/
def Command.payload : Command → List Byte
  | .swReset => []
  | .driverControl => [lo8 (Config.panelHeight - 1), 0x00, 0x00]
  | .dataEntryMode => [flagDataEntryIncXY]
  | .setRamXPos xs xe => [xs, xe]
  | .setRamYPos ys ye => le16 ys ++ le16 ye
  | .setRamXCounter x => [x]
  | .setRamYCounter y => le16 y
  | .borderWaveformControl => [flagBorderFollowLut ||| flagBorderLut1]
  | .tempControl => [flagInternalTemp]
  | .writeBwData d => d
  | .writeRedData d => d
  | .updateDisplayCtrl2 f => [f]
  | .masterActivate => []

/-- Why an opcode and payload are no command the block emits (R93, R98). -/
inductive WireError where
  /-- None of the thirteen opcodes (R98). -/
  | unknownOpcode
  /-- The opcode is assigned, with another payload than R93 and R210 to R222 give. -/
  | badPayload
  deriving DecidableEq, Repr

/-- A command whose payload is one fixed byte sequence. -/
def fixedPayload (c : Command) (payload : List Byte) : Except WireError Command :=
  if payload = c.payload then .ok c else .error .badPayload

/-- A reader's side of a command: the opcode and the payload up to the next opcode (R94, R95). The block itself
decodes nothing from the wire (R98). -/
def decodeCommand (op : Byte) (payload : List Byte) : Except WireError Command :=
  if op = 0x12 then fixedPayload .swReset payload
  else if op = 0x01 then fixedPayload .driverControl payload
  else if op = 0x11 then fixedPayload .dataEntryMode payload
  else if op = 0x44 then
    match payload with
    | [xs, xe] => .ok (.setRamXPos xs xe)
    | _ => .error .badPayload
  else if op = 0x45 then
    match payload with
    | [a, b, c, d] => .ok (.setRamYPos (b ++ a) (d ++ c))
    | _ => .error .badPayload
  else if op = 0x4E then
    match payload with
    | [x] => .ok (.setRamXCounter x)
    | _ => .error .badPayload
  else if op = 0x4F then
    match payload with
    | [a, b] => .ok (.setRamYCounter (b ++ a))
    | _ => .error .badPayload
  else if op = 0x3C then fixedPayload .borderWaveformControl payload
  else if op = 0x18 then fixedPayload .tempControl payload
  else if op = 0x24 then .ok (.writeBwData payload)
  else if op = 0x26 then .ok (.writeRedData payload)
  else if op = 0x22 then
    match payload with
    | [f] => .ok (.updateDisplayCtrl2 f)
    | _ => .error .badPayload
  else if op = 0x20 then fixedPayload .masterActivate payload
  else .error .unknownOpcode

/-- The reference code of a micro-operation; codes 6 and 7 are unused (R105). -/
def MicroOp.code : MicroOp → Byte
  | .cmd _ => 0
  | .data _ => 1
  | .cmdData _ _ => 2
  | .repeatByte _ _ => 3
  | .waitIdle => 4
  | .reset => 5

/-! ### The encoder -/

/-- A `plane` operand byte (R100). -/
def Plane.code : Plane → Byte
  | .bw => 0
  | .red => 1

/-- A `rot` operand byte, the rotation's 2-bit code (R35, R100). -/
def Rot.code : Rot → Byte
  | .r0 => 0
  | .r90 => 1
  | .r180 => 2
  | .r270 => 3

/-- A `bit` operand byte (R100). -/
def bitCode (b : Bool) : Byte := if b then 1 else 0

/-- A `buf` operand (R101). -/
def encodeBuf : Buf → List Byte
  | .inline bs => 0 :: (le32 (BitVec.ofNat 32 bs.length) ++ bs)
  | .plane .bw => [1]
  | .plane .red => [2]

/-- What an instruction is written as at its own level (R90, R105): a host frame, an opcode and payload on the
wire, or a reference code. -/
inductive Encoding where
  | frame (bytes : Frame)
  | command (op : Byte) (payload : List Byte)
  | micro (code : Byte)
  deriving DecidableEq, Repr

/-- The words of an instruction (R102, R92 to R97, R105). -/
def encode : Instr → Encoding
  | .init => .frame [0x01]
  | .setRamWindow sx sy ex ey => .frame (0x02 :: (le32 sx ++ le32 sy ++ le32 ex ++ le32 ey))
  | .setRamCounter x y => .frame (0x03 :: (le32 x ++ le32 y))
  | .updateBwFrame buf => .frame (0x04 :: encodeBuf buf)
  | .updateRedFrame buf => .frame (0x05 :: encodeBuf buf)
  | .updatePartialBwFrame x y w h buf =>
    .frame (0x06 :: (le32 x ++ le32 y ++ le32 w ++ le32 h ++ encodeBuf buf))
  | .clearBwFrame => .frame [0x07]
  | .clearRedFrame => .frame [0x08]
  | .displayFrame => .frame [0x09]
  | .displayPartialFrame => .frame [0x0A]
  | .fbNew p on => .frame [0x10, p.code, bitCode on]
  | .fbSetRotation p r => .frame [0x11, p.code, r.code]
  | .fbSetPixel p x y on => .frame (0x12 :: p.code :: (le32 x ++ le32 y ++ [bitCode on]))
  | .fbClear p on => .frame [0x13, p.code, bitCode on]
  | .fbOutsideBounds x y w h r => .frame (0x14 :: (le32 x ++ le32 y ++ le16 w ++ le16 h ++ [r.code]))
  | .fbRotate x y w h r => .frame (0x15 :: (le32 x ++ le32 y ++ le16 w ++ le16 h ++ [r.code]))
  | .fbAddress x y w h r => .frame (0x16 :: (le32 x ++ le32 y ++ le16 w ++ le16 h ++ [r.code]))
  | .fbBufferLength w h => .frame (0x17 :: (le16 w ++ le16 h))
  | .fbRead p => .frame [0x18, p.code]
  | .swReset => .command Command.swReset.opcode Command.swReset.payload
  | .driverControl => .command Command.driverControl.opcode Command.driverControl.payload
  | .dataEntryMode => .command Command.dataEntryMode.opcode Command.dataEntryMode.payload
  | .setRamXPos xs xe => .command (Command.setRamXPos xs xe).opcode (Command.setRamXPos xs xe).payload
  | .setRamYPos ys ye => .command (Command.setRamYPos ys ye).opcode (Command.setRamYPos ys ye).payload
  | .setRamXCounter x => .command (Command.setRamXCounter x).opcode (Command.setRamXCounter x).payload
  | .setRamYCounter y => .command (Command.setRamYCounter y).opcode (Command.setRamYCounter y).payload
  | .borderWaveformControl =>
    .command Command.borderWaveformControl.opcode Command.borderWaveformControl.payload
  | .tempControl => .command Command.tempControl.opcode Command.tempControl.payload
  | .writeBwData d => .command (Command.writeBwData d).opcode (Command.writeBwData d).payload
  | .writeRedData d => .command (Command.writeRedData d).opcode (Command.writeRedData d).payload
  | .updateDisplayCtrl2 f => .command (Command.updateDisplayCtrl2 f).opcode (Command.updateDisplayCtrl2 f).payload
  | .masterActivate => .command Command.masterActivate.opcode Command.masterActivate.payload
  | .muCmd op => .micro (MicroOp.cmd op).code
  | .muData d => .micro (MicroOp.data d).code
  | .muCmdData op d => .micro (MicroOp.cmdData op d).code
  | .muRepeat v n => .micro (MicroOp.repeatByte v n).code
  | .muWaitIdle => .micro MicroOp.waitIdle.code
  | .muReset => .micro MicroOp.reset.code

/-! ### The opcode table's own numbering of a word -/

/-- The low `n` bytes of a number, least significant first. -/
def bytesOf : Nat → Nat → List Byte
  | 0, _ => []
  | n + 1, w => BitVec.ofNat 8 w :: bytesOf n (w / 256)

/-- The frame whose first bytes are the `nbits` bits of `w`, bit 0 the least significant bit of byte 0, and
whose remaining operand bytes are zero, up to the length its selector gives it (DESIGN CHOICE, log entry 11). -/
def frameOfWord (nbits w : Nat) : Frame :=
  let given := bytesOf ((nbits + 7) / 8) w
  match frameLength (given ++ List.replicate 22 0) with
  | none => given
  | some n => given ++ List.replicate (n - given.length) 0

/-- The host operation the decoder reads from a word of the opcode table. The block decodes host frames only
(R90, R98, R105), so a word that is an opcode or a micro-operation code is read as the selector it equals. -/
def decodeTableWord (nbits w : Nat) : Option Instr :=
  match decode (frameOfWord nbits w) with
  | .ok i => some i
  | .error _ => none

end Sys2Proof
end

