-- ==== Sys2Proof/Machine/State.lean ====
section
/-! DEFINITION. The state of the block (spec/10_state.md), with the inputs the outside world has in store for it,
and the reasons a step can stop (spec/60_exceptions.md). -/

namespace Sys2Proof.Machine

/-- An output line (R24). -/
inductive Line where
  | csN
  | dc
  | rstN
  deriving DecidableEq, Repr

/-- The level last driven on a line: 0, 1 or `undef` (R26). -/
inductive Level where
  | low
  | high
  | undef
  deriving DecidableEq, Repr

/-- The level of a driven value. -/
def Level.of (v : Bool) : Level := if v then .high else .low

/-- A port action that may fail (R25, R241). -/
inductive PortAction where
  | drive (l : Line) (v : Bool)
  | xfer (bytes : List Byte)
  | sampleBusy
  deriving DecidableEq, Repr

/-- One event of `TRACE` (R25). -/
inductive Event where
  | line (l : Line) (v : Bool)
  | xfer (bytes : List Byte)
  | delay (ms : Nat)
  | busy (v : Bool)
  | fail (a : PortAction)
  deriving DecidableEq, Repr

/-- `PHASE` (R27). -/
inductive Phase where
  | uninitialized
  | initialized
  | frameStaged
  | activated
  deriving DecidableEq, Repr

/-- The axis a window-order fault names (R244). -/
inductive Axis where
  | x
  | y
  deriving DecidableEq, Repr

/-- `Fatal(code, info)` (R244). The numbers are the exact integers the check compared. -/
inductive FatalFault where
  | windowOrder (axis : Axis) (first last : Nat)
  | partialBounds (x y w h : Nat)
  | partialMisaligned (x : Nat)
  | partialLength (length expected : Nat)
  deriving DecidableEq, Repr

/-- `RESULT`, the forms of R31. `err` is `Err(TRANSPORT)`, the one error value;
its code is `Result.errorCode` (R241). -/
inductive Result where
  | ok
  | err
  | bool (b : Bool)
  | pair (x y : Int)
  | addr (byteIndex : Nat) (mask : Byte)
  | len (n : Nat)
  | bytes (bs : List Byte)
  deriving DecidableEq, Repr

/-- A plane's control bits: `PLANE_VALID[p]` (R33) and `ROT[p]` (R35). -/
structure PlaneRegs where
  valid : Bool
  rot : Rot
  deriving DecidableEq, Repr

/-- The levels last driven on the three output lines (R26). -/
structure Lines where
  csN : Level
  dc : Level
  rstN : Level
  deriving DecidableEq, Repr

/-- The framebuffer space: the bytes that hold a value, by address, in rising order (R60). An address with no
entry holds no value (R39; DEDUCED, log entry 5). -/
abbrev Memory := List Host.Cell

/-- What an operation writes when its last micro-operation completes (R150). -/
inductive Completion where
  /-- A micro-operation or command on its own: nothing. -/
  | quiet
  /-- `result <- Ok`, `PHASE` unchanged. -/
  | ok
  /-- `PHASE <- p; result <- Ok`. -/
  | okPhase (p : Phase)
  /-- INIT: `PHASE <- 1; CTRL_UNDEF <- 0; result <- Ok` (R152). -/
  | initDone
  deriving DecidableEq, Repr

/-- The position within a host operation's fixed sequence (R22): the micro-operations still to do, the first of
them the one in progress, and what completion writes. -/
structure Running where
  rest : List MicroOp
  done : Completion
  deriving DecidableEq, Repr

/-- The block's state (R20) and position (R22), then the inputs of its steps (R23, R40, R241). -/
structure State where
  /-- `PHASE` (R27). -/
  phase : Phase
  /-- `FAULT` (R29). -/
  fault : Option FatalFault
  /-- `CTRL_UNDEF` (R30). -/
  ctrlUndef : Bool
  /-- `RESULT`; `none` is the spec's `undef` (R31, R39). -/
  result : Option Result
  /-- `PLANE[0]` and `PLANE[1]` (R32, R60). -/
  mem : Memory
  /-- `PLANE_VALID[0]` and `ROT[0]`. -/
  bw : PlaneRegs
  /-- `PLANE_VALID[1]` and `ROT[1]`. -/
  red : PlaneRegs
  /-- `CS_N`, `DC`, `RST_N` (R26). -/
  lines : Lines
  /-- `TRACE`, oldest event first (R25). -/
  trace : List Event
  /-- The operation in progress, where it waits for BUSY (R22; DESIGN CHOICE, log entry 4). -/
  running : Option Running
  /-- Input: the frames the host has issued and the block has not taken (R23; DESIGN CHOICE, log entry 3). -/
  frames : List Frame
  /-- Input: the next BUSY samples, first sample first (R40, R253; DESIGN CHOICE, log entry 1). -/
  busyIn : List Bool
  /-- Input: what BUSY reads after the samples of `busyIn` (DESIGN CHOICE, log entry 1). -/
  busyRest : Bool
  /-- Input: whether the next port actions fail, first action first; an action past the list does not fail
  (R241; DESIGN CHOICE, log entry 2). -/
  failIn : List Bool
  deriving DecidableEq, Repr

/-- Why the machine stops with a fault. -/
inductive Fault where
  /-- Raised by every step, and every instruction, of a block whose `FAULT` is set: it "takes no further step"
  (R29, R243). Safe: the spec says so. -/
  | halted (f : FatalFault)
  /-- Raised by a read of a framebuffer byte that holds no value. No reachable state does it, since a plane is
  read only when it is valid and construction writes all its bytes (R33, R186). Safe. -/
  | unwrittenByte (address : Nat)
  /-- Raised by a read of a whole plane that has such a byte. No reachable state does it, for the same reason.
  Safe. -/
  | incompletePlane (p : Plane)
  /-- Raised by an access outside 0..9999; the spec says no such address is ever formed (R82). Safe. -/
  | outsideFramebuffer (address : Nat)
  deriving DecidableEq, Repr

/-- Why a run is refused (R246). A refusal is not a hardware event: the run stops, marked. -/
inductive Refusal where
  /-- An instruction with no meaning yet; raised by `exec` alone. Safe. -/
  | notModelled (mnemonic : String)
  /-- `BAD_FRAME_LENGTH` (R99); raised by a step that takes the frame. Safe. -/
  | badFrameLength
  /-- `BAD_SELECTOR` (R103); raised by a step that takes the frame. Safe. -/
  | badSelector
  /-- `BAD_OPERAND` (R104); raised by a step that takes the frame. Safe. -/
  | badOperand
  /-- `NO_PLANE` (R33): a plane operation, or a buffer operand, on an unconstructed plane. Safe. -/
  | noPlane (p : Plane)
  /-- `UNINITIALIZED` (R162): a sequencer operation other than INIT in phase 0. Safe. -/
  | uninitialized
  /-- `OUT_OF_BOUNDS` (R194): FB_ADDRESS outside bounds. Safe. -/
  | outOfBounds
  /-- An instruction executed while a host operation waits: R23 lets none be issued then, and no step issues one
  (DESIGN CHOICE, log entry 8). Safe. -/
  | operationInProgress
  deriving DecidableEq, Repr

/-- The outcome of an instruction or a step. -/
abbrev Answer := Host.Outcome State Fault Refusal

/-- Block reset (R39, R270). The last four fields are inputs, not state of the block, and the values here are one
environment among all (DESIGN CHOICE, log entries 1, 2, 3). -/
def State.reset : State where
  phase := .uninitialized
  fault := none
  ctrlUndef := true
  result := none
  mem := []
  bw := { valid := false, rot := .r0 }
  red := { valid := false, rot := .r0 }
  lines := { csN := .undef, dc := .undef, rstN := .undef }
  trace := []
  running := none
  frames := []
  busyIn := []
  busyRest := false
  failIn := []

end Sys2Proof.Machine
end

