-- ==== Sys2Proof/Machine/Flags.lean ====
section
/-! DEFINITION. The status elements: their codes, plane polarity, and what ends an operation writes into them
(spec/10_state.md R27 to R35, spec/42_addressing_engine.md R185 and R187, spec/60_exceptions.md R241 to R244). -/

namespace Sys2Proof.Machine

/-- The numeric code of `PHASE` (R27). -/
def Phase.code : Phase → Nat
  | .uninitialized => 0
  | .initialized => 1
  | .frameStaged => 2
  | .activated => 3

/-- The numeric code of a fatal fault (R244). -/
def FatalFault.code : FatalFault → Byte
  | .windowOrder _ _ _ => 0x01
  | .partialBounds _ _ _ _ => 0x02
  | .partialMisaligned _ => 0x03
  | .partialLength _ _ => 0x04

/-- The code of an error result: `Err(TRANSPORT)` has code 1 (R241). The other results carry none. -/
def Result.errorCode : Result → Option Byte
  | .err => some 1
  | .ok | .bool _ | .pair _ _ | .addr _ _ | .len _ | .bytes _ => none

/-- `INV[p]`, hardwired: BW is inverted, Red is not (R34). A constant, not a field of State (DESIGN CHOICE, log
entry 12). -/
def invOf : Plane → Bool
  | .bw => true
  | .red => false

/-- The stored bit of a pixel: `on XOR INV[p]` (R185). -/
def storedBit (p : Plane) (on : Bool) : Bool := on != invOf p

/-- The byte that makes eight pixels equal to `on` (R187). -/
def fillByte (p : Plane) (on : Bool) : Byte := if storedBit p on then 0xFF else 0x00

/-- The control bits of a plane. -/
def State.planeRegs (s : State) : Plane → PlaneRegs
  | .bw => s.bw
  | .red => s.red

/-- Write the control bits of a plane. -/
def State.setPlaneRegs (s : State) (p : Plane) (r : PlaneRegs) : State :=
  match p with
  | .bw => { s with bw := r }
  | .red => { s with red := r }

/-- `RESULT <- r`. -/
def State.setResult (s : State) (r : Result) : State := { s with result := some r }

/-- The end of an operation whose micro-operations have all completed (R150, R152). -/
def State.complete (s : State) : Completion → State
  | .quiet => s
  | .ok => { s with result := some .ok }
  | .okPhase p => { s with phase := p, result := some .ok }
  | .initDone => { s with phase := .initialized, ctrlUndef := false, result := some .ok }

/-- `raise TransportError()`, after the failing step has appended its event and marked its line: the operation is
aborted, `RESULT` is the error, the controller is undefined, and nothing else changes (R241, R242). -/
def State.raiseTransportError (s : State) : State := { s with ctrlUndef := true, result := some .err }

/-- `raise Fatal(code, info)`: the fault is recorded and the block takes no further step (R243). Nothing else
changes: no event, no `RESULT`, no phase. -/
def State.raiseFatal (s : State) (f : FatalFault) : State := { s with fault := some f }

end Sys2Proof.Machine
end

