-- ==== Sys2Proof/Machine/Ops.lean ====
section
/-! DEFINITION. The shared operations: the framebuffer space, the ports and the trace, the micro-operations, the
running of an operation's sequence, and the checks and exceptions that every instruction shares
(spec/20_memory.md, spec/40_control_interface.md, spec/60_exceptions.md). -/

namespace Sys2Proof.Machine

/-! ### The framebuffer space (R60, R64, R82) -/

/-- The byte at an address, where it holds a value. -/
def Memory.read : Memory → Nat → Option Byte
  | [], _ => none
  | (b, v) :: m, a => if b = a then some v else Memory.read m a

/-- Store one byte, keeping the addresses in rising order. -/
def Memory.write : Memory → Nat → Byte → Memory
  | [], a, v => [(a, v)]
  | (b, w) :: m, a, v =>
    if a < b then (a, v) :: (b, w) :: m
    else if a = b then (a, v) :: m
    else (b, w) :: Memory.write m a v

/-- Store `v` at the `n` addresses from `a` on: the loop of R186 and R190 done at once. -/
def Memory.fill (m : Memory) (a n : Nat) (v : Byte) : Memory :=
  m.filter (fun c => c.1 < a) ++ ((List.range' a n).map (fun b => (b, v)) ++ m.filter (fun c => a + n ≤ c.1))

/-- The bytes at the `n` addresses from `a` on, where they all hold a value. It walks the rising list once. -/
def Memory.readRange : Memory → Nat → Nat → Option (List Byte)
  | _, _, 0 => some []
  | [], _, _ + 1 => none
  | (b, v) :: m, a, n + 1 =>
    if b < a then Memory.readRange m a (n + 1)
    else if b = a then (Memory.readRange m (a + 1) n).map (fun bs => v :: bs)
    else none

/-- The canonical form: addresses strictly rising, all of them in the framebuffer space (R60, R82). An unlisted
address holds no value, so no entry can repeat what it reads as. -/
abbrev Memory.wf (m : Memory) : Prop :=
  m.Pairwise (fun c d => c.1 < d.1) ∧ ∀ c ∈ m, c.1 < Config.spaceBytes

/-- The number of a plane: BW is 0, Red is 1 (R8). -/
def planeIndex : Plane → Nat
  | .bw => 0
  | .red => 1

/-- `fb(p, i) = p * PLANE_BYTES + i` (R60). -/
def fb (p : Plane) (i : Nat) : Nat := planeIndex p * Config.planeBytes + i

/-- `MemRead(a, 1)` (R12, R60): an address outside 0..9999 does not exist, and a byte that nothing has written
holds no value (R39; DEDUCED, log entry 5). -/
def State.memRead (s : State) (a : Nat) : Except Fault Byte :=
  if a < Config.spaceBytes then
    match s.mem.read a with
    | some b => .ok b
    | none => .error (.unwrittenByte a)
  else .error (.outsideFramebuffer a)

/-- `MemWrite(a, 1, v)` (R12, R60). -/
def State.memWrite (s : State) (a : Nat) (v : Byte) : Except Fault State :=
  if a < Config.spaceBytes then .ok { s with mem := s.mem.write a v }
  else .error (.outsideFramebuffer a)

/-- Write `v` to every byte of a plane (R186, R190). -/
def State.fillPlane (s : State) (p : Plane) (v : Byte) : State :=
  { s with mem := s.mem.fill (fb p 0) Config.planeBytes v }

/-- All bytes of a plane, in index order (R191), where they hold values. -/
def State.planeBytes? (s : State) (p : Plane) : Option (List Byte) :=
  s.mem.readRange (fb p 0) Config.planeBytes

/-! ### Port actions (R25, R26, R241, R242) -/

/-- One step of a micro-operation on the ports (R12); sampling BUSY is `pollBusy`. -/
inductive PortStep where
  | drive (l : Line) (v : Bool)
  | xfer (bytes : List Byte)
  | delay (ms : Nat)
  deriving DecidableEq, Repr

/-- The event a step appends when it succeeds (R25). -/
def PortStep.event : PortStep → Event
  | .drive l v => .line l v
  | .xfer bs => .xfer bs
  | .delay n => .delay n

/-- The action that may fail; a delay cannot (R241, R255). -/
def PortStep.action? : PortStep → Option PortAction
  | .drive l v => some (.drive l v)
  | .xfer bs => some (.xfer bs)
  | .delay _ => none

/-- Set one line's element. -/
def Lines.set (ls : Lines) (l : Line) (v : Level) : Lines :=
  match l with
  | .csN => { ls with csN := v }
  | .dc => { ls with dc := v }
  | .rstN => { ls with rstN := v }

/-- The level of one line. -/
def Lines.get (ls : Lines) : Line → Level
  | .csN => ls.csN
  | .dc => ls.dc
  | .rstN => ls.rstN

/-- What an event does to the lines: a drive sets its line, a failed drive makes it `undef` (R26, R242). -/
def Lines.after (ls : Lines) : Event → Lines
  | .line l v => ls.set l (.of v)
  | .fail (.drive l _) => ls.set l .undef
  | .xfer _ | .delay _ | .busy _ | .fail (.xfer _) | .fail .sampleBusy => ls

/-- What a list of port steps did: the events in order, the draws left, the lines, and whether it failed. -/
structure PortRun where
  events : List Event
  draws : List Bool
  lines : Lines
  failed : Bool
  deriving DecidableEq, Repr

/-- The run with an event before its first. -/
def PortRun.cons (e : Event) (r : PortRun) : PortRun := { r with events := e :: r.events }

/-- Whether the next port action fails: the next draw, and no failure past the last (R241; DESIGN CHOICE, log entry 2). -/
def nextFails : List Bool → Bool
  | [] => false
  | b :: _ => b

/-- Perform port steps in order, each failing as the next draw says; the first failure ends the list (R138, R241).
A delay takes no draw. -/
def perform : List PortStep → List Bool → Lines → PortRun
  | [], draws, lines => { events := [], draws := draws, lines := lines, failed := false }
  | p :: ps, draws, lines =>
    match p.action? with
    | none => (perform ps draws (lines.after p.event)).cons p.event
    | some a =>
      if nextFails draws then
        { events := [.fail a], draws := draws.tail, lines := lines.after (.fail a), failed := true }
      else (perform ps draws.tail (lines.after p.event)).cons p.event

/-- How a micro-operation ended: it completed, a port action failed, or BUSY still read 1 at the last sample in
store (R136, R241, R254). -/
inductive MicroEnd where
  | done
  | failed
  | waiting
  deriving DecidableEq, Repr

/-- What a wait did: the events in order, the samples and draws left, and how it ended. -/
structure WaitRun where
  events : List Event
  busy : List Bool
  draws : List Bool
  ending : MicroEnd
  deriving DecidableEq, Repr

/-- The wait with an event before its first. -/
def WaitRun.cons (e : Event) (r : WaitRun) : WaitRun := { r with events := e :: r.events }

/-- `SampleBusy()` until it reads 0 (R136). Each sample may fail (D30); a failing one reads nothing and leaves the
samples as they are (DESIGN CHOICE, log entry 2). When the samples in store are used up one more is taken, of the level that
holds; if that is 1 the wait has not ended (R254). -/
def pollBusy : List Bool → Bool → List Bool → WaitRun
  | [], rest, draws =>
    if nextFails draws then
      { events := [.fail .sampleBusy], busy := [], draws := draws.tail, ending := .failed }
    else if rest then { events := [.busy true], busy := [], draws := draws.tail, ending := .waiting }
    else { events := [.busy false], busy := [], draws := draws.tail, ending := .done }
  | b :: bs, rest, draws =>
    if nextFails draws then
      { events := [.fail .sampleBusy], busy := b :: bs, draws := draws.tail, ending := .failed }
    else if b then (pollBusy bs rest draws.tail).cons (.busy true)
    else { events := [.busy false], busy := bs, draws := draws.tail, ending := .done }

/-! ### Micro-operations (R130 to R137) -/

/-- `chunks(s)`: consecutive pieces of CHUNK_MAX bytes, the last with the remainder (R133). -/
def chunks (s : List Byte) : List (List Byte) :=
  (List.range ((s.length + (Config.chunkMax - 1)) / Config.chunkMax)).map
    (fun k => (s.drop (k * Config.chunkMax)).take Config.chunkMax)

/-- One chip-select bracket: DC, CS_N low, the transfers, CS_N high (R130). -/
def bracket (dc : Bool) (xfers : List (List Byte)) : List PortStep :=
  .drive .dc dc :: .drive .csN false :: (xfers.map PortStep.xfer ++ [.drive .csN true])

/-- The port steps of a micro-operation (R131, R132, R134, R135, R137). MU_WAIT_IDLE has no fixed list: it is
`pollBusy`. -/
def microSteps : MicroOp → List PortStep
  | .cmd op => bracket false [[op]]
  | .data s => bracket true (chunks s)
  | .cmdData op s => bracket false [[op]] ++ bracket true (chunks s)
  | .repeatByte v n => bracket true (List.replicate n [v])
  | .waitIdle => []
  | .reset => [.drive .rstN false, .delay Config.resetMs, .drive .rstN true, .delay Config.resetMs]

/-- The state after a list of port steps. -/
def State.afterPorts (s : State) (r : PortRun) : State :=
  { s with trace := s.trace ++ r.events, failIn := r.draws, lines := r.lines }

/-- The state after a wait. -/
def State.afterWait (s : State) (r : WaitRun) : State :=
  { s with trace := s.trace ++ r.events, failIn := r.draws, busyIn := r.busy }

/-- One micro-operation: the state it leaves and how it ended. -/
def runMicro (m : MicroOp) (s : State) : State × MicroEnd :=
  match m with
  | .waitIdle =>
    let r := pollBusy s.busyIn s.busyRest s.failIn
    (s.afterWait r, r.ending)
  | .cmd _ | .data _ | .cmdData _ _ | .repeatByte _ _ | .reset =>
    let r := perform (microSteps m) s.failIn s.lines
    (s.afterPorts r, if r.failed then .failed else .done)

/-- Run a sequence of micro-operations and then what completion writes (R22, R150). A failure aborts it (R241).
Where BUSY still reads 1 the operation stays in its wait, and a later step goes on from there (R254). -/
def runOps : List MicroOp → Completion → State → State
  | [], c, s => s.complete c
  | m :: ms, c, s =>
    match runMicro m s with
    | (t, .done) => runOps ms c t
    | (t, .failed) => t.raiseTransportError
    | (t, .waiting) => { t with running := some { rest := m :: ms, done := c } }

/-- Go on with the operation in progress. -/
def resume (r : Running) (s : State) : State := runOps r.rest r.done { s with running := none }

/-! ### Emitting commands (R92, R134, spec/43_bus_commands.md) -/

/-- How the block sends a command: MU_CMD for the two without payload, else MU_CMD_DATA. -/
def emission (c : Command) : MicroOp :=
  match c with
  | .swReset => .cmd c.opcode
  | .masterActivate => .cmd c.opcode
  | .driverControl | .dataEntryMode | .setRamXPos _ _ | .setRamYPos _ _ | .setRamXCounter _
  | .setRamYCounter _ | .borderWaveformControl | .tempControl | .writeBwData _ | .writeRedData _
  | .updateDisplayCtrl2 _ => .cmdData c.opcode c.payload

/-! ### Checks shared by the instructions (R23, R243, R246, R247) -/

/-- A halted block takes no step (R243), and nothing starts while an operation is in progress (R23). -/
def whenFree (s : State) (k : Answer) : Answer :=
  match s.fault with
  | some f => .fault (.halted f)
  | none =>
    match s.running with
    | some _ => .refused .operationInProgress
    | none => k

/-- The phase check of every sequencer operation but INIT (R162). -/
def whenInitialized (s : State) (k : Answer) : Answer :=
  whenFree s (match s.phase with
    | .uninitialized => .refused .uninitialized
    | .initialized | .frameStaged | .activated => k)

/-- The plane check of every plane operation (R33). -/
def withPlane (s : State) (p : Plane) (k : Answer) : Answer :=
  if (s.planeRegs p).valid then k else .refused (.noPlane p)

/-- Continue with all bytes of a plane; a byte that holds no value faults (DEDUCED, log entry 5). -/
def withPlaneBytes (s : State) (p : Plane) (k : List Byte → Answer) : Answer :=
  withPlane s p (match s.planeBytes? p with
    | some bs => k bs
    | none => .fault (.incompletePlane p))

/-- Continue with the byte at an address. -/
def withByte (s : State) (a : Nat) (k : Byte → Answer) : Answer :=
  match s.memRead a with
  | .ok b => k b
  | .error f => .fault f

/-- Store a byte and continue. -/
def storeByte (s : State) (a : Nat) (v : Byte) (k : State → Answer) : Answer :=
  match s.memWrite a v with
  | .ok t => k t
  | .error f => .fault f

/-- A sequence of micro-operations as an instruction's whole effect. -/
def runAnswer (ops : List MicroOp) (c : Completion) (s : State) : Answer := .next (runOps ops c s)

/-- A fatal check that failed (R243). -/
def fatalAnswer (s : State) (f : FatalFault) : Answer := .next (s.raiseFatal f)

end Sys2Proof.Machine
end

