-- ==== Sys2Proof/Machine/BusCommands.lean ====
section
/-! DEFINITION. The controller commands as instructions: the block's side of each, which is to emit it
(spec/43_bus_commands.md R210 to R222). What the controller does with it is outside the block
(spec/00_scope.md R6; DEDUCED, log entries 7 and 10). -/

namespace Sys2Proof.Machine

/-- Emit one command (R92, R131, R134). -/
def emitCommand (c : Command) (s : State) : Answer := whenFree s (runAnswer [emission c] .quiet s)

/-- SW_RESET (R210). -/
def execSwReset (s : State) : Answer := emitCommand .swReset s

/-- DRIVER_CONTROL (R211). -/
def execDriverControl (s : State) : Answer := emitCommand .driverControl s

/-- DATA_ENTRY_MODE (R212). -/
def execDataEntryMode (s : State) : Answer := emitCommand .dataEntryMode s

/-- SET_RAMXPOS (R213). -/
def execSetRamXPos (xs xe : Byte) (s : State) : Answer := emitCommand (.setRamXPos xs xe) s

/-- SET_RAMYPOS (R214). -/
def execSetRamYPos (ys ye : U16) (s : State) : Answer := emitCommand (.setRamYPos ys ye) s

/-- SET_RAMX_COUNTER (R215). -/
def execSetRamXCounter (x : Byte) (s : State) : Answer := emitCommand (.setRamXCounter x) s

/-- SET_RAMY_COUNTER (R216). -/
def execSetRamYCounter (y : U16) (s : State) : Answer := emitCommand (.setRamYCounter y) s

/-- BORDER_WAVEFORM_CONTROL (R217). -/
def execBorderWaveformControl (s : State) : Answer := emitCommand .borderWaveformControl s

/-- TEMP_CONTROL (R218). -/
def execTempControl (s : State) : Answer := emitCommand .tempControl s

/-- WRITE_BW_DATA (R219), as the update operations send it. -/
def execWriteBwData (bytes : List Byte) (s : State) : Answer := emitCommand (.writeBwData bytes) s

/-- WRITE_RED_DATA (R220), as the update operations send it. -/
def execWriteRedData (bytes : List Byte) (s : State) : Answer := emitCommand (.writeRedData bytes) s

/-- UPDATE_DISPLAY_CTRL2 (R221). -/
def execUpdateDisplayCtrl2 (flag : Byte) (s : State) : Answer := emitCommand (.updateDisplayCtrl2 flag) s

/-- MASTER_ACTIVATE (R222). -/
def execMasterActivate (s : State) : Answer := emitCommand .masterActivate s

end Sys2Proof.Machine
end

