-- ==== Sys2Proof/Machine/Address.lean ====
section
/-! DEFINITION. The address translator's pure functions on exact integers (spec/42_addressing_engine.md R180 to
R183). -/

namespace Sys2Proof.Machine

/-- `ceil_div(a, 8)` (R11). -/
def ceilDiv8 (a : Nat) : Nat := (a + 7) / 8

/-- `outside_bounds`: width and height are swapped for 90° and 270° (R180). -/
def outsideBounds (x y : Int) (w h : Nat) (r : Rot) : Bool :=
  match r with
  | .r0 | .r180 => decide (x < 0 ∨ y < 0 ∨ (w : Int) ≤ x ∨ (h : Int) ≤ y)
  | .r90 | .r270 => decide (x < 0 ∨ y < 0 ∨ (h : Int) ≤ x ∨ (w : Int) ≤ y)

/-- `rotate_coordinates`, total on integers (R181). -/
def rotateCoordinates (x y : Int) (w h : Nat) (r : Rot) : Int × Int :=
  match r with
  | .r0 => (x, y)
  | .r90 => ((w : Int) - 1 - y, x)
  | .r180 => ((w : Int) - 1 - x, (h : Int) - 1 - y)
  | .r270 => (y, (h : Int) - 1 - x)

/-- The mask of a physical column, `0x80 >> (x' mod 8)` (R62, R182). -/
def bitMask (x : Nat) : Byte := 0x80#8 >>> (x % 8)

/-- `address`: the byte index and bit mask of a point, which has none outside bounds (R182). -/
def address (x y : Int) (w h : Nat) (r : Rot) : Option (Nat × Byte) :=
  if outsideBounds x y w h r then none
  else
    let q := rotateCoordinates x y w h r
    some (q.1.toNat / 8 + ceilDiv8 w * q.2.toNat, bitMask q.1.toNat)

/-- `buffer_length` (R183). -/
def bufferLength (w h : Nat) : Nat := ceilDiv8 w * h

end Sys2Proof.Machine
end

