-- ==== Sys2Proof/Machine/FrameBuffer.lean ====
section
/-! DEFINITION. The plane operations and the host operations on the pure functions
(spec/42_addressing_engine.md R186 to R195). None is gated by PHASE and none touches a port (R150, R162). -/

namespace Sys2Proof.Machine

/-- The operation ends with a result. -/
def resultAnswer (s : State) (r : Result) : Answer := .next (s.setResult r)

/-- A pixel's byte with its bit set or cleared (R189). -/
def pixelByte (p : Plane) (on : Bool) (b m : Byte) : Byte := if storedBit p on then b ||| m else b &&& ~~~m

/-- FB_NEW (R186). -/
def execFbNew (p : Plane) (on : Bool) (s : State) : Answer :=
  whenFree s (resultAnswer ((s.fillPlane p (fillByte p on)).setPlaneRegs p { valid := true, rot := .r0 }) .ok)

/-- FB_SET_ROTATION (R188). -/
def execFbSetRotation (p : Plane) (r : Rot) (s : State) : Answer :=
  whenFree s (withPlane s p (resultAnswer (s.setPlaneRegs p { s.planeRegs p with rot := r }) .ok))

/-- FB_SET_PIXEL (R189): outside bounds the pixel is dropped (R245). -/
def execFbSetPixel (p : Plane) (x y : I32) (on : Bool) (s : State) : Answer :=
  whenFree s (withPlane s p
    (match address x.toInt y.toInt Config.panelWidth Config.panelHeight (s.planeRegs p).rot with
     | none => resultAnswer s .ok
     | some (i, m) =>
       withByte s (fb p i) fun b =>
         storeByte s (fb p i) (pixelByte p on b m) fun t => resultAnswer t .ok))

/-- FB_CLEAR (R190). -/
def execFbClear (p : Plane) (on : Bool) (s : State) : Answer :=
  whenFree s (withPlane s p (resultAnswer (s.fillPlane p (fillByte p on)) .ok))

/-- FB_OUTSIDE_BOUNDS (R192). -/
def execFbOutsideBounds (x y : I32) (w h : U16) (r : Rot) (s : State) : Answer :=
  whenFree s (resultAnswer s (.bool (outsideBounds x.toInt y.toInt w.toNat h.toNat r)))

/-- FB_ROTATE (R193): the exact integers, in or out of bounds. -/
def execFbRotate (x y : I32) (w h : U16) (r : Rot) (s : State) : Answer :=
  let q := rotateCoordinates x.toInt y.toInt w.toNat h.toNat r
  whenFree s (resultAnswer s (.pair q.1 q.2))

/-- FB_ADDRESS (R194): refused outside bounds. -/
def execFbAddress (x y : I32) (w h : U16) (r : Rot) (s : State) : Answer :=
  whenFree s
    (match address x.toInt y.toInt w.toNat h.toNat r with
     | none => .refused .outOfBounds
     | some (i, m) => resultAnswer s (.addr i m))

/-- FB_BUFFER_LENGTH (R195). -/
def execFbBufferLength (w h : U16) (s : State) : Answer :=
  whenFree s (resultAnswer s (.len (bufferLength w.toNat h.toNat)))

/-- FB_READ (R191): all bytes of the plane, in index order. -/
def execFbRead (p : Plane) (s : State) : Answer :=
  whenFree s (withPlaneBytes s p fun bytes => resultAnswer s (.bytes bytes))

end Sys2Proof.Machine
end

