-- ==== Sys2Proof/Machine/MicroOps.lean ====
section
/-! DEFINITION. The micro-operations as instructions (spec/40_control_interface.md R131 to R137). A host cannot
issue one (spec/30_encoding.md R105); on its own each has the effect its rule gives it, and its failure is the
TransportError of R138 (DEDUCED, log entry 7). -/

namespace Sys2Proof.Machine

/-- MU_CMD (R131). -/
def execMuCmd (op : Byte) (s : State) : Answer := whenFree s (runAnswer [.cmd op] .quiet s)

/-- MU_DATA (R132). -/
def execMuData (bytes : List Byte) (s : State) : Answer := whenFree s (runAnswer [.data bytes] .quiet s)

/-- MU_CMD_DATA (R134). -/
def execMuCmdData (op : Byte) (bytes : List Byte) (s : State) : Answer :=
  whenFree s (runAnswer [.cmdData op bytes] .quiet s)

/-- MU_REPEAT (R135). -/
def execMuRepeat (v : Byte) (n : Nat) (s : State) : Answer := whenFree s (runAnswer [.repeatByte v n] .quiet s)

/-- MU_WAIT_IDLE (R136). -/
def execMuWaitIdle (s : State) : Answer := whenFree s (runAnswer [.waitIdle] .quiet s)

/-- MU_RESET (R137). -/
def execMuReset (s : State) : Answer := whenFree s (runAnswer [.reset] .quiet s)

end Sys2Proof.Machine
end

