-- ==== Sys2Proof/Machine/Operands.lean ====
section
/-! DEFINITION. Operand forms: buffer operands (spec/30_encoding.md R101, spec/20_memory.md R67), and the window
and counter commands that coordinate operands become (R97, spec/43_bus_commands.md R213 to R216). -/

namespace Sys2Proof.Machine

/-- `bytes(buf)`: inline bytes, or the plane's bytes as they are when the operation starts (R67, R101). A plane
that is not constructed is refused (R33). -/
def withBuf (s : State) (buf : Buf) (k : List Byte → Answer) : Answer :=
  match buf with
  | .inline bs => k bs
  | .plane p => withPlaneBytes s p k

/-- SET_RAMXPOS for pixel coordinates (R213). -/
def xWindow (sx ex : Nat) : Command := .setRamXPos (xByte sx) (xByte ex)

/-- SET_RAMYPOS for pixel coordinates (R214). -/
def yWindow (sy ey : Nat) : Command := .setRamYPos (yWord sy) (yWord ey)

/-- SET_RAMX_COUNTER for a pixel coordinate (R215). -/
def xCounter (x : Nat) : Command := .setRamXCounter (xByte x)

/-- SET_RAMY_COUNTER for a pixel coordinate (R216). -/
def yCounter (y : Nat) : Command := .setRamYCounter (yWord y)

/-- The micro-operations of a window (R153). -/
def windowOps (sx sy ex ey : Nat) : List MicroOp := [emission (xWindow sx ex), emission (yWindow sy ey)]

/-- The micro-operations of a counter (R154). -/
def counterOps (x y : Nat) : List MicroOp := [emission (xCounter x), emission (yCounter y)]

/-- `full_select()`: the window (0, 0, W - 1, H - 1) and the counter (0, 0) (R8, R151). -/
def fullSelect : List MicroOp :=
  windowOps 0 0 (Config.panelWidth - 1) (Config.panelHeight - 1) ++ counterOps 0 0

end Sys2Proof.Machine
end

