-- ==== Sys2Proof/Machine/Sequencer.lean ====
section
/-! DEFINITION. The sequencer operations (spec/41_command_protocol.md R150 to R163). Every check comes before the
first event (D7), in the order of spec/60_exceptions.md R247. -/

namespace Sys2Proof.Machine

/-- The sequence of INIT; its order is fixed (R152, R273). -/
def initOps : List MicroOp :=
  [.reset, .waitIdle, emission .swReset, .waitIdle, emission .driverControl, emission .dataEntryMode] ++
    fullSelect ++ [emission .borderWaveformControl, emission .tempControl, .waitIdle]

/-- The sequence of a partial update: window, counter, data (R157). -/
def partialOps (x y w h : Nat) (bytes : List Byte) : List MicroOp :=
  windowOps x y (x + w) (y + h) ++ counterOps x y ++ [emission (.writeBwData bytes)]

/-- The sequence of a clear: the opcode in its own transaction, then the flood fill (R158, R159). -/
def clearOps (c : Command) (p : Plane) : List MicroOp :=
  fullSelect ++ [.cmd c.opcode, .repeatByte (fillByte p false) Config.planeBytes]

/-- The sequence of a refresh (R160, R161). -/
def displayOps (flag : Byte) : List MicroOp :=
  [emission (.updateDisplayCtrl2 flag), emission .masterActivate, .waitIdle]

/-- The first check of a partial update that fails, in the order of R157 and R247. -/
def partialFault (x y w h length : Nat) : Option FatalFault :=
  if ¬ x < x + w then some (.windowOrder .x x (x + w))
  else if ¬ y < y + h then some (.windowOrder .y y (y + h))
  else if Config.panelWidth < x + w ∨ Config.panelHeight < y + h then some (.partialBounds x y w h)
  else if x % 8 ≠ 0 then some (.partialMisaligned x)
  else if length ≠ bufferLength w h then some (.partialLength length (bufferLength w h))
  else none

/-- INIT (R152). -/
def execInit (s : State) : Answer := whenFree s (runAnswer initOps .initDone s)

/-- SET_RAM_WINDOW (R153): the window order is checked on pixels, X first. -/
def execSetRamWindow (sx sy ex ey : U32) (s : State) : Answer :=
  whenInitialized s
    (if ¬ sx.toNat < ex.toNat then fatalAnswer s (.windowOrder .x sx.toNat ex.toNat)
     else if ¬ sy.toNat < ey.toNat then fatalAnswer s (.windowOrder .y sy.toNat ey.toNat)
     else runAnswer (windowOps sx.toNat sy.toNat ex.toNat ey.toNat) .ok s)

/-- SET_RAM_COUNTER (R154). -/
def execSetRamCounter (x y : U32) (s : State) : Answer :=
  whenInitialized s (runAnswer (counterOps x.toNat y.toNat) .ok s)

/-- UPDATE_BW_FRAME (R155): any length is sent. -/
def execUpdateBwFrame (buf : Buf) (s : State) : Answer :=
  whenInitialized s (withBuf s buf fun bytes =>
    runAnswer (fullSelect ++ [emission (.writeBwData bytes)]) (.okPhase .frameStaged) s)

/-- UPDATE_RED_FRAME (R156). -/
def execUpdateRedFrame (buf : Buf) (s : State) : Answer :=
  whenInitialized s (withBuf s buf fun bytes =>
    runAnswer (fullSelect ++ [emission (.writeRedData bytes)]) (.okPhase .frameStaged) s)

/-- UPDATE_PARTIAL_BW_FRAME (R157): sums are exact integers. -/
def execUpdatePartialBwFrame (x y w h : U32) (buf : Buf) (s : State) : Answer :=
  whenInitialized s (withBuf s buf fun bytes =>
    match partialFault x.toNat y.toNat w.toNat h.toNat bytes.length with
    | some f => fatalAnswer s f
    | none => runAnswer (partialOps x.toNat y.toNat w.toNat h.toNat bytes) (.okPhase .frameStaged) s)

/-- CLEAR_BW_FRAME (R158). -/
def execClearBwFrame (s : State) : Answer :=
  whenInitialized s (runAnswer (clearOps (.writeBwData []) .bw) (.okPhase .frameStaged) s)

/-- CLEAR_RED_FRAME (R159). -/
def execClearRedFrame (s : State) : Answer :=
  whenInitialized s (runAnswer (clearOps (.writeRedData []) .red) (.okPhase .frameStaged) s)

/-- DISPLAY_FRAME (R160). -/
def execDisplayFrame (s : State) : Answer :=
  whenInitialized s (runAnswer (displayOps flagDisplayFull) (.okPhase .activated) s)

/-- DISPLAY_PARTIAL_FRAME (R161): the flag is the open parameter (DESIGN CHOICE, log entry 6). -/
def execDisplayPartialFrame (s : State) : Answer :=
  whenInitialized s (runAnswer (displayOps Config.partialRefreshFlag) (.okPhase .activated) s)

/-- The pseudo-instruction SELECT_FULL_WINDOW: two host operations (R107). -/
def selectFullWindow : List Instr := [.setRamWindow 0 0 199 199, .setRamCounter 0 0]

end Sys2Proof.Machine
end

