-- ==== Sys2Proof/Machine/Dispatch.lean ====
section
/-! DEFINITION. The instruction's meaning, one arm per row of spec/opcode_table.json. -/

namespace Sys2Proof.Machine

def exec (i : Instr) (s : State) : Host.Outcome State Fault Refusal :=
  match i with
  | .init => Sys2Proof.Machine.execInit s
  | .setRamWindow sx sy ex ey => Sys2Proof.Machine.execSetRamWindow sx sy ex ey s
  | .setRamCounter x y => Sys2Proof.Machine.execSetRamCounter x y s
  | .updateBwFrame buf => Sys2Proof.Machine.execUpdateBwFrame buf s
  | .updateRedFrame buf => Sys2Proof.Machine.execUpdateRedFrame buf s
  | .updatePartialBwFrame x y w h buf => Sys2Proof.Machine.execUpdatePartialBwFrame x y w h buf s
  | .clearBwFrame => Sys2Proof.Machine.execClearBwFrame s
  | .clearRedFrame => Sys2Proof.Machine.execClearRedFrame s
  | .displayFrame => Sys2Proof.Machine.execDisplayFrame s
  | .displayPartialFrame => Sys2Proof.Machine.execDisplayPartialFrame s
  | .fbNew p on => Sys2Proof.Machine.execFbNew p on s
  | .fbSetRotation p r => Sys2Proof.Machine.execFbSetRotation p r s
  | .fbSetPixel p x y on => Sys2Proof.Machine.execFbSetPixel p x y on s
  | .fbClear p on => Sys2Proof.Machine.execFbClear p on s
  | .fbOutsideBounds x y w h r => Sys2Proof.Machine.execFbOutsideBounds x y w h r s
  | .fbRotate x y w h r => Sys2Proof.Machine.execFbRotate x y w h r s
  | .fbAddress x y w h r => Sys2Proof.Machine.execFbAddress x y w h r s
  | .fbBufferLength w h => Sys2Proof.Machine.execFbBufferLength w h s
  | .fbRead p => Sys2Proof.Machine.execFbRead p s
  | .swReset => Sys2Proof.Machine.execSwReset s
  | .driverControl => Sys2Proof.Machine.execDriverControl s
  | .dataEntryMode => Sys2Proof.Machine.execDataEntryMode s
  | .setRamXPos xs xe => Sys2Proof.Machine.execSetRamXPos xs xe s
  | .setRamYPos ys ye => Sys2Proof.Machine.execSetRamYPos ys ye s
  | .setRamXCounter x => Sys2Proof.Machine.execSetRamXCounter x s
  | .setRamYCounter y => Sys2Proof.Machine.execSetRamYCounter y s
  | .borderWaveformControl => Sys2Proof.Machine.execBorderWaveformControl s
  | .tempControl => Sys2Proof.Machine.execTempControl s
  | .writeBwData bytes => Sys2Proof.Machine.execWriteBwData bytes s
  | .writeRedData bytes => Sys2Proof.Machine.execWriteRedData bytes s
  | .updateDisplayCtrl2 flag => Sys2Proof.Machine.execUpdateDisplayCtrl2 flag s
  | .masterActivate => Sys2Proof.Machine.execMasterActivate s
  | .muCmd op => Sys2Proof.Machine.execMuCmd op s
  | .muData bytes => Sys2Proof.Machine.execMuData bytes s
  | .muCmdData op bytes => Sys2Proof.Machine.execMuCmdData op bytes s
  | .muRepeat v n => Sys2Proof.Machine.execMuRepeat v n s
  | .muWaitIdle => Sys2Proof.Machine.execMuWaitIdle s
  | .muReset => Sys2Proof.Machine.execMuReset s

end Sys2Proof.Machine
end

