-- ==== Sys2Proof/Machine/Fetch.lean ====
section
/-! DEFINITION. How a host operation reaches the block: the next frame the host has issued
(spec/10_state.md R23, spec/30_encoding.md R99). The block fetches nothing else (spec/20_memory.md R79). -/

namespace Sys2Proof.Machine

/-- The refusal a frame earns (R246). -/
def refusalOf : DecodeError → Refusal
  | .badFrameLength => .badFrameLength
  | .badSelector => .badSelector
  | .badOperand => .badOperand

/-- What the block does next. -/
inductive Fetched where
  /-- A halted block does nothing (R243). -/
  | halted (f : FatalFault)
  /-- It goes on with the operation in progress (R22, R254). -/
  | resume (r : Running)
  /-- It waits for the host (R270). -/
  | idle
  /-- It executes a host operation; the frame is taken. -/
  | run (i : Instr) (rest : List Frame)
  /-- The frame is refused (R246). -/
  | bad (e : DecodeError)
  deriving DecidableEq, Repr

/-- Look at the state for what comes next. -/
def fetch (s : State) : Fetched :=
  match s.fault with
  | some f => .halted f
  | none =>
    match s.running with
    | some r => .resume r
    | none =>
      match s.frames with
      | [] => .idle
      | f :: rest =>
        match decode f with
        | .ok i => .run i rest
        | .error e => .bad e

end Sys2Proof.Machine
end

