-- ==== Sys2Proof/Machine/Step.lean ====
section
/-! DEFINITION. One step of the block. -/

namespace Sys2Proof.Machine

/-- One step: a host operation from its frame to its end, or as far as BUSY lets it go; then one more poll of BUSY
a step until it can go on (spec/10_state.md R22, R23; DESIGN CHOICE, log entries 3 and 4). -/
def step (s : State) : Host.Outcome State Fault Refusal :=
  match fetch s with
  | .halted f => .fault (.halted f)
  | .resume r => .next (resume r s)
  | .idle => .next s
  | .run i rest => exec i { s with frames := rest }
  | .bad e => .refused (refusalOf e)

/-- The state with a frame issued by the host as the next one: the instruction of a word of the opcode table, its
operand bytes above `nbits` zero (DESIGN CHOICE, log entry 11). -/
def State.withFetchWord (s : State) (nbits w : Nat) : State :=
  { s with frames := frameOfWord nbits w :: s.frames }

end Sys2Proof.Machine
end

