-- ==== Sys2Proof/Machine/Stream.lean ====
section
/-! DEFINITION. What a trace says to the controller: the stream S and the command list Cmds (spec/20_memory.md
R74), what may have arrived after failures (spec/60_exceptions.md R241), and the other readings of a trace
(spec/10_state.md R26 and R38, spec/40_control_interface.md R139, spec/42_addressing_engine.md R185). -/

namespace Sys2Proof.Machine

/-- `S`, from a level of DC on: each transferred byte with the level last driven on DC (R74). -/
def streamFrom : Level → List Event → List (Level × Byte)
  | _, [] => []
  | dc, e :: es =>
    match e with
    | .line .dc v => streamFrom (.of v) es
    | .xfer bs => bs.map (fun b => (dc, b)) ++ streamFrom dc es
    | .line .csN _ | .line .rstN _ | .delay _ | .busy _ | .fail _ => streamFrom dc es

/-- `S(TRACE)`: DC is `undef` before its first drive (R74). -/
def stream (es : List Event) : List (Level × Byte) := streamFrom .undef es

/-- Split a stream before every command byte: the data bytes before the first, and the commands (R74). A byte sent
with DC `undef` is neither. -/
def splitCommands : List (Level × Byte) → List Byte × List (Byte × List Byte)
  | [] => ([], [])
  | (dc, b) :: rest =>
    let r := splitCommands rest
    match dc with
    | .low => ([], (b, r.1) :: r.2)
    | .high => (b :: r.1, r.2)
    | .undef => r

/-- `Cmds(S)`: the opcode and payload of each command (R74). Data bytes before the first command byte belong to no
command (DESIGN CHOICE, log entry 14). -/
def cmds (st : List (Level × Byte)) : List (Byte × List Byte) := (splitCommands st).2

/-- The commands a list of events sends. -/
def cmdsOf (es : List Event) : List (Byte × List Byte) := cmds (stream es)

/-- Whether the controller may have received `out` from the events, DC standing at a level: of a failed transfer
any prefix of its bytes may have arrived, and after a failed drive DC has no known level (R241, R242; log
entry 10). -/
def mayReceive : Level → List Event → List (Level × Byte) → Prop
  | _, [], out => out = []
  | dc, e :: es, out =>
    match e with
    | .line .dc v => mayReceive (.of v) es out
    | .fail (.drive .dc _) => mayReceive .undef es out
    | .xfer bs => ∃ more, out = bs.map (fun b => (dc, b)) ++ more ∧ mayReceive dc es more
    | .fail (.xfer bs) =>
      ∃ n more, out = (bs.take n).map (fun b => (dc, b)) ++ more ∧ mayReceive dc es more
    | .line .csN _ | .line .rstN _ | .delay _ | .busy _ | .fail .sampleBusy
    | .fail (.drive .csN _) | .fail (.drive .rstN _) => mayReceive dc es out

/-- The last payload sent to a controller register: a shadow that no rule reads (R37, R38). -/
def lastPayload (op : Byte) (es : List Event) : Option (List Byte) :=
  ((cmdsOf es).reverse.find? (fun c => c.1 == op)).map Prod.snd

/-- The lines as a list of events leaves them (R26). -/
def linesAfter (ls : Lines) (es : List Event) : Lines := es.foldl Lines.after ls

/-- Whether an event is a failure. -/
def Event.isFail : Event → Bool
  | .fail _ => true
  | .line _ _ | .xfer _ | .delay _ | .busy _ => false

/-- Whether a list of events has no failure. -/
def noFail (es : List Event) : Bool := es.all (fun e => !e.isFail)

/-- Follow the chip-select brackets of a list of events: `some true` inside a bracket, `some false` outside, `none`
once DC was driven inside one or a transfer stood outside one (R139). -/
def bracketStep : Option Bool → Event → Option Bool
  | none, _ => none
  | some inside, e =>
    match e with
    | .line .csN v => some !v
    | .line .dc _ => if inside then none else some inside
    | .xfer _ => if inside then some inside else none
    | .line .rstN _ | .delay _ | .busy _ | .fail _ => some inside

/-- The bracket state after a list of events that begins outside a bracket. -/
def bracketState (es : List Event) : Option Bool := es.foldl bracketStep (some false)

/-- `pixel_on`: the logical value of a stored pixel; `none` outside bounds or where the byte holds no value
(R185). -/
def pixelOn (s : State) (p : Plane) (q : Option (Nat × Byte)) : Option Bool :=
  match q with
  | none => none
  | some (i, m) => (s.mem.read (fb p i)).map (fun b => ((b &&& m) != 0) != invOf p)

end Sys2Proof.Machine
end

