-- ==== Sys2Proof/WellFormed.lean ====
section
/-! DEFINITION. Which terms of `Instr` the spec's encodings can write: an inline buffer's length fits its `u32`
field (spec/30_encoding.md R101), and a micro-operation's opcode is one of the thirteen (R95, spec/40 R131). -/

namespace Sys2Proof

/-- An inline buffer is no longer than its length field can say (R101). -/
def Buf.wf : Buf → Bool
  | .inline bs => decide (bs.length < 2 ^ 32)
  | .plane _ => true

/-- The opcode of a micro-operation is a constant of R95 (R131). -/
def isOpcode (b : Byte) : Bool := opcodes.contains b

/-- The micro-operations the block runs. -/
def MicroOp.wf : MicroOp → Bool
  | .cmd op => isOpcode op
  | .data _ => true
  | .cmdData op _ => isOpcode op
  | .repeatByte _ _ => true
  | .waitIdle => true
  | .reset => true

/-- The instructions the spec's encodings can write. -/
def Instr.wf : Instr → Bool
  | .updateBwFrame buf => buf.wf
  | .updateRedFrame buf => buf.wf
  | .updatePartialBwFrame _ _ _ _ buf => buf.wf
  | .muCmd op => isOpcode op
  | .muCmdData op _ => isOpcode op
  | .init | .setRamWindow _ _ _ _ | .setRamCounter _ _ | .clearBwFrame | .clearRedFrame
  | .displayFrame | .displayPartialFrame => true
  | .fbNew _ _ | .fbSetRotation _ _ | .fbSetPixel _ _ _ _ | .fbClear _ _ | .fbOutsideBounds _ _ _ _ _
  | .fbRotate _ _ _ _ _ | .fbAddress _ _ _ _ _ | .fbBufferLength _ _ | .fbRead _ => true
  | .swReset | .driverControl | .dataEntryMode | .setRamXPos _ _ | .setRamYPos _ _ | .setRamXCounter _
  | .setRamYCounter _ | .borderWaveformControl | .tempControl | .writeBwData _ | .writeRedData _
  | .updateDisplayCtrl2 _ | .masterActivate => true
  | .muData _ | .muRepeat _ _ | .muWaitIdle | .muReset => true

end Sys2Proof
end

