-- ==== Sys2Proof/Safety.lean ====
section
/-! DEFINITION. The terms claims are stated in: the premises about a state and its inputs, the events of each
micro-operation written out from its rule, and the invariants of the machine. -/

namespace Sys2Proof

/-! ### The kinds of instructions -/

/-- The host operations of spec/42_addressing_engine.md. -/
def Instr.isFb : Instr → Bool
  | .fbNew _ _ | .fbSetRotation _ _ | .fbSetPixel _ _ _ _ | .fbClear _ _ | .fbOutsideBounds _ _ _ _ _
  | .fbRotate _ _ _ _ _ | .fbAddress _ _ _ _ _ | .fbBufferLength _ _ | .fbRead _ => true
  | .init | .setRamWindow _ _ _ _ | .setRamCounter _ _ | .updateBwFrame _ | .updateRedFrame _
  | .updatePartialBwFrame _ _ _ _ _ | .clearBwFrame | .clearRedFrame | .displayFrame
  | .displayPartialFrame => false
  | .swReset | .driverControl | .dataEntryMode | .setRamXPos _ _ | .setRamYPos _ _ | .setRamXCounter _
  | .setRamYCounter _ | .borderWaveformControl | .tempControl | .writeBwData _ | .writeRedData _
  | .updateDisplayCtrl2 _ | .masterActivate => false
  | .muCmd _ | .muData _ | .muCmdData _ _ | .muRepeat _ _ | .muWaitIdle | .muReset => false

/-- The instructions with a wait for BUSY (R76, R136). -/
def Instr.waits : Instr → Bool
  | .init | .displayFrame | .displayPartialFrame | .muWaitIdle => true
  | .setRamWindow _ _ _ _ | .setRamCounter _ _ | .updateBwFrame _ | .updateRedFrame _
  | .updatePartialBwFrame _ _ _ _ _ | .clearBwFrame | .clearRedFrame => false
  | .fbNew _ _ | .fbSetRotation _ _ | .fbSetPixel _ _ _ _ | .fbClear _ _ | .fbOutsideBounds _ _ _ _ _
  | .fbRotate _ _ _ _ _ | .fbAddress _ _ _ _ _ | .fbBufferLength _ _ | .fbRead _ => false
  | .swReset | .driverControl | .dataEntryMode | .setRamXPos _ _ | .setRamYPos _ _ | .setRamXCounter _
  | .setRamYCounter _ | .borderWaveformControl | .tempControl | .writeBwData _ | .writeRedData _
  | .updateDisplayCtrl2 _ | .masterActivate => false
  | .muCmd _ | .muData _ | .muCmdData _ _ | .muRepeat _ _ | .muReset => false

/-- The sequencer operations other than INIT (R162). -/
def Instr.needsInit : Instr → Bool
  | .setRamWindow _ _ _ _ | .setRamCounter _ _ | .updateBwFrame _ | .updateRedFrame _
  | .updatePartialBwFrame _ _ _ _ _ | .clearBwFrame | .clearRedFrame | .displayFrame
  | .displayPartialFrame => true
  | .init => false
  | .fbNew _ _ | .fbSetRotation _ _ | .fbSetPixel _ _ _ _ | .fbClear _ _ | .fbOutsideBounds _ _ _ _ _
  | .fbRotate _ _ _ _ _ | .fbAddress _ _ _ _ _ | .fbBufferLength _ _ | .fbRead _ => false
  | .swReset | .driverControl | .dataEntryMode | .setRamXPos _ _ | .setRamYPos _ _ | .setRamXCounter _
  | .setRamYCounter _ | .borderWaveformControl | .tempControl | .writeBwData _ | .writeRedData _
  | .updateDisplayCtrl2 _ | .masterActivate => false
  | .muCmd _ | .muData _ | .muCmdData _ _ | .muRepeat _ _ | .muWaitIdle | .muReset => false

/-- The plane of a buffer operand (R101). -/
def Buf.plane? : Buf → Option Plane
  | .inline _ => none
  | .plane p => some p

/-- The plane whose bytes or rotation an operation uses, so that it must have been constructed (R33). -/
def Instr.usesPlane : Instr → Option Plane
  | .updateBwFrame buf | .updateRedFrame buf | .updatePartialBwFrame _ _ _ _ buf => buf.plane?
  | .fbSetRotation p _ | .fbSetPixel p _ _ _ | .fbClear p _ | .fbRead p => some p
  | .init | .setRamWindow _ _ _ _ | .setRamCounter _ _ | .clearBwFrame | .clearRedFrame | .displayFrame
  | .displayPartialFrame | .fbNew _ _ | .fbOutsideBounds _ _ _ _ _ | .fbRotate _ _ _ _ _
  | .fbAddress _ _ _ _ _ | .fbBufferLength _ _ => none
  | .swReset | .driverControl | .dataEntryMode | .setRamXPos _ _ | .setRamYPos _ _ | .setRamXCounter _
  | .setRamYCounter _ | .borderWaveformControl | .tempControl | .writeBwData _ | .writeRedData _
  | .updateDisplayCtrl2 _ | .masterActivate => none
  | .muCmd _ | .muData _ | .muCmdData _ _ | .muRepeat _ _ | .muWaitIdle | .muReset => none

end Sys2Proof

namespace Sys2Proof.Machine

/-! ### Premises -/

/-- The block takes the host's next operation: it is not halted (R243) and no operation is in progress (R23). -/
abbrev State.Free (s : State) : Prop := s.fault = none ∧ s.running = none

/-- INIT has completed since block reset (R27, R162). -/
abbrev State.Booted (s : State) : Prop := s.Free ∧ s.phase ≠ .uninitialized

/-- None of the next `n` port actions fails (R241). -/
abbrev State.DrawsOk (n : Nat) (s : State) : Prop := ∀ b ∈ s.failIn.take n, b = false

/-- No port action fails. -/
abbrev State.PortsWork (s : State) : Prop := ∀ b ∈ s.failIn, b = false

/-- `BUSY_EVENTUALLY_IDLE` for the next `n` waits: BUSY reads 0 in each after finitely many samples (R253). -/
abbrev State.BusyEventuallyIdle (n : Nat) (s : State) : Prop := s.busyRest = false ∨ n ≤ s.busyIn.count false

/-- Every byte of a plane holds a value. -/
abbrev State.PlaneStored (s : State) (p : Plane) : Prop :=
  ∀ i, i < Config.planeBytes → (s.mem.read (fb p i)).isSome = true

/-! ### Events, written out from the rules of spec/40_control_interface.md -/

/-- The events of MU_CMD (R131). -/
def cmdEvents (op : Byte) : List Event := [.line .dc false, .line .csN false, .xfer [op], .line .csN true]

/-- The events of MU_DATA (R132). -/
def dataEvents (s : List Byte) : List Event :=
  [.line .dc true, .line .csN false] ++ (chunks s).map Event.xfer ++ [.line .csN true]

/-- The events of MU_CMD_DATA (R134). -/
def commandEvents (op : Byte) (s : List Byte) : List Event := cmdEvents op ++ dataEvents s

/-- The events of MU_REPEAT (R135). -/
def repeatEvents (v : Byte) (n : Nat) : List Event :=
  [.line .dc true, .line .csN false] ++ List.replicate n (.xfer [v]) ++ [.line .csN true]

/-- The events of MU_RESET (R137). -/
def resetEvents : List Event := [.line .rstN false, .delay 10, .line .rstN true, .delay 10]

/-- The events of a wait that ends: `k` samples of 1, then a 0 (R136). -/
def waitEvents (k : Nat) : List Event := List.replicate k (.busy true) ++ [.busy false]

/-- The events of `full_select()`, with its payload bytes written out (R151). -/
def fullSelectEvents : List Event :=
  commandEvents 0x44 [0x00, 0x18] ++ commandEvents 0x45 [0x00, 0x00, 0xC7, 0x00] ++
    commandEvents 0x4E [0x00] ++ commandEvents 0x4F [0x00, 0x00]

/-- The events of INIT, its waits taking `j`, `k` and `l` samples of 1 (R152). -/
def initEvents (j k l : Nat) : List Event :=
  resetEvents ++ waitEvents j ++ cmdEvents 0x12 ++ waitEvents k ++ commandEvents 0x01 [0xC7, 0x00, 0x00] ++
    commandEvents 0x11 [0x03] ++ fullSelectEvents ++ commandEvents 0x3C [0x05] ++ commandEvents 0x18 [0x80] ++
    waitEvents l

/-- The events of a refresh with a flag, its wait taking `k` samples of 1 (R160, R161). -/
def displayEvents (flag : Byte) (k : Nat) : List Event :=
  commandEvents 0x22 [flag] ++ cmdEvents 0x20 ++ waitEvents k

/-- A number mod 256, as a byte (R10, R97). -/
def byteOf (n : Nat) : Byte := BitVec.ofNat 8 (n % 256)

/-- The events of a window in pixels, R97's fields written out (R213, R214). -/
def windowEvents (sx sy ex ey : Nat) : List Event :=
  commandEvents 0x44 [byteOf (sx / 8), byteOf (ex / 8)] ++
    commandEvents 0x45 [byteOf sy, byteOf (sy / 256), byteOf ey, byteOf (ey / 256)]

/-- The events of a counter in pixels, R97's fields written out (R215, R216). -/
def counterEvents (x y : Nat) : List Event :=
  commandEvents 0x4E [byteOf (x / 8)] ++ commandEvents 0x4F [byteOf y, byteOf (y / 256)]

/-- The commands of `full_select()` (R151). -/
def fullSelectCmds : List (Byte × List Byte) :=
  [(0x44, [0x00, 0x18]), (0x45, [0x00, 0x00, 0xC7, 0x00]), (0x4E, [0x00]), (0x4F, [0x00, 0x00])]

/-! ### What a run of port actions comes to -/

/-- The port action an event records; `none` for what cannot fail, or has its own event (R25, R241). -/
def Event.action? : Event → Option PortAction
  | .line l v => some (.drive l v)
  | .xfer bs => some (.xfer bs)
  | .delay _ | .busy _ | .fail _ => none

/-- The state after events, `n` draws taken, and the lines at given levels; nothing else changes. -/
def State.sent (s : State) (evs : List Event) (n : Nat) (ls : Lines) : State :=
  { s with trace := s.trace ++ evs, failIn := s.failIn.drop n, lines := ls }

/-- A transport error at the action after the events `evs`: its `Fail` event, the lines as R242 leaves them, the
error result, the controller undefined, and nothing else (R241, R242). -/
def State.failedAt (s : State) (evs : List Event) (a : PortAction) (n : Nat) : State :=
  { s.sent (evs ++ [.fail a]) n (linesAfter s.lines (evs ++ [.fail a])) with
    result := some .err, ctrlUndef := true }

/-- From `s` the instruction performs exactly the port actions of `evs`, every one of which may fail: where none
fails it ends with CS_N high, DC at `dc` and what completion writes; where action `k` is the first to fail it is
aborted there with a TransportError (R138, R241, R242). -/
def Performs (s : State) (i : Instr) (evs : List Event) (dc : Level) (complete : State → State) : Prop :=
  (s.DrawsOk evs.length →
    exec i s = .next (complete (s.sent evs evs.length { s.lines with csN := .high, dc := dc }))) ∧
  ∀ k a, (evs[k]?).bind Event.action? = some a → s.DrawsOk k → s.failIn[k]? = some true →
    exec i s = .next (s.failedAt (evs.take k) a (k + 1))

/-- The port action an event records that takes a draw: a delay takes none (R241, R255). -/
def Event.draw? : Event → Option PortAction
  | .line l v => some (.drive l v)
  | .xfer bs => some (.xfer bs)
  | .busy _ => some .sampleBusy
  | .delay _ | .fail _ => none

/-- The BUSY sample an event records (R25). -/
def Event.sample? : Event → Option Bool
  | .busy v => some v
  | .line _ _ | .xfer _ | .delay _ | .fail _ => none

/-- How many draws events take (R241). -/
def drawsIn (evs : List Event) : Nat := (evs.filter (fun e => e.draw?.isSome)).length

/-- The BUSY samples events record, in order. -/
def samplesIn (evs : List Event) : List Bool := evs.filterMap Event.sample?

/-- BUSY gives the samples that the events record: those in store, in order, and once they are used up as many
zeros as are taken, where the level after them is 0 (R40, R253). -/
abbrev State.Samples (s : State) (evs : List Event) : Prop :=
  samplesIn evs <+: s.busyIn ∨
    (s.busyRest = false ∧
      samplesIn evs = s.busyIn ++ List.replicate ((samplesIn evs).length - s.busyIn.length) false)

/-- The state after events, with the draws and samples they take gone and the lines at given levels; nothing else
changes. -/
def State.advanced (s : State) (evs : List Event) (ls : Lines) : State :=
  { s with trace := s.trace ++ evs, lines := ls, failIn := s.failIn.drop (drawsIn evs),
           busyIn := s.busyIn.drop (samplesIn evs).length }

/-- From `s` the instruction performs exactly the port actions of `evs`, waits among them. Where BUSY gives the
samples `evs` records and no action fails, it ends with the lines at `ls` and what completion writes. Where the
action of event `n` is the first to fail, a sample included, it is aborted there with a TransportError (R138, R241,
R242). Where event `n` is a sample, those in store are used up and BUSY reads 1, it takes that one sample and stays in
its wait (R254). -/
def PerformsWaits (s : State) (i : Instr) (evs : List Event) (ls : Lines) (complete : State → State) : Prop :=
  (s.Samples evs → s.DrawsOk (drawsIn evs) → exec i s = .next (complete (s.advanced evs ls))) ∧
  (∀ n a, (evs[n]?).bind Event.draw? = some a → s.Samples (evs.take n) → s.DrawsOk (drawsIn (evs.take n)) →
    s.failIn[drawsIn (evs.take n)]? = some true →
    exec i s = .next { s.advanced (evs.take n) (linesAfter s.lines (evs.take n ++ [.fail a])) with
      trace := s.trace ++ (evs.take n ++ [.fail a]), failIn := s.failIn.drop (drawsIn (evs.take n) + 1),
      result := some .err, ctrlUndef := true }) ∧
  ∀ n v, evs[n]? = some (.busy v) → samplesIn (evs.take n) = s.busyIn → s.busyRest = true →
    s.DrawsOk (drawsIn (evs.take n) + 1) →
    ∃ r, exec i s = .next { s.advanced (evs.take n) (linesAfter s.lines (evs.take n)) with
      trace := s.trace ++ (evs.take n ++ [.busy true]), failIn := s.failIn.drop (drawsIn (evs.take n) + 1),
      running := some r }

/-- The state with other inputs of BUSY and of failures, as the environment may give them later. -/
def State.withInputs (s : State) (busy : List Bool) (rest : Bool) (fails : List Bool) : State :=
  { s with busyIn := busy, busyRest := rest, failIn := fails }

/-- The states an operation in progress can come to, step by step, whatever BUSY and the failures do between the
steps; the state itself is the first. -/
inductive GoesOn : State → State → Prop
  | here (s : State) : GoesOn s s
  | step {s t u : State} (r : Running) (busy : List Bool) (rest : Bool) (fails : List Bool) (before : GoesOn s t)
      (hr : t.running = some r) (h : step (t.withInputs busy rest fails) = .next u) : GoesOn s u

/-- The bytes a buffer operand stands for, read one at a time (R67, R101). -/
def BufHolds (s : State) (buf : Buf) (bs : List Byte) : Prop :=
  match buf with
  | .inline b => b = bs
  | .plane p => (s.planeRegs p).valid = true ∧ bs.length = Config.planeBytes ∧
      ∀ i, i < Config.planeBytes → s.mem.read (fb p i) = bs[i]?

/-- Whether an address lies in a plane (R60). -/
abbrev inPlane (p : Plane) (a : Nat) : Prop := fb p 0 ≤ a ∧ a < fb p 0 + Config.planeBytes

/-- `pixel_on(p, x, y)` under the plane's own rotation; `none` outside bounds or where nothing is stored (R185). -/
def pixelAt (s : State) (p : Plane) (x y : Int) : Option Bool :=
  pixelOn s p (address x y Config.panelWidth Config.panelHeight (s.planeRegs p).rot)

/-! ### What the rules' tables say of each instruction -/

/-- The phase after an operation that completes with `Ok` (R150); a command or micro-operation on its own has
none to write. -/
def phaseAfter (i : Instr) (p : Phase) : Phase :=
  match i with
  | .init => .initialized
  | .updateBwFrame _ | .updateRedFrame _ | .updatePartialBwFrame _ _ _ _ _ | .clearBwFrame
  | .clearRedFrame => .frameStaged
  | .displayFrame | .displayPartialFrame => .activated
  | .setRamWindow _ _ _ _ | .setRamCounter _ _ => p
  | .fbNew _ _ | .fbSetRotation _ _ | .fbSetPixel _ _ _ _ | .fbClear _ _ | .fbOutsideBounds _ _ _ _ _
  | .fbRotate _ _ _ _ _ | .fbAddress _ _ _ _ _ | .fbBufferLength _ _ | .fbRead _ => p
  | .swReset | .driverControl | .dataEntryMode | .setRamXPos _ _ | .setRamYPos _ _ | .setRamXCounter _
  | .setRamYCounter _ | .borderWaveformControl | .tempControl | .writeBwData _ | .writeRedData _
  | .updateDisplayCtrl2 _ | .masterActivate => p
  | .muCmd _ | .muData _ | .muCmdData _ _ | .muRepeat _ _ | .muWaitIdle | .muReset => p

/-- The opcodes each host operation emits, in order (R223); `none` for what is no host operation. -/
def opcodesOf : Instr → Option (List Byte)
  | .init => some [0x12, 0x01, 0x11, 0x44, 0x45, 0x4E, 0x4F, 0x3C, 0x18]
  | .setRamWindow _ _ _ _ => some [0x44, 0x45]
  | .setRamCounter _ _ => some [0x4E, 0x4F]
  | .updateBwFrame _ => some [0x44, 0x45, 0x4E, 0x4F, 0x24]
  | .updateRedFrame _ => some [0x44, 0x45, 0x4E, 0x4F, 0x26]
  | .updatePartialBwFrame _ _ _ _ _ => some [0x44, 0x45, 0x4E, 0x4F, 0x24]
  | .clearBwFrame => some [0x44, 0x45, 0x4E, 0x4F, 0x24]
  | .clearRedFrame => some [0x44, 0x45, 0x4E, 0x4F, 0x26]
  | .displayFrame => some [0x22, 0x20]
  | .displayPartialFrame => some [0x22, 0x20]
  | .fbNew _ _ | .fbSetRotation _ _ | .fbSetPixel _ _ _ _ | .fbClear _ _ | .fbOutsideBounds _ _ _ _ _
  | .fbRotate _ _ _ _ _ | .fbAddress _ _ _ _ _ | .fbBufferLength _ _ | .fbRead _ => some []
  | .swReset | .driverControl | .dataEntryMode | .setRamXPos _ _ | .setRamYPos _ _ | .setRamXCounter _
  | .setRamYCounter _ | .borderWaveformControl | .tempControl | .writeBwData _ | .writeRedData _
  | .updateDisplayCtrl2 _ | .masterActivate => none
  | .muCmd _ | .muData _ | .muCmdData _ _ | .muRepeat _ _ | .muWaitIdle | .muReset => none

/-- A host operation's frame begins with this selector (R99, R102). -/
def HasSelector (i : Instr) (b : Byte) : Prop := ∃ ops, encode i = .frame (b :: ops)

/-- The instruction is refused before INIT has completed (R162). -/
def RefusedBeforeInit (i : Instr) : Prop :=
  ∀ s : State, s.Free → s.phase = .uninitialized → exec i s = .refused .uninitialized

/-- An operation ran to its end without an error: no fault, nothing left in progress, and no error result (R31). -/
abbrev State.Completed (t : State) : Prop := t.fault = none ∧ t.running = none ∧ t.result ≠ some .err

/-! ### Invariants -/

/-- The framebuffer space is in canonical form, a valid plane has all its bytes (R32, R33), and a plane that is not
valid has none (R39). -/
abbrev State.MemInv (s : State) : Prop :=
  s.mem.wf ∧ ∀ p, ((s.planeRegs p).valid = true → s.PlaneStored p) ∧
    ((s.planeRegs p).valid = false → ∀ i, i < Config.planeBytes → s.mem.read (fb p i) = none)

/-- The lines hold the levels the trace says (R26, R242). -/
abbrev State.LinesInv (s : State) : Prop :=
  s.lines = linesAfter { csN := .undef, dc := .undef, rstN := .undef } s.trace

/-- In a trace with no failure, DC is never driven inside a chip-select bracket, every transfer is inside one, and
no bracket is left open (R139). -/
abbrev State.BracketInv (s : State) : Prop := noFail s.trace = true → bracketState s.trace = some false

/-- A transfer has 1 to CHUNK_MAX bytes (R25); a delay is a reset delay (R255). -/
def Event.sized : Event → Bool
  | .xfer bs => decide (1 ≤ bs.length ∧ bs.length ≤ Config.chunkMax)
  | .fail (.xfer bs) => decide (1 ≤ bs.length ∧ bs.length ≤ Config.chunkMax)
  | .delay n => decide (n = Config.resetMs)
  | .line _ _ | .busy _ | .fail (.drive _ _) | .fail .sampleBusy => true

/-- Every event of the trace is of the size the rules give it. -/
abbrev State.SizeInv (s : State) : Prop := ∀ e ∈ s.trace, e.sized = true

/-- The operation in progress waits for BUSY, its micro-operations are ones the block runs, it does not end in
phase 0, and the block is not halted (R22, R150, R243, R254). -/
abbrev State.RunningInv (s : State) : Prop :=
  ∀ r, s.running = some r →
    s.fault = none ∧ r.rest.head? = some .waitIdle ∧ (∀ m ∈ r.rest, m.wf = true) ∧
      r.done ≠ .okPhase .uninitialized

/-- Every command byte of the stream is one of the thirteen opcodes (R98). -/
abbrev State.OpcodeInv (s : State) : Prop := ∀ q ∈ stream s.trace, q.1 = .low → isOpcode q.2 = true

/-- A controller known to be defined has been initialised (R30, R150). -/
abbrev State.DefinedInv (s : State) : Prop := s.ctrlUndef = false → s.phase ≠ .uninitialized

end Sys2Proof.Machine
end

