-- ==== Sys2Proof/Certificates/Slice0/Obligations.lean ====
section
/-! DEFINITION. The statements for the provers, in the order of OBLIGATIONS.json. Each docstring names the rule of
spec/ it formalises. -/

open Sys2Proof Sys2Proof.Machine

/-! ### The step, reset and decoding -/

/-- The step executes the host operation that the next frame decodes to, and takes the frame (R23, R99). A word of the
opcode table placed as the next frame is executed when it decodes.
Model's own: log entries 3 and 11. -/
def Obligations.StepRunsDecodedFrame : Prop :=
  (∀ (s : State) (f : Frame) (rest : List Frame) (i : Instr),
    s.Free → s.frames = f :: rest → decode f = .ok i → step s = exec i { s with frames := rest }) ∧
  ∀ (s : State) (nbits w : Nat) (i : Instr),
    s.Free → decodeTableWord nbits w = some i → step (s.withFetchWord nbits w) = exec i s

/-- A frame that does not decode is refused by name (R246), and with no frame the block waits unchanged (R270).
Model's own: log entry 3. -/
def Obligations.StepRefusesOrWaits : Prop :=
  (∀ (s : State) (f : Frame) (rest : List Frame), s.Free → s.frames = f :: rest →
    (decode f = .error .badFrameLength → step s = .refused .badFrameLength) ∧
    (decode f = .error .badSelector → step s = .refused .badSelector) ∧
    (decode f = .error .badOperand → step s = .refused .badOperand)) ∧
  ∀ s : State, s.Free → s.frames = [] → step s = .next s

/-- A block whose FAULT is set takes no further step, whatever the host issues (R29, R243). -/
def Obligations.HaltedBlockTakesNoStep : Prop :=
  ∀ (s : State) (f : FatalFault), s.fault = some f →
    step s = .fault (.halted f) ∧ ∀ i : Instr, exec i s = .fault (.halted f)

/-- The state after block reset, as R39 lists it. -/
def Obligations.ResetLeavesStatedValues : Prop :=
  State.reset.phase = .uninitialized ∧ State.reset.fault = none ∧ State.reset.ctrlUndef = true ∧
    State.reset.result = none ∧
    (∀ p : Plane, (∀ i, i < 5000 → State.reset.mem.read (fb p i) = none) ∧
      (State.reset.planeRegs p).valid = false ∧ (State.reset.planeRegs p).rot = .r0) ∧
    invOf .bw = true ∧ invOf .red = false ∧
    State.reset.lines = { csN := .undef, dc := .undef, rstN := .undef } ∧ State.reset.trace = []

/-- Selectors 0x00, 0x0B to 0x0F and 0x19 to 0xFF are refused, and no others are (R103). That the refusal is named
BAD_SELECTOR whatever the frame's length is the model's choice, which R247 allows (R246).
Model's own: log entry 9. -/
def Obligations.UnassignedSelectorsRefused : Prop :=
  ∀ (sel : Byte) (ops : List Byte),
    (decode (sel :: ops) = .error .badSelector ↔
      sel.toNat = 0x00 ∨ (0x0B ≤ sel.toNat ∧ sel.toNat ≤ 0x0F) ∨ 0x19 ≤ sel.toNat)

/-- A frame's length is told from its selector and length field: a frame of another length is refused for its length,
every frame that decodes has the length told, and so has one refused for an operand, since the length is checked first
(R99, R109, R247).
Model's own: log entry 9. -/
def Obligations.FrameLengthIsTold : Prop :=
  ∀ f : Frame,
    (∀ n, frameLength f = some n → f.length ≠ n → decode f = .error .badFrameLength) ∧
    (∀ i, decode f = .ok i → frameLength f = some f.length) ∧
    (decode f = .error .badOperand → frameLength f = some f.length)

/-- An operand outside its type is refused: a plane of 2 or more, a rotation of 4 or more, a bit of 2 or more, each in a
frame of its layout's length, and a buffer source of 3 or more, whatever follows it (R104). -/
def Obligations.IllegalOperandsRefused : Prop :=
  ∀ (b c : Byte) (ops more : List Byte),
    (2 ≤ b.toNat →
      decode [0x10, b, c] = .error .badOperand ∧ decode [0x11, b, c] = .error .badOperand ∧
      decode [0x13, b, c] = .error .badOperand ∧ decode [0x18, b] = .error .badOperand ∧
      (ops.length = 9 → decode (0x12 :: b :: ops) = .error .badOperand)) ∧
    (4 ≤ b.toNat →
      decode [0x11, c, b] = .error .badOperand ∧
      (ops.length = 12 → decode (0x14 :: (ops ++ [b])) = .error .badOperand ∧
        decode (0x15 :: (ops ++ [b])) = .error .badOperand ∧ decode (0x16 :: (ops ++ [b])) = .error .badOperand)) ∧
    (2 ≤ b.toNat →
      decode [0x10, c, b] = .error .badOperand ∧ decode [0x13, c, b] = .error .badOperand ∧
      (ops.length = 9 → decode (0x12 :: (ops ++ [b])) = .error .badOperand)) ∧
    (3 ≤ b.toNat →
      decode [0x04, b] = .error .badOperand ∧ decode [0x05, b] = .error .badOperand ∧
      (ops.length = 16 → decode (0x06 :: (ops ++ [b])) = .error .badOperand) ∧
      (∃ e, decode (0x04 :: b :: more) = .error e) ∧ (∃ e, decode (0x05 :: b :: more) = .error e) ∧
      (ops.length = 16 → ∃ e, decode (0x06 :: (ops ++ b :: more)) = .error e))

/-- Frames written out in spec/95_test_vectors.md T-EN, decoded and refused as listed there. -/
def Obligations.SpecFramesDecode : Prop :=
  decode [0x01] = .ok .init ∧
  decode [0x02, 0, 0, 0, 0, 0, 0, 0, 0, 0x0A, 0, 0, 0, 0x14, 0, 0, 0] = .ok (.setRamWindow 0 0 10 20) ∧
  decode [0x03, 0xC7, 0, 0, 0, 0xC7, 0, 0, 0] = .ok (.setRamCounter 199 199) ∧
  decode [0x04, 0x01] = .ok (.updateBwFrame (.plane .bw)) ∧
  decode [0x04, 0x00, 0x01, 0, 0, 0, 0xAA] = .ok (.updateBwFrame (.inline [0xAA])) ∧
  decode [0x12, 0x00, 0x03, 0, 0, 0, 0xFF, 0xFF, 0xFF, 0xFF, 0x01] = .ok (.fbSetPixel .bw 3 (-1) true) ∧
  decode [0x14, 0x0A, 0, 0, 0, 0, 0, 0, 0, 0x10, 0, 0x08, 0, 0x01] = .ok (.fbOutsideBounds 10 0 16 8 .r90) ∧
  decode [0x17, 0xC8, 0, 0xC8, 0] = .ok (.fbBufferLength 200 200) ∧
  decode [0x0B] = .error .badSelector ∧ decode [0x00] = .error .badSelector ∧
  decode [0x10, 0x02, 0x00] = .error .badOperand ∧ decode [0x11, 0x00, 0x04] = .error .badOperand ∧
  decode [0x13, 0x00, 0x02] = .error .badOperand ∧ decode [0x04, 0x03] = .error .badOperand ∧
  decode [0x01, 0x00] = .error .badFrameLength ∧ decode [0x03, 0xC7, 0, 0, 0] = .error .badFrameLength ∧
  decode [0x04, 0x00, 0x02, 0, 0, 0, 0xAA] = .error .badFrameLength

/-- Decoding the frame of a well-formed host operation gives it back, every operand at every value (R99 to R102). -/
def Obligations.DecodeReadsBackEveryFrame : Prop :=
  ∀ (i : Instr) (f : Frame), i.wf = true → encode i = .frame f → decode f = .ok i

/-- A frame that decodes is the one encoding of what it decodes to, which is a well-formed host operation (R90,
R109). -/
def Obligations.DecodedFrameIsTheOnlyEncoding : Prop :=
  ∀ (f : Frame) (i : Instr), decode f = .ok i → encode i = .frame f ∧ i.wf = true ∧ i.selector?.isSome = true

/-- A reader of the wire gets back each command the block can emit; its opcode is one of the thirteen and its payload
has the length of R93. -/
def Obligations.WireCommandReadsBack : Prop :=
  ∀ c : Command, decodeCommand c.opcode c.payload = .ok c ∧ isOpcode c.opcode = true ∧
    match c with
    | .swReset | .masterActivate => c.payload.length = 0
    | .driverControl => c.payload.length = 3
    | .setRamXPos _ _ | .setRamYCounter _ => c.payload.length = 2
    | .setRamYPos _ _ => c.payload.length = 4
    | .dataEntryMode | .setRamXCounter _ | .borderWaveformControl | .tempControl
    | .updateDisplayCtrl2 _ => c.payload.length = 1
    | .writeBwData d | .writeRedData d => c.payload = d

/-! ### Micro-operations -/

/-- Chunks are consecutive pieces of 4096 bytes, the last with the remainder (R133). -/
def Obligations.ChunksCoverInOrder : Prop :=
  ∀ s : List Byte, (chunks s).flatten = s ∧ (chunks s).length = (s.length + 4095) / 4096 ∧
    (∀ c ∈ chunks s, 1 ≤ c.length ∧ c.length ≤ 4096) ∧
    ∀ k, k + 1 < (chunks s).length → ((chunks s)[k]?).map List.length = some 4096

/-- MU_CMD: four events, DC 0 and CS_N 0 then 1; a TransportError at any of the four steps (R131, R138).
Model's own: log entries 2 and 7. -/
def Obligations.MuCmdPerforms : Prop :=
  ∀ (s : State) (op : Byte), s.Free → Performs s (.muCmd op) (cmdEvents op) .low id

/-- MU_DATA: one bracket round the chunks, 3 + ceil(n / 4096) events; a TransportError at any step (R132).
Model's own: log entries 2 and 7. -/
def Obligations.MuDataPerforms : Prop :=
  ∀ (s : State) (d : List Byte), s.Free →
    Performs s (.muData d) (dataEvents d) .high id ∧ (dataEvents d).length = 3 + (d.length + 4095) / 4096

/-- MU_CMD_DATA: MU_CMD, then MU_DATA, two transactions (R134).
Model's own: log entries 2 and 7. -/
def Obligations.MuCmdDataPerforms : Prop :=
  ∀ (s : State) (op : Byte) (d : List Byte), s.Free →
    Performs s (.muCmdData op d) (cmdEvents op ++ dataEvents d) .high id

/-- MU_REPEAT: one bracket, one 1-byte transfer a repetition, n + 3 events; the stream is n times the byte (R135).
Model's own: log entries 2 and 7. -/
def Obligations.MuRepeatPerforms : Prop :=
  ∀ (s : State) (v : Byte) (n : Nat), s.Free →
    Performs s (.muRepeat v n) (repeatEvents v n) .high id ∧ (repeatEvents v n).length = n + 3 ∧
      stream (repeatEvents v n) = List.replicate n (.high, v)

/-- MU_WAIT_IDLE: samples are taken until one reads 0; a sample may fail; while BUSY reads 1 the wait has not ended
(R136, R254). The four clauses are the ways the next samples and draws can stand.
Model's own: log entries 1, 2, 4 and 7. -/
def Obligations.MuWaitIdlePolls : Prop :=
  ∀ (s : State) (k : Nat) (bs : List Bool), s.Free →
    (s.busyIn = List.replicate k true ++ false :: bs → s.DrawsOk (k + 1) →
      exec .muWaitIdle s = .next { s with trace := s.trace ++ waitEvents k, busyIn := bs,
                                          failIn := s.failIn.drop (k + 1) }) ∧
    (s.busyIn = List.replicate k true → s.busyRest = false → s.DrawsOk (k + 1) →
      exec .muWaitIdle s = .next { s with trace := s.trace ++ waitEvents k, busyIn := [],
                                          failIn := s.failIn.drop (k + 1) }) ∧
    (s.busyIn = List.replicate k true ++ bs → s.DrawsOk k → s.failIn[k]? = some true →
      exec .muWaitIdle s = .next { s with
        trace := s.trace ++ (List.replicate k (.busy true) ++ [.fail .sampleBusy]), busyIn := bs,
        failIn := s.failIn.drop (k + 1), result := some .err, ctrlUndef := true }) ∧
    (s.busyIn = List.replicate k true → s.busyRest = true → s.DrawsOk (k + 1) →
      exec .muWaitIdle s = .next { s with
        trace := s.trace ++ List.replicate (k + 1) (.busy true), busyIn := [],
        failIn := s.failIn.drop (k + 1), running := some { rest := [.waitIdle], done := .quiet } })

/-- MU_RESET: RST_N low, 10 ms, high, 10 ms; CS_N and DC are not driven; either drive may fail, a delay cannot (R137,
R255).
Model's own: log entries 2 and 7. -/
def Obligations.MuResetPerforms : Prop :=
  ∀ s : State, s.Free →
    (s.DrawsOk 2 → exec .muReset s = .next (s.sent resetEvents 2 { s.lines with rstN := .high })) ∧
    (s.failIn[0]? = some true → exec .muReset s = .next (s.failedAt [] (.drive .rstN false) 1)) ∧
    (s.DrawsOk 1 → s.failIn[1]? = some true →
      exec .muReset s = .next (s.failedAt [.line .rstN false, .delay 10] (.drive .rstN true) 2))

/-! ### Controller commands -/

/-- The commands with one payload only: SW_RESET, DRIVER_CONTROL, DATA_ENTRY_MODE, BORDER_WAVEFORM_CONTROL,
TEMP_CONTROL and MASTER_ACTIVATE on the wire (R210, R211, R212, R217, R218, R222).
Model's own: log entries 2 and 7. -/
def Obligations.FixedCommandsEmit : Prop :=
  ∀ s : State, s.Free →
    Performs s .swReset (cmdEvents 0x12) .low id ∧
    Performs s .driverControl (commandEvents 0x01 [0xC7, 0x00, 0x00]) .high id ∧
    Performs s .dataEntryMode (commandEvents 0x11 [0x03]) .high id ∧
    Performs s .borderWaveformControl (commandEvents 0x3C [0x05]) .high id ∧
    Performs s .tempControl (commandEvents 0x18 [0x80]) .high id ∧
    Performs s .masterActivate (cmdEvents 0x20) .low id

/-- The commands with fields: SET_RAMXPOS, SET_RAMYPOS, SET_RAMX_COUNTER, SET_RAMY_COUNTER, WRITE_BW_DATA,
WRITE_RED_DATA and UPDATE_DISPLAY_CTRL2 on the wire; 16-bit fields go low byte first (R71, R213 to R216, R219 to
R221).
Model's own: log entries 2 and 7. -/
def Obligations.FieldCommandsEmit : Prop :=
  ∀ s : State, s.Free →
    (∀ xs xe : Byte, Performs s (.setRamXPos xs xe) (commandEvents 0x44 [xs, xe]) .high id) ∧
    (∀ ys ye : U16, Performs s (.setRamYPos ys ye)
      (commandEvents 0x45 [byteOf ys.toNat, byteOf (ys.toNat / 256), byteOf ye.toNat, byteOf (ye.toNat / 256)])
      .high id) ∧
    (∀ x : Byte, Performs s (.setRamXCounter x) (commandEvents 0x4E [x]) .high id) ∧
    (∀ y : U16, Performs s (.setRamYCounter y) (commandEvents 0x4F [byteOf y.toNat, byteOf (y.toNat / 256)]) .high id) ∧
    (∀ d : List Byte, Performs s (.writeBwData d) (commandEvents 0x24 d) .high id) ∧
    (∀ d : List Byte, Performs s (.writeRedData d) (commandEvents 0x26 d) .high id) ∧
    ∀ f : Byte, Performs s (.updateDisplayCtrl2 f) (commandEvents 0x22 [f]) .high id

/-! ### Sequencer operations -/

/-- INIT, in any phase: the events in R152's order, its three waits taking `j`, `k` and `l` samples of 1; where BUSY
gives those samples and no action fails, PHASE 1, CTRL_UNDEF 0, Ok; where an action fails, a sample included, a
TransportError there; where BUSY stays at 1, it stays in that wait. BUSY_EVENTUALLY_IDLE gives samples that end the
waits. Its commands are the nine of R152's example, in 75 events and one more for each sample of 1 (R152, R241, R242,
R253, R254, R271).
Model's own: log entries 1, 2 and 4. -/
def Obligations.InitProgramsTheController : Prop :=
  (∀ (s : State) (j k l : Nat), s.Free →
    PerformsWaits s .init (initEvents j k l) { csN := .high, dc := .high, rstN := .high }
      (fun t => { t with phase := .initialized, ctrlUndef := false, result := some .ok })) ∧
  (∀ s : State, s.BusyEventuallyIdle 3 → ∃ j k l, s.Samples (initEvents j k l)) ∧
  ∀ j k l : Nat, samplesIn (initEvents j k l) =
      List.replicate j true ++ [false] ++ (List.replicate k true ++ [false]) ++ (List.replicate l true ++ [false]) ∧
    (initEvents j k l).length = 75 + (j + k + l) ∧ drawsIn (initEvents j k l) = 73 + (j + k + l) ∧
    cmdsOf (initEvents j k l) =
      [(0x12, []), (0x01, [0xC7, 0x00, 0x00]), (0x11, [0x03])] ++ fullSelectCmds ++ [(0x3C, [0x05]), (0x18, [0x80])]

/-- SET_RAM_WINDOW: the X window as two bytes x >> 3, the Y window as two 16-bit values low byte first; a window whose
start is not below its end is fatal, X first; refused before INIT (R153).
Model's own: log entry 2. -/
def Obligations.SetRamWindowSendsOrFaults : Prop :=
  ∀ (s : State) (sx sy ex ey : U32), s.Booted →
    (sx.toNat < ex.toNat → sy.toNat < ey.toNat →
      Performs s (.setRamWindow sx sy ex ey)
        (windowEvents sx.toNat sy.toNat ex.toNat ey.toNat) .high (fun t => { t with result := some .ok })) ∧
    (ex.toNat ≤ sx.toNat →
      exec (.setRamWindow sx sy ex ey) s = .next { s with fault := some (.windowOrder .x sx.toNat ex.toNat) }) ∧
    (sx.toNat < ex.toNat → ey.toNat ≤ sy.toNat →
      exec (.setRamWindow sx sy ex ey) s = .next { s with fault := some (.windowOrder .y sy.toNat ey.toNat) }) ∧
    RefusedBeforeInit (.setRamWindow sx sy ex ey) ∧ HasSelector (.setRamWindow sx sy ex ey) 0x02

/-- SET_RAM_COUNTER: the X counter as one byte x >> 3, the Y counter as 16 bits low byte first; no value is checked;
refused before INIT (R154).
Model's own: log entry 2. -/
def Obligations.SetRamCounterSends : Prop :=
  ∀ (s : State) (x y : U32), s.Booted →
    Performs s (.setRamCounter x y) (counterEvents x.toNat y.toNat) .high (fun t => { t with result := some .ok }) ∧
    RefusedBeforeInit (.setRamCounter x y) ∧ HasSelector (.setRamCounter x y) 0x03

/-- UPDATE_BW_FRAME and UPDATE_RED_FRAME: full_select, then the write opcode with the buffer's bytes, of any length;
PHASE 2; refused before INIT, and for a plane that is not constructed (R155, R156, R67, R151). The plane's bytes are read
one at a time, from memory in canonical form.
Model's own: log entry 2. -/
def Obligations.UpdateFramesSendTheBuffer : Prop :=
  (∀ (s : State) (buf : Buf) (bs : List Byte), s.Booted → s.mem.wf → BufHolds s buf bs →
    Performs s (.updateBwFrame buf) (fullSelectEvents ++ commandEvents 0x24 bs) .high
      (fun t => { t with phase := .frameStaged, result := some .ok }) ∧
    Performs s (.updateRedFrame buf) (fullSelectEvents ++ commandEvents 0x26 bs) .high
      (fun t => { t with phase := .frameStaged, result := some .ok })) ∧
  (∀ (s : State) (p : Plane), s.Booted → (s.planeRegs p).valid = false →
    exec (.updateBwFrame (.plane p)) s = .refused (.noPlane p) ∧
      exec (.updateRedFrame (.plane p)) s = .refused (.noPlane p)) ∧
  ∀ buf : Buf, RefusedBeforeInit (.updateBwFrame buf) ∧ RefusedBeforeInit (.updateRedFrame buf) ∧
    HasSelector (.updateBwFrame buf) 0x04 ∧ HasSelector (.updateRedFrame buf) 0x05

/-- UPDATE_PARTIAL_BW_FRAME with a byte-aligned rectangle inside the panel and a buffer of its length: the window
(x, y, x + w, y + h), the counter (x, y), the bytes; PHASE 2 (R157).
Model's own: log entry 2. -/
def Obligations.PartialUpdateSendsTheRectangle : Prop :=
  ∀ (s : State) (x y w h : U32) (buf : Buf) (bs : List Byte), s.Booted → s.mem.wf → BufHolds s buf bs →
    0 < w.toNat → 0 < h.toNat → x.toNat + w.toNat ≤ 200 → y.toNat + h.toNat ≤ 200 → x.toNat % 8 = 0 →
    bs.length = (w.toNat + 7) / 8 * h.toNat →
    Performs s (.updatePartialBwFrame x y w h buf)
      (windowEvents x.toNat y.toNat (x.toNat + w.toNat) (y.toNat + h.toNat) ++ counterEvents x.toNat y.toNat ++
        commandEvents 0x24 bs)
      .high (fun t => { t with phase := .frameStaged, result := some .ok })

/-- UPDATE_PARTIAL_BW_FRAME where a check fails: the first that fails, in the order of R157 and R247, is recorded, and
nothing else changes (R157, R243, R244). -/
def Obligations.PartialUpdateFaultsInOrder : Prop :=
  ∀ (s : State) (x y w h : U32) (buf : Buf) (bs : List Byte) (f : FatalFault), s.Booted → s.mem.wf →
    BufHolds s buf bs →
    (if w.toNat = 0 then some (FatalFault.windowOrder .x x.toNat (x.toNat + w.toNat))
     else if h.toNat = 0 then some (FatalFault.windowOrder .y y.toNat (y.toNat + h.toNat))
     else if 200 < x.toNat + w.toNat ∨ 200 < y.toNat + h.toNat then
       some (FatalFault.partialBounds x.toNat y.toNat w.toNat h.toNat)
     else if x.toNat % 8 ≠ 0 then some (FatalFault.partialMisaligned x.toNat)
     else if bs.length ≠ (w.toNat + 7) / 8 * h.toNat then
       some (FatalFault.partialLength bs.length ((w.toNat + 7) / 8 * h.toNat))
     else none) = some f →
    exec (.updatePartialBwFrame x y w h buf) s = .next { s with fault := some f }

/-- CLEAR_BW_FRAME and CLEAR_RED_FRAME: full_select, the write opcode in its own transaction, then the white byte 5000
times, 5039 events; PHASE 2; refused before INIT (R158, R159).
Model's own: log entry 2. -/
def Obligations.ClearFramesFloodWhite : Prop :=
  (∀ s : State, s.Booted →
    Performs s .clearBwFrame (fullSelectEvents ++ cmdEvents 0x24 ++ repeatEvents 0xFF 5000) .high
      (fun t => { t with phase := .frameStaged, result := some .ok }) ∧
    Performs s .clearRedFrame (fullSelectEvents ++ cmdEvents 0x26 ++ repeatEvents 0x00 5000) .high
      (fun t => { t with phase := .frameStaged, result := some .ok })) ∧
  (∀ v op : Byte, (fullSelectEvents ++ cmdEvents op ++ repeatEvents v 5000).length = 5039) ∧
  RefusedBeforeInit .clearBwFrame ∧ RefusedBeforeInit .clearRedFrame ∧
  HasSelector .clearBwFrame 0x07 ∧ HasSelector .clearRedFrame 0x08

/-- DISPLAY_FRAME and DISPLAY_PARTIAL_FRAME: the refresh-mode flag, 0xF7 or the open parameter, then MASTER_ACTIVATE,
then the wait, of `k` samples of 1; where BUSY gives those samples and no action fails, PHASE 3, Ok; where an action
fails, a sample included, a TransportError there; where BUSY stays at 1, it stays in its wait. BUSY_EVENTUALLY_IDLE
gives samples that end the wait. Refused before INIT (R160, R161, R241, R242, R253, R254).
Model's own: log entries 1, 2, 4 and 6. -/
def Obligations.DisplayFramesActivate : Prop :=
  (∀ (s : State) (k : Nat), s.Booted →
    PerformsWaits s .displayFrame (displayEvents 0xF7 k) { s.lines with csN := .high, dc := .low }
      (fun t => { t with phase := .activated, result := some .ok }) ∧
    PerformsWaits s .displayPartialFrame (displayEvents Config.partialRefreshFlag k)
      { s.lines with csN := .high, dc := .low }
      (fun t => { t with phase := .activated, result := some .ok })) ∧
  (∀ s : State, s.BusyEventuallyIdle 1 → ∃ k, ∀ flag : Byte, s.Samples (displayEvents flag k)) ∧
  (∀ (flag : Byte) (k : Nat), samplesIn (displayEvents flag k) = List.replicate k true ++ [false] ∧
    (displayEvents flag k).length = 13 + k ∧ drawsIn (displayEvents flag k) = 13 + k ∧
    cmdsOf (displayEvents flag k) = [(0x22, [flag]), (0x20, [])]) ∧
  RefusedBeforeInit .displayFrame ∧ RefusedBeforeInit .displayPartialFrame ∧
  HasSelector .displayFrame 0x09 ∧ HasSelector .displayPartialFrame 0x0A

/-- In phase 0 every sequencer operation other than INIT is refused, and in no other case is anything refused as
uninitialised (R162). That a command or micro-operation on its own is not gated is the model's.
Model's own: log entry 7. -/
def Obligations.SequencerRefusedBeforeInit : Prop :=
  ∀ (i : Instr) (s : State), s.Free →
    (exec i s = .refused .uninitialized ↔ i.needsInit = true ∧ s.phase = .uninitialized)

/-- An operation on a plane that is not constructed, or with its bytes as operand, is refused by name; and nothing else
is refused for a plane (R33, R246). The phase check comes before it (R247). -/
def Obligations.UnconstructedPlaneRefused : Prop :=
  ∀ (i : Instr) (s : State) (p : Plane), s.Free →
    (exec i s = .refused (.noPlane p) ↔
      i.usesPlane = some p ∧ (s.planeRegs p).valid = false ∧
        ¬ (i.needsInit = true ∧ s.phase = .uninitialized))

/-! ### Plane operations and the address translator -/

/-- FB_NEW: every byte of the plane is the fill byte, its rotation 0, it is valid; the other plane and everything else
are as before (R186). -/
def Obligations.FbNewConstructsThePlane : Prop :=
  ∀ (s : State) (p : Plane) (on : Bool), s.Free → HasSelector (.fbNew p on) 0x10 ∧
    ∃ t, exec (.fbNew p on) s = .next t ∧
      t = { s with result := some .ok, mem := t.mem, bw := t.bw, red := t.red } ∧
      t.planeRegs p = { valid := true, rot := .r0 } ∧ (∀ q, q ≠ p → t.planeRegs q = s.planeRegs q) ∧
      ∀ a, t.mem.read a = if inPlane p a then some (fillByte p on) else s.mem.read a

/-- FB_SET_ROTATION: the plane's rotation is set, and everything else is as before; refused on a plane that is not
constructed (R188). -/
def Obligations.FbSetRotationSetsRot : Prop :=
  ∀ (s : State) (p : Plane) (r : Rot), s.Free →
    ((s.planeRegs p).valid = true →
      ∃ t, exec (.fbSetRotation p r) s = .next t ∧
        t = { s with result := some .ok, bw := t.bw, red := t.red } ∧
        t.planeRegs p = { valid := true, rot := r } ∧ ∀ q, q ≠ p → t.planeRegs q = s.planeRegs q) ∧
    ((s.planeRegs p).valid = false → exec (.fbSetRotation p r) s = .refused (.noPlane p)) ∧
    HasSelector (.fbSetRotation p r) 0x11

/-- FB_SET_PIXEL: inside bounds the bit of the pixel's byte becomes `on XOR INV[p]`, and every other bit, byte and
element is as before; outside bounds only RESULT is written; refused on a plane that is not constructed (R189, R185,
R245). -/
def Obligations.FbSetPixelWritesOneBit : Prop :=
  ∀ (s : State) (p : Plane) (x y : I32) (on : Bool), s.Free →
    ((s.planeRegs p).valid = true →
      (∀ i m b, address x.toInt y.toInt 200 200 (s.planeRegs p).rot = some (i, m) →
        s.mem.read (fb p i) = some b →
        ∃ t, exec (.fbSetPixel p x y on) s = .next t ∧ t = { s with result := some .ok, mem := t.mem } ∧
          t.mem.read (fb p i) = some (if on != invOf p then b ||| m else b &&& ~~~m) ∧
          ∀ a, a ≠ fb p i → t.mem.read a = s.mem.read a) ∧
      (outsideBounds x.toInt y.toInt 200 200 (s.planeRegs p).rot = true →
        exec (.fbSetPixel p x y on) s = .next { s with result := some .ok })) ∧
    ((s.planeRegs p).valid = false → exec (.fbSetPixel p x y on) s = .refused (.noPlane p)) ∧
    HasSelector (.fbSetPixel p x y on) 0x12

/-- FB_SET_PIXEL is an update of one point of the plane's picture: after it the pixel reads `on`, and every other pixel
of either plane reads as before, under the planes' rotations (R184, R185, R189). -/
def Obligations.SetPixelUpdatesThePicture : Prop :=
  ∀ (s t : State) (p q : Plane) (x y : I32) (x' y' : Int) (on : Bool),
    exec (.fbSetPixel p x y on) s = .next t →
    pixelAt t q x' y' =
      if q = p ∧ x' = x.toInt ∧ y' = y.toInt ∧ outsideBounds x' y' 200 200 (s.planeRegs p).rot = false then some on
      else pixelAt s q x' y'

/-- FB_CLEAR: every byte of the plane is the fill byte, its rotation and everything else are as before; refused on a
plane that is not constructed (R190). -/
def Obligations.FbClearFillsThePlane : Prop :=
  ∀ (s : State) (p : Plane) (on : Bool), s.Free →
    ((s.planeRegs p).valid = true →
      ∃ t, exec (.fbClear p on) s = .next t ∧ t = { s with result := some .ok, mem := t.mem } ∧
        ∀ a, t.mem.read a = if inPlane p a then some (fillByte p on) else s.mem.read a) ∧
    ((s.planeRegs p).valid = false → exec (.fbClear p on) s = .refused (.noPlane p)) ∧
    HasSelector (.fbClear p on) 0x13

/-- After FB_NEW or FB_CLEAR every pixel of the plane inside bounds has the colour asked for (R185, R187). -/
def Obligations.FillColoursEveryPixel : Prop :=
  ∀ (i : Instr) (s t : State) (p : Plane) (on : Bool) (x y : Int),
    i = .fbNew p on ∨ i = .fbClear p on → exec i s = .next t →
    outsideBounds x y 200 200 (t.planeRegs p).rot = false → pixelAt t p x y = some on

/-- FB_READ returns the plane's 5000 bytes in index order and changes nothing else; refused on a plane that is not
constructed (R191). The bytes are read one at a time, from memory in canonical form. -/
def Obligations.FbReadReturnsTheBytes : Prop :=
  ∀ (s : State) (p : Plane), s.Free →
    (∀ bs : List Byte, s.mem.wf → BufHolds s (.plane p) bs →
      bs.length = 5000 ∧ exec (.fbRead p) s = .next { s with result := some (.bytes bs) }) ∧
    ((s.planeRegs p).valid = false → exec (.fbRead p) s = .refused (.noPlane p)) ∧ HasSelector (.fbRead p) 0x18

/-- FB_OUTSIDE_BOUNDS, FB_ROTATE, FB_ADDRESS and FB_BUFFER_LENGTH return what the formulas of R180 to R183 give, write
RESULT alone, and FB_ADDRESS is refused outside bounds (R192 to R195). -/
def Obligations.PureFunctionsReturnTheFormulas : Prop :=
  ∀ (s : State) (x y : I32) (w h : U16), s.Free →
    (∀ r : Rot, ∃ b, exec (.fbOutsideBounds x y w h r) s = .next { s with result := some (.bool b) } ∧
      (b = true ↔
        match r with
        | .r0 | .r180 => x.toInt < 0 ∨ y.toInt < 0 ∨ x.toInt ≥ w.toNat ∨ y.toInt ≥ h.toNat
        | .r90 | .r270 => x.toInt < 0 ∨ y.toInt < 0 ∨ x.toInt ≥ h.toNat ∨ y.toInt ≥ w.toNat)) ∧
    exec (.fbRotate x y w h .r0) s = .next { s with result := some (.pair x.toInt y.toInt) } ∧
    exec (.fbRotate x y w h .r90) s = .next { s with result := some (.pair (w.toNat - 1 - y.toInt) x.toInt) } ∧
    exec (.fbRotate x y w h .r180) s =
      .next { s with result := some (.pair (w.toNat - 1 - x.toInt) (h.toNat - 1 - y.toInt)) } ∧
    exec (.fbRotate x y w h .r270) s = .next { s with result := some (.pair y.toInt (h.toNat - 1 - x.toInt)) } ∧
    (∀ r : Rot, outsideBounds x.toInt y.toInt w.toNat h.toNat r = false →
      ∀ x' y' : Nat, rotateCoordinates x.toInt y.toInt w.toNat h.toNat r = ((x' : Int), (y' : Int)) →
        exec (.fbAddress x y w h r) s = .next { s with
          result := some (.addr (x' / 8 + (w.toNat + 7) / 8 * y') (0x80#8 >>> (x' % 8))) }) ∧
    (∀ r : Rot, outsideBounds x.toInt y.toInt w.toNat h.toNat r = true →
      exec (.fbAddress x y w h r) s = .refused .outOfBounds) ∧
    exec (.fbBufferLength w h) s = .next { s with result := some (.len ((w.toNat + 7) / 8 * h.toNat)) } ∧
    (∀ r : Rot, HasSelector (.fbOutsideBounds x y w h r) 0x14 ∧ HasSelector (.fbRotate x y w h r) 0x15 ∧
      HasSelector (.fbAddress x y w h r) 0x16) ∧ HasSelector (.fbBufferLength w h) 0x17

/-- Inside bounds the rotated point is in the physical rectangle, the byte index is below the buffer length, the mask
has one bit, and distinct points have distinct addresses (R184). -/
def Obligations.AddressesAreInRangeAndDistinct : Prop :=
  ∀ (x y : Int) (w h : Nat) (r : Rot), outsideBounds x y w h r = false →
    (0 ≤ (rotateCoordinates x y w h r).1 ∧ (rotateCoordinates x y w h r).1 < w ∧
      0 ≤ (rotateCoordinates x y w h r).2 ∧ (rotateCoordinates x y w h r).2 < h) ∧
    (∃ i m, address x y w h r = some (i, m) ∧ i < bufferLength w h ∧
      m ∈ [0x80#8, 0x40#8, 0x20#8, 0x10#8, 0x08#8, 0x04#8, 0x02#8, 0x01#8]) ∧
    ∀ x₂ y₂ : Int, outsideBounds x₂ y₂ w h r = false → address x₂ y₂ w h r = address x y w h r → x₂ = x ∧ y₂ = y

/-- Bounds under a change of rotation: unchanged for a square buffer; for any buffer, those at 90° and 270° are those
at 0° with x and y swapped; and (10, 0) in 16 by 8 is inside at 0° and outside at 90° (R196). -/
def Obligations.BoundsUnderRotation : Prop :=
  (∀ (x y : Int) (n : Nat) (r r' : Rot), outsideBounds x y n n r = outsideBounds x y n n r') ∧
  (∀ (x y : Int) (w h : Nat), outsideBounds x y w h .r90 = outsideBounds y x w h .r0 ∧
    outsideBounds x y w h .r270 = outsideBounds y x w h .r0) ∧
  outsideBounds 10 0 16 8 .r0 = false ∧ outsideBounds 10 0 16 8 .r90 = true

/-- The fill bytes of the two planes and colours, each the byte whose eight pixels all have the colour (R187). -/
def Obligations.FillBytesFollowPolarity : Prop :=
  fillByte .bw false = 0xFF ∧ fillByte .bw true = 0x00 ∧ fillByte .red false = 0x00 ∧ fillByte .red true = 0xFF ∧
  ∀ (p : Plane) (on : Bool),
    (fillByte p on = if on != invOf p then 0xFF else 0x00) ∧
    ∀ m ∈ [0x80#8, 0x40#8, 0x20#8, 0x10#8, 0x08#8, 0x04#8, 0x02#8, 0x01#8],
      (((fillByte p on &&& m) != 0) != invOf p) = on

/-! ### What changes what -/

/-- The operations of the address translator touch no port, no phase and no other element: they write RESULT, plane
bytes and plane registers alone (R150, spec/42_addressing_engine.md). -/
def Obligations.FbOperationsTouchNoPort : Prop :=
  ∀ (i : Instr) (s t : State), i.isFb = true → exec i s = .next t →
    t = { s with result := t.result, mem := t.mem, bw := t.bw, red := t.red }

/-- Every other instruction leaves the framebuffer and the plane registers alone (R65, R242), and its ports do not
depend on them unless a plane is its buffer operand. -/
def Obligations.PortOperationsIgnoreThePlanes : Prop :=
  ∀ (i : Instr) (s t : State), i.isFb = false → exec i s = .next t →
    (t.mem = s.mem ∧ t.bw = s.bw ∧ t.red = s.red) ∧
    (i.usesPlane = none → ∀ (m : Memory) (b r : PlaneRegs),
      exec i { s with mem := m, bw := b, red := r } = .next { t with mem := m, bw := b, red := r })

/-- Who writes the planes: a byte changes only in the plane of an FB_NEW, FB_SET_PIXEL or FB_CLEAR; a rotation changes
only by FB_NEW or FB_SET_ROTATION; validity changes only by FB_NEW, to 1 (R33, R35, R65). -/
def Obligations.OnlyPlaneOperationsWritePlanes : Prop :=
  ∀ (i : Instr) (s t : State), exec i s = .next t →
    (∀ a, t.mem.read a ≠ s.mem.read a → ∃ p, inPlane p a ∧
      ((∃ on, i = .fbNew p on) ∨ (∃ x y on, i = .fbSetPixel p x y on) ∨ ∃ on, i = .fbClear p on)) ∧
    (∀ p, (t.planeRegs p).rot ≠ (s.planeRegs p).rot → (∃ on, i = .fbNew p on) ∨ ∃ r, i = .fbSetRotation p r) ∧
    ∀ p, (t.planeRegs p).valid ≠ (s.planeRegs p).valid →
      (∃ on, i = .fbNew p on) ∧ (t.planeRegs p).valid = true

/-- TRACE only grows, by every instruction and every step, and the lines change only as the new events say: a drive
sets its line, a failed drive makes it undef (R25, R26). -/
def Obligations.TraceOnlyGrows : Prop :=
  ∀ s t : State, (step s = .next t ∨ ∃ i, exec i s = .next t) →
    ∃ evs, t.trace = s.trace ++ evs ∧ t.lines = linesAfter s.lines evs

/-- CTRL_UNDEF is cleared only by an INIT that completes, and set only by a transport error (R30).
Model's own: log entry 4. -/
def Obligations.OnlyInitDefinesTheController : Prop :=
  (∀ (i : Instr) (s t : State), exec i s = .next t →
    (s.ctrlUndef = true → t.ctrlUndef = false →
      i = .init ∧ t.phase = .initialized ∧ t.result = some .ok ∧ t.running = none) ∧
    (s.ctrlUndef = false → t.ctrlUndef = true → t.result = some .err ∧ t.phase = s.phase)) ∧
  ∀ (s t : State) (r : Running), s.running = some r → step s = .next t →
    (s.ctrlUndef = true → t.ctrlUndef = false →
      r.done = .initDone ∧ t.phase = .initialized ∧ t.result = some .ok ∧ t.running = none) ∧
    (s.ctrlUndef = false → t.ctrlUndef = true → t.result = some .err ∧ t.phase = s.phase)

/-- PHASE changes only when an operation completes with Ok, to what R150's table says; a fault, an error or a wait that
has not ended leaves it. It is so too where the operation paused in its waits and went on step by step (R150, R22,
R254).
Model's own: log entries 4 and 7. -/
def Obligations.PhaseFollowsTheTable : Prop :=
  ∀ (i : Instr) (s t u : State), exec i s = .next t → GoesOn t u →
    (u.fault = none ∧ u.running = none ∧ u.result = some .ok → u.phase = phaseAfter i s.phase) ∧
    (¬ (u.fault = none ∧ u.running = none ∧ u.result = some .ok) → u.phase = s.phase)

/-- A transport error, in an instruction or in an operation gone on with: its Fail event is the last event and the only
failure, RESULT is the error, CTRL_UNDEF is 1, the operation is over, and the phase, the fault, the planes and the
host's frames are as before (R241, R242).
Model's own: log entry 4. -/
def Obligations.TransportErrorEffects : Prop :=
  ∀ (s t : State) (evs : List Event), (∃ i, exec i s = .next t) ∨ (∃ r, s.running = some r ∧ step s = .next t) →
    t.trace = s.trace ++ evs → noFail evs = false →
    (∃ pre a, evs = pre ++ [.fail a] ∧ noFail pre = true) ∧
    t.result = some .err ∧ Result.errorCode .err = some 1 ∧ t.ctrlUndef = true ∧ t.running = none ∧
    t.phase = s.phase ∧ t.fault = none ∧ t.mem = s.mem ∧ t.bw = s.bw ∧ t.red = s.red ∧ t.frames = s.frames ∧
    t.lines = linesAfter s.lines evs

/-- A fatal fault changes FAULT alone, and only SET_RAM_WINDOW and UPDATE_PARTIAL_BW_FRAME raise one (R243, R244). -/
def Obligations.FatalChangesFaultAlone : Prop :=
  ∀ (i : Instr) (s t : State), exec i s = .next t → t.fault ≠ none →
    ∃ f, t = { s with fault := some f } ∧
      ((∃ sx sy ex ey axis a b, i = .setRamWindow sx sy ex ey ∧ f = .windowOrder axis a b) ∨
        ∃ x y w h buf, i = .updatePartialBwFrame x y w h buf)

/-- While BUSY reads 1 a wait never ends: every step appends one Busy(1) and nothing else changes, with no timeout and
no error; and only INIT, the two display operations and MU_WAIT_IDLE can be left waiting (R254). Once a sample reads 0
the next step goes on with the micro-operations left after the wait, and with none left it writes what completion
writes; a sample that fails ends the operation. And a pause changes nothing: an operation that pauses and goes on with
new samples comes to what it comes to with all the samples in store at once (R22, R136, R241, R242).
Model's own: log entries 1, 2 and 4. -/
def Obligations.StuckBusyWaitsForever : Prop :=
  (∀ (n : Nat) (s : State) (r : Running) (ms : List MicroOp),
    s.fault = none → s.running = some r → r.rest = .waitIdle :: ms → s.busyIn = [] → s.busyRest = true →
    s.PortsWork →
    Host.Core.run Sys2Proof.core n s = .next { s with
      trace := s.trace ++ List.replicate n (.busy true), failIn := s.failIn.drop n }) ∧
  (∀ (i : Instr) (s t : State), i.waits = false → exec i s = .next t → t.running = none) ∧
  (∀ (s : State) (ms : List MicroOp) (c : Completion) (k : Nat) (bs : List Bool),
    s.fault = none → s.running = some { rest := .waitIdle :: ms, done := c } →
    (s.busyIn = List.replicate k true ++ false :: bs ∨
      (s.busyIn = List.replicate k true ∧ s.busyRest = false ∧ bs = [])) → s.DrawsOk (k + 1) →
    step s = step { s with
      trace := s.trace ++ waitEvents k, busyIn := bs, failIn := s.failIn.drop (k + 1),
      running := some { rest := ms, done := c } }) ∧
  (∀ (s : State) (c : Completion), s.fault = none → s.running = some { rest := [], done := c } →
    step s = .next (match c with
      | .quiet => { s with running := none }
      | .ok => { s with running := none, result := some .ok }
      | .okPhase p => { s with running := none, result := some .ok, phase := p }
      | .initDone => { s with running := none, result := some .ok, phase := .initialized, ctrlUndef := false })) ∧
  (∀ (s : State) (ms : List MicroOp) (c : Completion) (k : Nat) (bs : List Bool),
    s.fault = none → s.running = some { rest := .waitIdle :: ms, done := c } →
    s.busyIn = List.replicate k true ++ bs → s.DrawsOk k → s.failIn[k]? = some true →
    step s = .next { s with
      trace := s.trace ++ (List.replicate k (.busy true) ++ [.fail .sampleBusy]), busyIn := bs,
      failIn := s.failIn.drop (k + 1), running := none, result := some .err, ctrlUndef := true }) ∧
  (∀ (i : Instr) (s t : State) (r : Running) (bs : List Bool) (b : Bool),
    exec i s = .next t → t.running = some r →
    step (t.withInputs bs b t.failIn) = exec i (s.withInputs (s.busyIn ++ true :: bs) b s.failIn)) ∧
  ∀ (s t : State) (r₀ r : Running) (bs : List Bool) (b : Bool),
    s.running = some r₀ → step s = .next t → t.running = some r →
    step (t.withInputs bs b t.failIn) = step (s.withInputs (s.busyIn ++ true :: bs) b s.failIn)

/-- Each host operation that completes without an error emits the commands of R223's table, in order, whether it runs
through or pauses in its waits and goes on step by step (R223).
Model's own: log entry 4. -/
def Obligations.OperationsEmitTheirCommands : Prop :=
  ∀ (i : Instr) (ops : List Byte) (s t u : State), opcodesOf i = some ops → exec i s = .next t → GoesOn t u →
    u.Completed → ∃ evs, u.trace = s.trace ++ evs ∧ (cmdsOf evs).map Prod.fst = ops

/-- SELECT_FULL_WINDOW: its two host operations emit the commands of full_select (R107, R151).
Model's own: log entry 2. -/
def Obligations.SelectFullWindowIsFullSelect : Prop :=
  selectFullWindow = [.setRamWindow 0 0 199 199, .setRamCounter 0 0] ∧
  cmdsOf fullSelectEvents = fullSelectCmds ∧
  ∀ s : State, s.Booted → s.DrawsOk 32 →
    ∃ t u, exec (.setRamWindow 0 0 199 199) s = .next t ∧ exec (.setRamCounter 0 0) t = .next u ∧
      u.trace = s.trace ++ fullSelectEvents ∧ u.phase = s.phase

/-- With no failure the controller receives the stream S and nothing else may have arrived (R74, R75, R241).
Model's own: log entry 10. -/
def Obligations.WithoutFailureTheStreamArrives : Prop :=
  ∀ (es : List Event) (dc : Level) (out : List (Level × Byte)), noFail es = true →
    (mayReceive dc es out ↔ out = streamFrom dc es)

/-! ### Invariants of every step -/

/-- Every step keeps the framebuffer in canonical form, a valid plane's bytes all stored, and an unconstructed plane's
bytes without value (R32, R33, R60).
Model's own: log entry 5. -/
def Obligations.StepKeepsPlanesStored : Prop :=
  ∀ s t : State, s.MemInv → step s = .next t → t.MemInv

/-- Every step keeps the lines at the levels the trace says (R26, R242). -/
def Obligations.StepKeepsLinesTrue : Prop :=
  ∀ s t : State, s.LinesInv → step s = .next t → t.LinesInv

/-- Every step keeps the bracket discipline: with no failure in the trace, DC is never driven inside a chip-select
bracket, every transfer is inside one, and none is left open (R77, R130, R139). -/
def Obligations.StepKeepsBrackets : Prop :=
  ∀ s t : State, s.BracketInv → step s = .next t → t.BracketInv

/-- Every step keeps every transfer at 1 to 4096 bytes and every delay at 10 ms (R25, R133, R255). -/
def Obligations.StepKeepsTransfersSized : Prop :=
  ∀ s t : State, s.SizeInv → step s = .next t → t.SizeInv

/-- Every step keeps every command byte of the stream among the thirteen opcodes, and an operation in progress in a
wait (R69, R98).
Model's own: log entry 4. -/
def Obligations.StepKeepsOpcodesAssigned : Prop :=
  ∀ s t : State, s.RunningInv → s.OpcodeInv → step s = .next t → t.RunningInv ∧ t.OpcodeInv

/-- Every step keeps a controller known to be defined initialised: CTRL_UNDEF is 1 in phase 0 (R30, R39, R150).
Model's own: log entry 4. -/
def Obligations.StepKeepsPhaseZeroUndefined : Prop :=
  ∀ s t : State, s.RunningInv → s.DefinedInv → step s = .next t → t.RunningInv ∧ t.DefinedInv

/-- The invariants hold after block reset. -/
def Obligations.ResetMeetsTheInvariants : Prop :=
  State.reset.MemInv ∧ State.reset.LinesInv ∧ State.reset.BracketInv ∧ State.reset.SizeInv ∧
    State.reset.RunningInv ∧ State.reset.OpcodeInv ∧ State.reset.DefinedInv
end

