-- ==== Sys2Proof/Laws/Memory.lean ====
section
/-! SUPPORT. The framebuffer space: reads after writes, the canonical form, and whole planes. -/

namespace Sys2Proof.Machine

theorem Memory.read_none_of_lt {m : Memory} {a : Nat} (h : ∀ c ∈ m, a < c.1) : Memory.read m a = none := by
  induction m with
  | nil => rfl
  | cons c m ih =>
    have hc := h c (by simp)
    simp only [Memory.read]
    rw [if_neg (by omega)]
    exact ih fun d hd => h d (by simp [hd])

/-- A byte is listed exactly when its cell is in the memory, for memories in canonical form. -/
theorem Memory.read_eq_some_iff {m : Memory} (hm : m.Pairwise (fun c d => c.1 < d.1)) (a : Nat) (v : Byte) :
    Memory.read m a = some v ↔ (a, v) ∈ m := by
  induction m with
  | nil => simp [Memory.read]
  | cons c m ih =>
    obtain ⟨b, w⟩ := c
    rw [List.pairwise_cons] at hm
    simp only [Memory.read, List.mem_cons, Prod.mk.injEq]
    by_cases h : b = a
    · subst h
      constructor
      · intro hv
        left
        simpa [eq_comm] using hv
      · rintro (⟨-, rfl⟩ | hmem)
        · simp
        · exact absurd (hm.1 _ hmem) (by simp)
    · rw [if_neg h, ih hm.2]
      constructor
      · exact Or.inr
      · rintro (⟨rfl, -⟩ | hmem)
        · exact absurd rfl h
        · exact hmem

theorem Memory.read_isNone_iff {m : Memory} (a : Nat) : Memory.read m a = none ↔ ∀ c ∈ m, c.1 ≠ a := by
  induction m with
  | nil => simp [Memory.read]
  | cons c m ih =>
    obtain ⟨b, w⟩ := c
    simp only [Memory.read, List.mem_cons, forall_eq_or_imp]
    by_cases h : b = a
    · simp [h]
    · simp [h, ih]

@[simp] theorem Memory.read_write_same (m : Memory) (a : Nat) (v : Byte) :
    Memory.read (Memory.write m a v) a = some v := by
  induction m with
  | nil => simp [Memory.write, Memory.read]
  | cons c m ih =>
    obtain ⟨b, w⟩ := c
    simp only [Memory.write]
    split
    · simp [Memory.read]
    · split
      · simp [Memory.read]
      · simp only [Memory.read]
        rw [if_neg (by omega)]
        exact ih

theorem Memory.read_write_other (m : Memory) {a b : Nat} (v : Byte) (h : b ≠ a) :
    Memory.read (Memory.write m a v) b = Memory.read m b := by
  induction m with
  | nil => simp [Memory.write, Memory.read, Ne.symm h]
  | cons c m ih =>
    obtain ⟨d, w⟩ := c
    simp only [Memory.write]
    split
    · simp [Memory.read, Ne.symm h]
    · split
      · next hne heq =>
        subst heq
        simp [Memory.read, Ne.symm h]
      · simp only [Memory.read]
        split
        · rfl
        · exact ih

theorem Memory.mem_write {m : Memory} {a : Nat} {v : Byte} {c : Host.Cell} (h : c ∈ Memory.write m a v) :
    c = (a, v) ∨ c ∈ m := by
  induction m with
  | nil => simpa [Memory.write] using h
  | cons d m ih =>
    obtain ⟨b, w⟩ := d
    simp only [Memory.write] at h
    split at h
    · simpa using h
    · split at h
      · rcases List.mem_cons.mp h with rfl | h'
        · exact .inl rfl
        · exact .inr (by simp [h'])
      · rcases List.mem_cons.mp h with rfl | h'
        · exact .inr (by simp)
        · rcases ih h' with rfl | h''
          · exact .inl rfl
          · exact .inr (by simp [h''])

theorem Memory.write_sorted {m : Memory} (hm : m.Pairwise (fun c d => c.1 < d.1)) (a : Nat) (v : Byte) :
    (Memory.write m a v).Pairwise (fun c d => c.1 < d.1) := by
  induction m with
  | nil => simp [Memory.write]
  | cons d m ih =>
    obtain ⟨b, w⟩ := d
    rw [List.pairwise_cons] at hm
    simp only [Memory.write]
    split
    · next h =>
      refine List.pairwise_cons.mpr ⟨fun c hc => ?_, List.pairwise_cons.mpr hm⟩
      rcases List.mem_cons.mp hc with rfl | hc
      · exact h
      · exact Nat.lt_trans h (hm.1 c hc)
    · split
      · next h =>
        subst h
        exact List.pairwise_cons.mpr hm
      · next h1 h2 =>
        refine List.pairwise_cons.mpr ⟨fun c hc => ?_, ih hm.2⟩
        rcases Memory.mem_write hc with rfl | hc
        · show b < a
          omega
        · exact hm.1 c hc

/-- A write inside the framebuffer space keeps the canonical form. -/
theorem Memory.write_wf {m : Memory} (hm : Memory.wf m) {a : Nat} (v : Byte) (ha : a < Config.spaceBytes) :
    Memory.wf (Memory.write m a v) := by
  refine ⟨Memory.write_sorted hm.1 a v, fun c hc => ?_⟩
  rcases Memory.mem_write hc with rfl | hc
  · exact ha
  · exact hm.2 c hc

/-- A byte of a filled range is the fill byte, and every other byte is as it was. -/
theorem Memory.read_fill (m : Memory) (a n : Nat) (v : Byte) (b : Nat) :
    Memory.read (Memory.fill m a n v) b = if a ≤ b ∧ b < a + n then some v else Memory.read m b := by
  have happ : ∀ (m₁ m₂ : Memory) (b : Nat),
      Memory.read (m₁ ++ m₂) b = (Memory.read m₁ b).or (Memory.read m₂ b) := by
    intro m₁ m₂ b
    induction m₁ with
    | nil => simp [Memory.read]
    | cons c m₁ ih =>
      obtain ⟨d, w⟩ := c
      simp only [List.cons_append, Memory.read]
      split <;> simp [ih]
  have hfil : ∀ (q : Nat → Bool) (m : Memory) (b : Nat),
      Memory.read (m.filter (fun c => q c.1)) b = if q b then Memory.read m b else none := by
    intro q m b
    induction m with
    | nil => simp [Memory.read]
    | cons c m ih =>
      obtain ⟨d, w⟩ := c
      by_cases hq : q d
      · rw [List.filter_cons_of_pos (by exact hq)]
        simp only [Memory.read, ih]
        by_cases hd : d = b
        · subst hd
          simp [hq]
        · simp [hd]
      · rw [List.filter_cons_of_neg (by exact hq), ih]
        simp only [Memory.read]
        by_cases hd : d = b
        · subst hd
          simp [hq]
        · simp [hd]
  have hrun : ∀ (k a : Nat), Memory.read ((List.range' a k).map (fun b => (b, v))) b =
      if a ≤ b ∧ b < a + k then some v else none := by
    intro k
    induction k with
    | zero =>
      intro a
      rw [if_neg (by omega)]
      rfl
    | succ k ih =>
      intro a
      rw [List.range'_succ, List.map_cons]
      simp only [Memory.read]
      by_cases hab : a = b
      · rw [if_pos hab, if_pos (by omega)]
      · rw [if_neg hab, ih]
        by_cases hr : a + 1 ≤ b ∧ b < a + 1 + k
        · rw [if_pos hr, if_pos (by omega)]
        · rw [if_neg hr, if_neg (by omega)]
  unfold Memory.fill
  rw [happ, happ, hrun, hfil (fun x => decide (x < a)), hfil (fun x => decide (a + n ≤ x))]
  by_cases h1 : b < a
  · rw [if_neg (by omega : ¬(a ≤ b ∧ b < a + n))]
    have h2 : ¬ a + n ≤ b := by omega
    simp [h1, h2]
  · by_cases h2 : a + n ≤ b
    · rw [if_neg (by omega : ¬(a ≤ b ∧ b < a + n))]
      simp [h1, h2]
    · have h3 : a ≤ b ∧ b < a + n := by omega
      simp [h1, h3]

/-- A fill inside the framebuffer space keeps the canonical form. -/
theorem Memory.fill_wf {m : Memory} (hm : Memory.wf m) {a n : Nat} (v : Byte) (h : a + n ≤ Config.spaceBytes) :
    Memory.wf (Memory.fill m a n v) := by
  constructor
  · unfold Memory.fill
    rw [List.pairwise_append, List.pairwise_append]
    refine ⟨hm.1.filter _, ⟨?_, hm.1.filter _, ?_⟩, ?_⟩
    · rw [List.pairwise_map]
      exact List.pairwise_lt_range'
    · intro c hc d hd
      simp only [List.mem_map, List.mem_range'_1, List.mem_filter, decide_eq_true_eq] at hc hd
      obtain ⟨x, hx, rfl⟩ := hc
      show x < d.1
      omega
    · intro c hc d hd
      simp only [List.mem_append, List.mem_map, List.mem_range'_1, List.mem_filter, decide_eq_true_eq] at hc hd
      rcases hd with ⟨x, hx, rfl⟩ | hd
      · show c.1 < x
        omega
      · omega
  · intro c hc
    unfold Memory.fill at hc
    simp only [List.mem_append, List.mem_map, List.mem_range'_1, List.mem_filter] at hc
    rcases hc with hc | ⟨x, hx, rfl⟩ | hc
    · exact hm.2 c hc.1
    · show x < Config.spaceBytes
      omega
    · exact hm.2 c hc.1

/-- Reading a range byte by byte: what the one walk of `readRange` says on a memory in canonical form. -/
theorem Memory.readRange_spec {m : Memory} (hm : m.Pairwise (fun c d => c.1 < d.1)) (a n : Nat) (bs : List Byte) :
    Memory.readRange m a n = some bs ↔
      bs.length = n ∧ ∀ i, i < n → Memory.read m (a + i) = bs[i]? := by
  induction m generalizing a n bs with
  | nil =>
    cases n with
    | zero => cases bs <;> simp [Memory.readRange]
    | succ n =>
      simp only [Memory.readRange, Memory.read]
      constructor
      · simp
      · rintro ⟨hl, h⟩
        have h0 := h 0 (by omega)
        rw [eq_comm, List.getElem?_eq_none_iff] at h0
        omega
  | cons c m ih =>
    obtain ⟨b, v⟩ := c
    rw [List.pairwise_cons] at hm
    cases n with
    | zero => cases bs <;> simp [Memory.readRange]
    | succ n =>
      simp only [Memory.readRange]
      by_cases h1 : b < a
      · rw [if_pos h1, ih hm.2]
        refine and_congr_right fun _ => forall_congr' fun i => imp_congr_right fun _ => ?_
        simp only [Memory.read]
        rw [if_neg (by omega)]
      · rw [if_neg h1]
        by_cases h2 : b = a
        · subst h2
          rw [if_pos rfl]
          cases bs with
          | nil => simp
          | cons w ws =>
            simp only [Option.map_eq_some_iff, List.cons.injEq, List.length_cons, Nat.add_right_cancel_iff]
            constructor
            · rintro ⟨us, hus, rfl, rfl⟩
              obtain ⟨hl, hr⟩ := (ih hm.2 _ _ _).mp hus
              refine ⟨hl, fun i hi => ?_⟩
              cases i with
              | zero => simp [Memory.read]
              | succ i =>
                have := hr i (by omega)
                simp only [Memory.read]
                rw [if_neg (by omega), show b + (i + 1) = b + 1 + i by omega, this]
                simp
            · rintro ⟨hl, hr⟩
              have h0 := hr 0 (by omega)
              simp [Memory.read] at h0
              refine ⟨ws, (ih hm.2 _ _ _).mpr ⟨hl, fun i hi => ?_⟩, h0, rfl⟩
              have := hr (i + 1) (by omega)
              simp only [Memory.read] at this
              rw [if_neg (by omega), show b + (i + 1) = b + 1 + i by omega] at this
              simpa using this
        · rw [if_neg h2]
          constructor
          · simp
          · rintro ⟨hl, hr⟩
            have h0 := hr 0 (by omega)
            rw [Memory.read_none_of_lt (m := (b, v) :: m)] at h0
            · rw [eq_comm, List.getElem?_eq_none_iff] at h0
              omega
            · intro c hc
              rcases List.mem_cons.mp hc with rfl | hc
              · show a + 0 < b
                omega
              · have := hm.1 c hc
                simp only at this
                omega

/-- A range all of whose bytes hold values reads as a list. -/
theorem Memory.readRange_isSome {m : Memory} (hm : m.Pairwise (fun c d => c.1 < d.1)) {a n : Nat}
    (h : ∀ i, i < n → (Memory.read m (a + i)).isSome = true) : ∃ bs, Memory.readRange m a n = some bs := by
  refine ⟨(List.range n).map (fun i => (Memory.read m (a + i)).getD 0), ?_⟩
  rw [Memory.readRange_spec hm]
  refine ⟨by simp, fun i hi => ?_⟩
  obtain ⟨v, hv⟩ := Option.isSome_iff_exists.mp (h i hi)
  simp [hi, hv]

/-- A filled range reads as copies of the fill byte. -/
theorem Memory.readRange_fill {m : Memory} (hm : Memory.wf m) {a n : Nat} (v : Byte) (h : a + n ≤ Config.spaceBytes) :
    Memory.readRange (Memory.fill m a n v) a n = some (List.replicate n v) := by
  rw [Memory.readRange_spec (Memory.fill_wf hm v h).1]
  refine ⟨by simp, fun i hi => ?_⟩
  rw [Memory.read_fill, if_pos (by omega)]
  simp [hi]

theorem fb_zero_add (p : Plane) (i : Nat) : fb p 0 + i = fb p i := by simp [fb]

theorem fb_lt {p : Plane} {i : Nat} (h : i < Config.planeBytes) : fb p i < Config.spaceBytes := by
  cases p <;> simp [fb, planeIndex] at * <;> omega

theorem fb_zero_le (p : Plane) : fb p 0 + Config.planeBytes ≤ Config.spaceBytes := by
  cases p <;> simp [fb, planeIndex]

/-- Bytes of different planes have different addresses (R60). -/
theorem fb_inj {p q : Plane} {i j : Nat} (hi : i < Config.planeBytes) (hj : j < Config.planeBytes)
    (h : fb p i = fb q j) : p = q ∧ i = j := by
  cases p <;> cases q <;> simp [fb, planeIndex] at * <;> omega

/-- `MemRead` of an address in the space (R60). -/
theorem State.memRead_ok {s : State} {a : Nat} {b : Byte} (ha : a < Config.spaceBytes)
    (h : s.mem.read a = some b) : s.memRead a = .ok b := by
  unfold State.memRead
  rw [if_pos ha, h]

/-- `MemWrite` of an address in the space (R60). -/
theorem State.memWrite_ok (s : State) {a : Nat} (v : Byte) (ha : a < Config.spaceBytes) :
    s.memWrite a v = .ok { s with mem := s.mem.write a v } := by
  unfold State.memWrite
  rw [if_pos ha]

/-- A read of a byte depends on the memory alone. -/
theorem State.memRead_congr {s t : State} (h : t.mem = s.mem) (a : Nat) : t.memRead a = s.memRead a := by
  unfold State.memRead
  rw [h]

theorem reset_mem_wf : Memory.wf State.reset.mem := by simp [Memory.wf, State.reset]

end Sys2Proof.Machine
end

