-- ==== Sys2Proof/Laws/State.lean ====
section
/-! SUPPORT. Each field after each update of the state, so that no later proof unfolds a record update. -/

namespace Sys2Proof.Machine

@[simp] theorem State.setResult_phase (s : State) (r : Result) : (s.setResult r).phase = s.phase := rfl
@[simp] theorem State.setResult_fault (s : State) (r : Result) : (s.setResult r).fault = s.fault := rfl
@[simp] theorem State.setResult_ctrlUndef (s : State) (r : Result) : (s.setResult r).ctrlUndef = s.ctrlUndef := rfl
@[simp] theorem State.setResult_result (s : State) (r : Result) : (s.setResult r).result = some r := rfl
@[simp] theorem State.setResult_mem (s : State) (r : Result) : (s.setResult r).mem = s.mem := rfl
@[simp] theorem State.setResult_bw (s : State) (r : Result) : (s.setResult r).bw = s.bw := rfl
@[simp] theorem State.setResult_red (s : State) (r : Result) : (s.setResult r).red = s.red := rfl
@[simp] theorem State.setResult_lines (s : State) (r : Result) : (s.setResult r).lines = s.lines := rfl
@[simp] theorem State.setResult_trace (s : State) (r : Result) : (s.setResult r).trace = s.trace := rfl
@[simp] theorem State.setResult_running (s : State) (r : Result) : (s.setResult r).running = s.running := rfl
@[simp] theorem State.setResult_frames (s : State) (r : Result) : (s.setResult r).frames = s.frames := rfl
@[simp] theorem State.setResult_busyIn (s : State) (r : Result) : (s.setResult r).busyIn = s.busyIn := rfl
@[simp] theorem State.setResult_busyRest (s : State) (r : Result) : (s.setResult r).busyRest = s.busyRest := rfl
@[simp] theorem State.setResult_failIn (s : State) (r : Result) : (s.setResult r).failIn = s.failIn := rfl

@[simp] theorem State.raiseTransportError_phase (s : State) : (s.raiseTransportError).phase = s.phase := rfl
@[simp] theorem State.raiseTransportError_fault (s : State) : (s.raiseTransportError).fault = s.fault := rfl
@[simp] theorem State.raiseTransportError_ctrlUndef (s : State) : (s.raiseTransportError).ctrlUndef = true := rfl
@[simp] theorem State.raiseTransportError_result (s : State) : (s.raiseTransportError).result = some .err := rfl
@[simp] theorem State.raiseTransportError_mem (s : State) : (s.raiseTransportError).mem = s.mem := rfl
@[simp] theorem State.raiseTransportError_bw (s : State) : (s.raiseTransportError).bw = s.bw := rfl
@[simp] theorem State.raiseTransportError_red (s : State) : (s.raiseTransportError).red = s.red := rfl
@[simp] theorem State.raiseTransportError_lines (s : State) : (s.raiseTransportError).lines = s.lines := rfl
@[simp] theorem State.raiseTransportError_trace (s : State) : (s.raiseTransportError).trace = s.trace := rfl
@[simp] theorem State.raiseTransportError_running (s : State) : (s.raiseTransportError).running = s.running := rfl
@[simp] theorem State.raiseTransportError_frames (s : State) : (s.raiseTransportError).frames = s.frames := rfl
@[simp] theorem State.raiseTransportError_busyIn (s : State) : (s.raiseTransportError).busyIn = s.busyIn := rfl
@[simp] theorem State.raiseTransportError_busyRest (s : State) : (s.raiseTransportError).busyRest = s.busyRest := rfl
@[simp] theorem State.raiseTransportError_failIn (s : State) : (s.raiseTransportError).failIn = s.failIn := rfl

@[simp] theorem State.raiseFatal_phase (s : State) (f : FatalFault) : (s.raiseFatal f).phase = s.phase := rfl
@[simp] theorem State.raiseFatal_fault (s : State) (f : FatalFault) : (s.raiseFatal f).fault = some f := rfl
@[simp] theorem State.raiseFatal_ctrlUndef (s : State) (f : FatalFault) : (s.raiseFatal f).ctrlUndef = s.ctrlUndef := rfl
@[simp] theorem State.raiseFatal_result (s : State) (f : FatalFault) : (s.raiseFatal f).result = s.result := rfl
@[simp] theorem State.raiseFatal_mem (s : State) (f : FatalFault) : (s.raiseFatal f).mem = s.mem := rfl
@[simp] theorem State.raiseFatal_bw (s : State) (f : FatalFault) : (s.raiseFatal f).bw = s.bw := rfl
@[simp] theorem State.raiseFatal_red (s : State) (f : FatalFault) : (s.raiseFatal f).red = s.red := rfl
@[simp] theorem State.raiseFatal_lines (s : State) (f : FatalFault) : (s.raiseFatal f).lines = s.lines := rfl
@[simp] theorem State.raiseFatal_trace (s : State) (f : FatalFault) : (s.raiseFatal f).trace = s.trace := rfl
@[simp] theorem State.raiseFatal_running (s : State) (f : FatalFault) : (s.raiseFatal f).running = s.running := rfl
@[simp] theorem State.raiseFatal_frames (s : State) (f : FatalFault) : (s.raiseFatal f).frames = s.frames := rfl
@[simp] theorem State.raiseFatal_busyIn (s : State) (f : FatalFault) : (s.raiseFatal f).busyIn = s.busyIn := rfl
@[simp] theorem State.raiseFatal_busyRest (s : State) (f : FatalFault) : (s.raiseFatal f).busyRest = s.busyRest := rfl
@[simp] theorem State.raiseFatal_failIn (s : State) (f : FatalFault) : (s.raiseFatal f).failIn = s.failIn := rfl

@[simp] theorem State.afterPorts_phase (s : State) (r : PortRun) : (s.afterPorts r).phase = s.phase := rfl
@[simp] theorem State.afterPorts_fault (s : State) (r : PortRun) : (s.afterPorts r).fault = s.fault := rfl
@[simp] theorem State.afterPorts_ctrlUndef (s : State) (r : PortRun) : (s.afterPorts r).ctrlUndef = s.ctrlUndef := rfl
@[simp] theorem State.afterPorts_result (s : State) (r : PortRun) : (s.afterPorts r).result = s.result := rfl
@[simp] theorem State.afterPorts_mem (s : State) (r : PortRun) : (s.afterPorts r).mem = s.mem := rfl
@[simp] theorem State.afterPorts_bw (s : State) (r : PortRun) : (s.afterPorts r).bw = s.bw := rfl
@[simp] theorem State.afterPorts_red (s : State) (r : PortRun) : (s.afterPorts r).red = s.red := rfl
@[simp] theorem State.afterPorts_lines (s : State) (r : PortRun) : (s.afterPorts r).lines = r.lines := rfl
@[simp] theorem State.afterPorts_trace (s : State) (r : PortRun) : (s.afterPorts r).trace = s.trace ++ r.events := rfl
@[simp] theorem State.afterPorts_running (s : State) (r : PortRun) : (s.afterPorts r).running = s.running := rfl
@[simp] theorem State.afterPorts_frames (s : State) (r : PortRun) : (s.afterPorts r).frames = s.frames := rfl
@[simp] theorem State.afterPorts_busyIn (s : State) (r : PortRun) : (s.afterPorts r).busyIn = s.busyIn := rfl
@[simp] theorem State.afterPorts_busyRest (s : State) (r : PortRun) : (s.afterPorts r).busyRest = s.busyRest := rfl
@[simp] theorem State.afterPorts_failIn (s : State) (r : PortRun) : (s.afterPorts r).failIn = r.draws := rfl

@[simp] theorem State.afterWait_phase (s : State) (r : WaitRun) : (s.afterWait r).phase = s.phase := rfl
@[simp] theorem State.afterWait_fault (s : State) (r : WaitRun) : (s.afterWait r).fault = s.fault := rfl
@[simp] theorem State.afterWait_ctrlUndef (s : State) (r : WaitRun) : (s.afterWait r).ctrlUndef = s.ctrlUndef := rfl
@[simp] theorem State.afterWait_result (s : State) (r : WaitRun) : (s.afterWait r).result = s.result := rfl
@[simp] theorem State.afterWait_mem (s : State) (r : WaitRun) : (s.afterWait r).mem = s.mem := rfl
@[simp] theorem State.afterWait_bw (s : State) (r : WaitRun) : (s.afterWait r).bw = s.bw := rfl
@[simp] theorem State.afterWait_red (s : State) (r : WaitRun) : (s.afterWait r).red = s.red := rfl
@[simp] theorem State.afterWait_lines (s : State) (r : WaitRun) : (s.afterWait r).lines = s.lines := rfl
@[simp] theorem State.afterWait_trace (s : State) (r : WaitRun) : (s.afterWait r).trace = s.trace ++ r.events := rfl
@[simp] theorem State.afterWait_running (s : State) (r : WaitRun) : (s.afterWait r).running = s.running := rfl
@[simp] theorem State.afterWait_frames (s : State) (r : WaitRun) : (s.afterWait r).frames = s.frames := rfl
@[simp] theorem State.afterWait_busyIn (s : State) (r : WaitRun) : (s.afterWait r).busyIn = r.busy := rfl
@[simp] theorem State.afterWait_busyRest (s : State) (r : WaitRun) : (s.afterWait r).busyRest = s.busyRest := rfl
@[simp] theorem State.afterWait_failIn (s : State) (r : WaitRun) : (s.afterWait r).failIn = r.draws := rfl

@[simp] theorem State.fillPlane_phase (s : State) (p : Plane) (v : Byte) : (s.fillPlane p v).phase = s.phase := rfl
@[simp] theorem State.fillPlane_fault (s : State) (p : Plane) (v : Byte) : (s.fillPlane p v).fault = s.fault := rfl
@[simp] theorem State.fillPlane_ctrlUndef (s : State) (p : Plane) (v : Byte) : (s.fillPlane p v).ctrlUndef = s.ctrlUndef := rfl
@[simp] theorem State.fillPlane_result (s : State) (p : Plane) (v : Byte) : (s.fillPlane p v).result = s.result := rfl
@[simp] theorem State.fillPlane_mem (s : State) (p : Plane) (v : Byte) : (s.fillPlane p v).mem = s.mem.fill (fb p 0) Config.planeBytes v := rfl
@[simp] theorem State.fillPlane_bw (s : State) (p : Plane) (v : Byte) : (s.fillPlane p v).bw = s.bw := rfl
@[simp] theorem State.fillPlane_red (s : State) (p : Plane) (v : Byte) : (s.fillPlane p v).red = s.red := rfl
@[simp] theorem State.fillPlane_lines (s : State) (p : Plane) (v : Byte) : (s.fillPlane p v).lines = s.lines := rfl
@[simp] theorem State.fillPlane_trace (s : State) (p : Plane) (v : Byte) : (s.fillPlane p v).trace = s.trace := rfl
@[simp] theorem State.fillPlane_running (s : State) (p : Plane) (v : Byte) : (s.fillPlane p v).running = s.running := rfl
@[simp] theorem State.fillPlane_frames (s : State) (p : Plane) (v : Byte) : (s.fillPlane p v).frames = s.frames := rfl
@[simp] theorem State.fillPlane_busyIn (s : State) (p : Plane) (v : Byte) : (s.fillPlane p v).busyIn = s.busyIn := rfl
@[simp] theorem State.fillPlane_busyRest (s : State) (p : Plane) (v : Byte) : (s.fillPlane p v).busyRest = s.busyRest := rfl
@[simp] theorem State.fillPlane_failIn (s : State) (p : Plane) (v : Byte) : (s.fillPlane p v).failIn = s.failIn := rfl

@[simp] theorem State.setPlaneRegs_phase (s : State) (p : Plane) (r : PlaneRegs) : (s.setPlaneRegs p r).phase = s.phase := by
  cases p <;> rfl
@[simp] theorem State.setPlaneRegs_fault (s : State) (p : Plane) (r : PlaneRegs) : (s.setPlaneRegs p r).fault = s.fault := by
  cases p <;> rfl
@[simp] theorem State.setPlaneRegs_ctrlUndef (s : State) (p : Plane) (r : PlaneRegs) : (s.setPlaneRegs p r).ctrlUndef = s.ctrlUndef := by
  cases p <;> rfl
@[simp] theorem State.setPlaneRegs_result (s : State) (p : Plane) (r : PlaneRegs) : (s.setPlaneRegs p r).result = s.result := by
  cases p <;> rfl
@[simp] theorem State.setPlaneRegs_mem (s : State) (p : Plane) (r : PlaneRegs) : (s.setPlaneRegs p r).mem = s.mem := by
  cases p <;> rfl
@[simp] theorem State.setPlaneRegs_lines (s : State) (p : Plane) (r : PlaneRegs) : (s.setPlaneRegs p r).lines = s.lines := by
  cases p <;> rfl
@[simp] theorem State.setPlaneRegs_trace (s : State) (p : Plane) (r : PlaneRegs) : (s.setPlaneRegs p r).trace = s.trace := by
  cases p <;> rfl
@[simp] theorem State.setPlaneRegs_running (s : State) (p : Plane) (r : PlaneRegs) : (s.setPlaneRegs p r).running = s.running := by
  cases p <;> rfl
@[simp] theorem State.setPlaneRegs_frames (s : State) (p : Plane) (r : PlaneRegs) : (s.setPlaneRegs p r).frames = s.frames := by
  cases p <;> rfl
@[simp] theorem State.setPlaneRegs_busyIn (s : State) (p : Plane) (r : PlaneRegs) : (s.setPlaneRegs p r).busyIn = s.busyIn := by
  cases p <;> rfl
@[simp] theorem State.setPlaneRegs_busyRest (s : State) (p : Plane) (r : PlaneRegs) : (s.setPlaneRegs p r).busyRest = s.busyRest := by
  cases p <;> rfl
@[simp] theorem State.setPlaneRegs_failIn (s : State) (p : Plane) (r : PlaneRegs) : (s.setPlaneRegs p r).failIn = s.failIn := by
  cases p <;> rfl

@[simp] theorem State.planeRegs_bw (s : State) : s.planeRegs .bw = s.bw := rfl
@[simp] theorem State.planeRegs_red (s : State) : s.planeRegs .red = s.red := rfl

@[simp] theorem State.planeRegs_setPlaneRegs_same (s : State) (p : Plane) (r : PlaneRegs) :
    (s.setPlaneRegs p r).planeRegs p = r := by
  cases p <;> rfl

theorem State.planeRegs_setPlaneRegs_other (s : State) {p q : Plane} (r : PlaneRegs) (h : q ≠ p) :
    (s.setPlaneRegs p r).planeRegs q = s.planeRegs q := by
  cases p <;> cases q <;> first | rfl | exact absurd rfl h

/-- Control bits depend on the two plane fields alone. -/
theorem State.planeRegs_congr {s t : State} (hb : t.bw = s.bw) (hr : t.red = s.red) (p : Plane) :
    t.planeRegs p = s.planeRegs p := by
  cases p
  · exact hb
  · exact hr

@[simp] theorem State.complete_fault (s : State) (c : Completion) : (s.complete c).fault = s.fault := by
  cases c <;> rfl
@[simp] theorem State.complete_mem (s : State) (c : Completion) : (s.complete c).mem = s.mem := by
  cases c <;> rfl
@[simp] theorem State.complete_bw (s : State) (c : Completion) : (s.complete c).bw = s.bw := by
  cases c <;> rfl
@[simp] theorem State.complete_red (s : State) (c : Completion) : (s.complete c).red = s.red := by
  cases c <;> rfl
@[simp] theorem State.complete_lines (s : State) (c : Completion) : (s.complete c).lines = s.lines := by
  cases c <;> rfl
@[simp] theorem State.complete_trace (s : State) (c : Completion) : (s.complete c).trace = s.trace := by
  cases c <;> rfl
@[simp] theorem State.complete_running (s : State) (c : Completion) : (s.complete c).running = s.running := by
  cases c <;> rfl
@[simp] theorem State.complete_frames (s : State) (c : Completion) : (s.complete c).frames = s.frames := by
  cases c <;> rfl
@[simp] theorem State.complete_busyIn (s : State) (c : Completion) : (s.complete c).busyIn = s.busyIn := by
  cases c <;> rfl
@[simp] theorem State.complete_busyRest (s : State) (c : Completion) : (s.complete c).busyRest = s.busyRest := by
  cases c <;> rfl
@[simp] theorem State.complete_failIn (s : State) (c : Completion) : (s.complete c).failIn = s.failIn := by
  cases c <;> rfl

@[simp] theorem Lines.get_set_same (ls : Lines) (l : Line) (v : Level) : (ls.set l v).get l = v := by
  cases l <;> rfl

theorem Lines.get_set_other (ls : Lines) {l k : Line} (v : Level) (h : k ≠ l) : (ls.set l v).get k = ls.get k := by
  cases l <;> cases k <;> first | rfl | exact absurd rfl h

end Sys2Proof.Machine
end

