-- ==== Sys2Proof/Laws/Ports.lean ====
section
/-! SUPPORT. What the ports can do: port steps, waits, one micro-operation, and a sequence of them. -/

namespace Sys2Proof.Machine

theorem linesAfter_append (ls : Lines) (es fs : List Event) :
    linesAfter ls (es ++ fs) = linesAfter (linesAfter ls es) fs := by
  simp [linesAfter]

@[simp] theorem linesAfter_nil (ls : Lines) : linesAfter ls [] = ls := rfl

@[simp] theorem linesAfter_cons (ls : Lines) (e : Event) (es : List Event) :
    linesAfter ls (e :: es) = linesAfter (ls.after e) es := rfl

/-- How many draws a list of port steps takes when none fails: one for each step but a delay (R241, R255). -/
def drawCount (ps : List PortStep) : Nat := (ps.filter (fun p => p.action?.isSome)).length

theorem drawCount_nil : drawCount [] = 0 := rfl

theorem drawCount_append (ps qs : List PortStep) : drawCount (ps ++ qs) = drawCount ps + drawCount qs := by
  simp [drawCount]

theorem nextFails_of_take {ds : List Bool} {n : Nat} (h : ∀ b ∈ ds.take (n + 1), b = false) :
    nextFails ds = false := by
  cases ds with
  | nil => rfl
  | cons d ds => exact h d (by simp)

theorem tail_take {ds : List Bool} {n : Nat} (h : ∀ b ∈ ds.take (n + 1), b = false) :
    ∀ b ∈ ds.tail.take n, b = false := by
  cases ds with
  | nil => simp
  | cons d ds => exact fun b hb => h b (by simp only [List.take_succ_cons, List.mem_cons]; exact .inr hb)

/-- Port steps none of which fails: every event in order, the lines as the events leave them. -/
theorem perform_ok (ps : List PortStep) (ds : List Bool) (ls : Lines)
    (h : ∀ b ∈ ds.take (drawCount ps), b = false) :
    perform ps ds ls =
      { events := ps.map PortStep.event, draws := ds.drop (drawCount ps),
        lines := linesAfter ls (ps.map PortStep.event), failed := false } := by
  induction ps generalizing ds ls with
  | nil => simp [perform, drawCount]
  | cons p ps ih =>
    cases ha : p.action? with
    | none =>
      have hc : drawCount (p :: ps) = drawCount ps := by simp [drawCount, ha]
      rw [hc] at h ⊢
      simp only [perform, ha, PortRun.cons, ih _ _ h, List.map_cons, linesAfter_cons]
    | some a =>
      have hc : drawCount (p :: ps) = drawCount ps + 1 := by simp [drawCount, ha]
      rw [hc] at h ⊢
      simp only [perform, ha, nextFails_of_take h, PortRun.cons, ih _ _ (tail_take h), List.map_cons,
        linesAfter_cons, Bool.false_eq_true, if_false]
      cases ds <;> simp

/-- Everything a list of port steps can do: all of them succeed, or one fails and nothing follows it. -/
theorem perform_cases (ps : List PortStep) (ds : List Bool) (ls : Lines) :
    ∃ evs draws failed,
      perform ps ds ls = { events := evs, draws := draws, lines := linesAfter ls evs, failed := failed } ∧
      ((failed = false ∧ evs = ps.map PortStep.event) ∨
        (failed = true ∧ ∃ pre p post a, ps = pre ++ p :: post ∧ p.action? = some a ∧
          evs = pre.map PortStep.event ++ [.fail a])) := by
  induction ps generalizing ds ls with
  | nil => exact ⟨[], ds, false, rfl, .inl ⟨rfl, rfl⟩⟩
  | cons p ps ih =>
    have step (ds' : List Bool) : ∃ evs draws failed,
        (perform ps ds' (ls.after p.event)).cons p.event =
          { events := evs, draws := draws, lines := linesAfter ls evs, failed := failed } ∧
        ((failed = false ∧ evs = (p :: ps).map PortStep.event) ∨
          (failed = true ∧ ∃ pre q post a, p :: ps = pre ++ q :: post ∧ q.action? = some a ∧
            evs = pre.map PortStep.event ++ [.fail a])) := by
      obtain ⟨evs, draws, failed, he, h⟩ := ih ds' (ls.after p.event)
      refine ⟨p.event :: evs, draws, failed, by rw [he]; rfl, ?_⟩
      rcases h with ⟨rfl, rfl⟩ | ⟨rfl, pre, q, post, a, rfl, ha, rfl⟩
      · exact .inl ⟨rfl, rfl⟩
      · exact .inr ⟨rfl, p :: pre, q, post, a, rfl, ha, rfl⟩
    cases ha : p.action? with
    | none =>
      simp only [perform, ha]
      exact step ds
    | some a =>
      simp only [perform, ha]
      split
      · refine ⟨[.fail a], ds.tail, true, rfl, .inr ⟨rfl, [], p, ps, a, rfl, ha, rfl⟩⟩
      · exact step ds.tail

/-- Port steps the first failure of which is the step after `pre` (R138, R241). -/
theorem perform_fail (pre : List PortStep) (p : PortStep) (post : List PortStep) (a : PortAction)
    (ds : List Bool) (ls : Lines) (hp : p.action? = some a)
    (h : ∀ b ∈ ds.take (drawCount pre), b = false) (hd : ds[drawCount pre]? = some true) :
    perform (pre ++ p :: post) ds ls =
      { events := pre.map PortStep.event ++ [.fail a], draws := ds.drop (drawCount pre + 1),
        lines := linesAfter ls (pre.map PortStep.event ++ [.fail a]), failed := true } := by
  induction pre generalizing ds ls with
  | nil =>
    cases ds with
    | nil => simp [drawCount] at hd
    | cons d ds =>
      simp [drawCount] at hd
      subst hd
      simp [perform, hp, drawCount, nextFails]
  | cons q pre ih =>
    cases ha : q.action? with
    | none =>
      have hc : drawCount (q :: pre) = drawCount pre := by simp [drawCount, ha]
      rw [hc] at h hd ⊢
      simp only [List.cons_append, perform, ha, PortRun.cons, ih _ _ h hd, List.map_cons, linesAfter_cons]
    | some b =>
      have hc : drawCount (q :: pre) = drawCount pre + 1 := by simp [drawCount, ha]
      rw [hc] at h hd ⊢
      have hd' : ds.tail[drawCount pre]? = some true := by
        cases ds with
        | nil => simp at hd
        | cons d ds => simpa using hd
      simp only [List.cons_append, perform, ha, nextFails_of_take h, PortRun.cons, ih _ _ (tail_take h) hd',
        List.map_cons, linesAfter_cons, Bool.false_eq_true, if_false]
      cases ds <;> simp

/-- Everything a wait can do: it ends on a 0, a sample fails, or BUSY reads 1 at the last sample in store. -/
theorem pollBusy_cases (bs : List Bool) (rest : Bool) (ds : List Bool) :
    ∃ k, ((pollBusy bs rest ds).ending = .done ∧ (pollBusy bs rest ds).events = waitEvents k) ∨
      ((pollBusy bs rest ds).ending = .failed ∧
        (pollBusy bs rest ds).events = List.replicate k (.busy true) ++ [.fail .sampleBusy]) ∨
      ((pollBusy bs rest ds).ending = .waiting ∧ rest = true ∧ (pollBusy bs rest ds).busy = [] ∧
        (pollBusy bs rest ds).events = List.replicate (k + 1) (.busy true)) := by
  induction bs generalizing ds with
  | nil =>
    refine ⟨0, ?_⟩
    unfold pollBusy
    split
    · exact .inr (.inl ⟨rfl, rfl⟩)
    · split
      · next h => exact .inr (.inr ⟨rfl, h, rfl, rfl⟩)
      · exact .inl ⟨rfl, rfl⟩
  | cons b bs ih =>
    unfold pollBusy
    split
    · exact ⟨0, .inr (.inl ⟨rfl, rfl⟩)⟩
    · split
      · obtain ⟨k, h⟩ := ih ds.tail
        refine ⟨k + 1, ?_⟩
        rcases h with ⟨h1, h2⟩ | ⟨h1, h2⟩ | ⟨h1, h2, h3, h4⟩
        · exact .inl ⟨h1, by simp [WaitRun.cons, h2, waitEvents, List.replicate_succ]⟩
        · exact .inr (.inl ⟨h1, by simp [WaitRun.cons, h2, List.replicate_succ]⟩)
        · exact .inr (.inr ⟨h1, h2, h3, by simp [WaitRun.cons, h4, List.replicate_succ]⟩)
      · exact ⟨0, .inl ⟨rfl, rfl⟩⟩

/-- A wait whose samples are `k` times 1 and then 0, and none fails (R136). -/
theorem pollBusy_idle (k : Nat) (bs : List Bool) (rest : Bool) (ds : List Bool)
    (h : ∀ b ∈ ds.take (k + 1), b = false) :
    pollBusy (List.replicate k true ++ false :: bs) rest ds =
      { events := waitEvents k, busy := bs, draws := ds.drop (k + 1), ending := .done } := by
  induction k generalizing ds with
  | zero =>
    unfold pollBusy
    simp [nextFails_of_take h, waitEvents]
  | succ k ih =>
    rw [List.replicate_succ, List.cons_append]
    unfold pollBusy
    simp only [nextFails_of_take h, ih ds.tail (tail_take h), WaitRun.cons]
    cases ds <;> simp [waitEvents, List.replicate_succ]

/-- A wait in an environment where BUSY reads 0 once the samples in store are used up (R253). -/
theorem pollBusy_rest_idle (k : Nat) (ds : List Bool) (h : ∀ b ∈ ds.take (k + 1), b = false) :
    pollBusy (List.replicate k true) false ds =
      { events := waitEvents k, busy := [], draws := ds.drop (k + 1), ending := .done } := by
  induction k generalizing ds with
  | zero =>
    unfold pollBusy
    simp [nextFails_of_take h, waitEvents]
  | succ k ih =>
    rw [List.replicate_succ]
    unfold pollBusy
    simp only [nextFails_of_take h, ih ds.tail (tail_take h), WaitRun.cons]
    cases ds <;> simp [waitEvents, List.replicate_succ]

/-- A wait ends where no sample fails and one of the samples to come is 0; it takes the samples up to that 0. -/
theorem pollBusy_done (bs : List Bool) (rest : Bool) (ds : List Bool) (hd : ∀ b ∈ ds, b = false)
    (h : rest = false ∨ false ∈ bs) :
    ∃ k, pollBusy bs rest ds =
      { events := waitEvents k, busy := bs.drop (k + 1), draws := ds.drop (k + 1), ending := .done } ∧
      (rest = false ∨ (bs.drop (k + 1)).count false + 1 = bs.count false) := by
  have hdrop (n : Nat) : ∀ b ∈ ds.take n, b = false := fun b hb => hd b (List.mem_of_mem_take hb)
  have split : (∃ k bs', bs = List.replicate k true ++ false :: bs') ∨ (∃ k, bs = List.replicate k true) := by
    clear h
    induction bs with
    | nil => exact .inr ⟨0, rfl⟩
    | cons b bs ih =>
      cases b with
      | false => exact .inl ⟨0, bs, rfl⟩
      | true =>
        rcases ih with ⟨k, bs', rfl⟩ | ⟨k, rfl⟩
        · exact .inl ⟨k + 1, bs', by rw [List.replicate_succ, List.cons_append]⟩
        · exact .inr ⟨k + 1, by rw [List.replicate_succ]⟩
  rcases split with ⟨k, bs', rfl⟩ | ⟨k, rfl⟩
  · refine ⟨k, ?_, .inr ?_⟩
    · rw [pollBusy_idle k bs' rest ds (hdrop _)]
      simp [List.drop_append]
    · simp [List.drop_append, List.count_replicate]
  · have hr : rest = false := h.resolve_right (by simp)
    subst hr
    refine ⟨k, ?_, .inl rfl⟩
    rw [pollBusy_rest_idle k ds (hdrop _)]
    simp

/-- The events of one micro-operation, and how it ended. -/
inductive MicroEvents : MicroOp → List Event → MicroEnd → Prop
  /-- All its port steps succeed. -/
  | steps (m : MicroOp) (h : m ≠ .waitIdle) : MicroEvents m ((microSteps m).map PortStep.event) .done
  /-- One of its port steps fails. -/
  | stepFails (m : MicroOp) (h : m ≠ .waitIdle) (pre : List PortStep) (p : PortStep) (post : List PortStep)
      (a : PortAction) (hm : microSteps m = pre ++ p :: post) (hp : p.action? = some a) :
      MicroEvents m (pre.map PortStep.event ++ [.fail a]) .failed
  /-- A wait ends. -/
  | waitDone (k : Nat) : MicroEvents .waitIdle (waitEvents k) .done
  /-- A sample fails. -/
  | waitFails (k : Nat) : MicroEvents .waitIdle (List.replicate k (.busy true) ++ [.fail .sampleBusy]) .failed
  /-- A wait has not ended. -/
  | waitGoesOn (k : Nat) : MicroEvents .waitIdle (List.replicate (k + 1) (.busy true)) .waiting

/-- Everything one micro-operation can do to the state: it appends events, sets the lines as they say, and takes
inputs. -/
theorem runMicro_cases (m : MicroOp) (s : State) :
    ∃ evs busy draws e,
      runMicro m s = ({ s with trace := s.trace ++ evs, lines := linesAfter s.lines evs, busyIn := busy,
                               failIn := draws }, e) ∧
      MicroEvents m evs e := by
  by_cases hm : m = .waitIdle
  · subst hm
    obtain ⟨k, h⟩ := pollBusy_cases s.busyIn s.busyRest s.failIn
    have hlines : ∀ es : List Event, (∀ e ∈ es, s.lines.after e = s.lines) →
        linesAfter s.lines es = s.lines := by
      intro es hes
      induction es with
      | nil => rfl
      | cons e es ih =>
        rw [linesAfter_cons, hes e (by simp)]
        exact ih fun e he => hes e (by simp [he])
    have hbusy : ∀ n, linesAfter s.lines (List.replicate n (.busy true)) = s.lines := fun n =>
      hlines _ fun e he => by rw [List.eq_of_mem_replicate he]; rfl
    refine ⟨(pollBusy s.busyIn s.busyRest s.failIn).events, (pollBusy s.busyIn s.busyRest s.failIn).busy,
      (pollBusy s.busyIn s.busyRest s.failIn).draws, (pollBusy s.busyIn s.busyRest s.failIn).ending, ?_, ?_⟩
    · have : linesAfter s.lines (pollBusy s.busyIn s.busyRest s.failIn).events = s.lines := by
        rcases h with ⟨-, h2⟩ | ⟨-, h2⟩ | ⟨-, -, -, h2⟩
        · rw [h2, waitEvents, linesAfter_append, hbusy]; rfl
        · rw [h2, linesAfter_append, hbusy]; rfl
        · rw [h2, hbusy]
      rw [this]
      rfl
    · rcases h with ⟨h1, h2⟩ | ⟨h1, h2⟩ | ⟨h1, -, -, h2⟩
      · rw [h1, h2]; exact .waitDone k
      · rw [h1, h2]; exact .waitFails k
      · rw [h1, h2]; exact .waitGoesOn k
  · have hrun : runMicro m s = (s.afterPorts (perform (microSteps m) s.failIn s.lines),
        if (perform (microSteps m) s.failIn s.lines).failed then .failed else .done) := by
      cases m <;> first | rfl | exact absurd rfl hm
    obtain ⟨evs, draws, failed, he, h⟩ := perform_cases (microSteps m) s.failIn s.lines
    rw [he] at hrun
    rcases h with ⟨rfl, rfl⟩ | ⟨rfl, pre, p, post, a, hps, ha, rfl⟩
    · exact ⟨_, s.busyIn, draws, .done, hrun, .steps m hm⟩
    · exact ⟨_, s.busyIn, draws, .failed, hrun, .stepFails m hm pre p post a hps ha⟩

/-- A micro-operation other than a wait, none of whose port actions fails. -/
theorem runMicro_ok {m : MicroOp} (hm : m ≠ .waitIdle) {s : State} (h : s.DrawsOk (drawCount (microSteps m))) :
    runMicro m s =
      ({ s with trace := s.trace ++ (microSteps m).map PortStep.event,
                lines := linesAfter s.lines ((microSteps m).map PortStep.event),
                failIn := s.failIn.drop (drawCount (microSteps m)) }, .done) := by
  have hrun : runMicro m s = (s.afterPorts (perform (microSteps m) s.failIn s.lines),
      if (perform (microSteps m) s.failIn s.lines).failed then .failed else .done) := by
    cases m <;> first | rfl | exact absurd rfl hm
  rw [hrun, perform_ok _ _ _ h]
  rfl

/-- The first micro-operation of a sequence completes. -/
theorem runOps_cons_done {m : MicroOp} {ms : List MicroOp} {c : Completion} {s t : State}
    (h : runMicro m s = (t, .done)) : runOps (m :: ms) c s = runOps ms c t := by
  simp only [runOps, h]

/-- The first micro-operation of a sequence fails (R241). -/
theorem runOps_cons_failed {m : MicroOp} {ms : List MicroOp} {c : Completion} {s t : State}
    (h : runMicro m s = (t, .failed)) : runOps (m :: ms) c s = t.raiseTransportError := by
  simp only [runOps, h]

/-- The first micro-operation of a sequence waits (R254). -/
theorem runOps_cons_waiting {m : MicroOp} {ms : List MicroOp} {c : Completion} {s t : State}
    (h : runMicro m s = (t, .waiting)) :
    runOps (m :: ms) c s = { t with running := some { rest := m :: ms, done := c } } := by
  simp only [runOps, h]

/-- A sequence without waits, none of whose port actions fails: all events in order, then completion. -/
theorem runOps_ok (ops : List MicroOp) (c : Completion) (s : State) (hw : .waitIdle ∉ ops)
    (h : s.DrawsOk (drawCount (ops.flatMap microSteps))) :
    runOps ops c s =
      ({ s with trace := s.trace ++ (ops.flatMap microSteps).map PortStep.event,
                lines := linesAfter s.lines ((ops.flatMap microSteps).map PortStep.event),
                failIn := s.failIn.drop (drawCount (ops.flatMap microSteps)) } : State).complete c := by
  induction ops generalizing s with
  | nil => simp [runOps, drawCount]
  | cons m ms ih =>
    rw [List.flatMap_cons, drawCount_append] at h
    have hm : m ≠ .waitIdle := fun e => hw (by simp [e])
    have h1 : s.DrawsOk (drawCount (microSteps m)) := fun b hb =>
      h b (List.mem_of_mem_take (by rwa [List.take_take, Nat.min_eq_left (Nat.le_add_right _ _)]))
    have h2 : ∀ b ∈ (s.failIn.drop (drawCount (microSteps m))).take (drawCount (ms.flatMap microSteps)),
        b = false := fun b hb => h b (by
      rw [List.take_add]
      exact List.mem_append_right _ hb)
    rw [runOps_cons_done (runMicro_ok hm h1), ih _ (fun e => hw (by simp [e])) h2]
    simp [List.flatMap_cons, linesAfter_append, drawCount_append, List.drop_drop]

/-- Running a sequence after another: the second begins where the first completes. -/
theorem runOps_append (ops more : List MicroOp) (c : Completion) (s : State) (hw : .waitIdle ∉ ops)
    (h : s.DrawsOk (drawCount (ops.flatMap microSteps))) :
    runOps (ops ++ more) c s = runOps more c
      { s with trace := s.trace ++ (ops.flatMap microSteps).map PortStep.event,
               lines := linesAfter s.lines ((ops.flatMap microSteps).map PortStep.event),
               failIn := s.failIn.drop (drawCount (ops.flatMap microSteps)) } := by
  induction ops generalizing s with
  | nil => simp [drawCount]
  | cons m ms ih =>
    rw [List.flatMap_cons, drawCount_append] at h
    have hm : m ≠ .waitIdle := fun e => hw (by simp [e])
    have h1 : s.DrawsOk (drawCount (microSteps m)) := fun b hb =>
      h b (List.mem_of_mem_take (by rwa [List.take_take, Nat.min_eq_left (Nat.le_add_right _ _)]))
    have h2 : ∀ b ∈ (s.failIn.drop (drawCount (microSteps m))).take (drawCount (ms.flatMap microSteps)),
        b = false := fun b hb => h b (by
      rw [List.take_add]
      exact List.mem_append_right _ hb)
    rw [List.cons_append, runOps_cons_done (runMicro_ok hm h1), ih _ (fun e => hw (by simp [e])) h2]
    simp [List.flatMap_cons, linesAfter_append, drawCount_append, List.drop_drop]

/-- A property of states that each micro-operation keeps, and that the ends of an operation keep, is kept by a
whole sequence. The premise on waiting sees what is left to do. -/
theorem runOps_keeps {P : State → Prop} {c : Completion} (ops : List MicroOp)
    (hmicro : ∀ m ∈ ops, ∀ s, P s → P (runMicro m s).1)
    (hdone : ∀ s, P s → P (s.complete c))
    (hfail : ∀ s, P s → P s.raiseTransportError)
    (hwait : ∀ s ms, P s → (.waitIdle :: ms) <:+ ops →
      P { s with running := some { rest := .waitIdle :: ms, done := c } })
    (s : State) (hs : P s) : P (runOps ops c s) := by
  induction ops generalizing s with
  | nil => exact hdone s hs
  | cons m ms ih =>
    have ih' := ih (fun k hk => hmicro k (by simp [hk])) fun s ks hk hsuf =>
      hwait s ks hk (hsuf.trans (List.suffix_cons m ms))
    obtain ⟨evs, busy, draws, e, hrun, hev⟩ := runMicro_cases m s
    have hP := hmicro m (by simp) s hs
    rw [hrun] at hP
    cases e with
    | done =>
      rw [runOps_cons_done hrun]
      exact ih' _ hP
    | failed =>
      rw [runOps_cons_failed hrun]
      exact hfail _ hP
    | waiting =>
      rw [runOps_cons_waiting hrun]
      cases hev
      exact hwait _ ms hP (List.suffix_refl _)

/-- What a sequence of micro-operations leaves alone: FAULT, the framebuffer, the plane registers, the host's
frames and the level BUSY comes to; and it only appends events, setting the lines as they say. -/
theorem runOps_frame (ops : List MicroOp) (c : Completion) (s : State) :
    let t := runOps ops c s
    t.fault = s.fault ∧ t.mem = s.mem ∧ t.bw = s.bw ∧ t.red = s.red ∧ t.frames = s.frames ∧
      t.busyRest = s.busyRest ∧ ∃ evs, t.trace = s.trace ++ evs ∧ t.lines = linesAfter s.lines evs := by
  refine runOps_keeps (P := fun t => t.fault = s.fault ∧ t.mem = s.mem ∧ t.bw = s.bw ∧ t.red = s.red ∧
    t.frames = s.frames ∧ t.busyRest = s.busyRest ∧
    ∃ evs, t.trace = s.trace ++ evs ∧ t.lines = linesAfter s.lines evs) ops ?_ ?_ ?_ ?_ s
    ⟨rfl, rfl, rfl, rfl, rfl, rfl, [], by simp, rfl⟩
  · rintro m - u ⟨h1, h2, h3, h4, h5, h6, evs, h7, h8⟩
    obtain ⟨evs', busy, draws, e, hrun, -⟩ := runMicro_cases m u
    rw [hrun]
    exact ⟨h1, h2, h3, h4, h5, h6, evs ++ evs', by simp [h7], by simp [h8, linesAfter_append]⟩
  · intro u hu
    simpa using hu
  · intro u hu
    simpa using hu
  · intro u ms hu _
    exact hu

/-! ### Pauses: what a wait does with more samples than it had (R22, R254) -/

/-- A wait that ended a pause goes on as if the samples to come had been in store. -/
theorem pollBusy_pause (bs more : List Bool) (rest b : Bool) (ds : List Bool)
    (h : (pollBusy bs rest ds).ending = .waiting) :
    pollBusy (bs ++ true :: more) b ds =
      { pollBusy more b (pollBusy bs rest ds).draws with
        events := (pollBusy bs rest ds).events ++ (pollBusy more b (pollBusy bs rest ds).draws).events } := by
  induction bs generalizing ds with
  | nil =>
    cases hf : nextFails ds <;> cases rest <;> simp [pollBusy, hf] at h ⊢
    simp [WaitRun.cons]
  | cons x bs ih =>
    cases hf : nextFails ds <;> cases x <;> simp [pollBusy, hf, WaitRun.cons] at h ⊢
    rw [ih ds.tail h]
    simp

/-- A wait that did not pause leaves further samples alone, BUSY reading 1 after those in store. -/
theorem pollBusy_more (bs more : List Bool) (b : Bool) (ds : List Bool)
    (h : (pollBusy bs true ds).ending ≠ .waiting) :
    pollBusy (bs ++ true :: more) b ds =
      { pollBusy bs true ds with busy := (pollBusy bs true ds).busy ++ true :: more } := by
  induction bs generalizing ds with
  | nil => cases hf : nextFails ds <;> simp [pollBusy, hf] at h ⊢
  | cons x bs ih =>
    cases hf : nextFails ds <;> cases x <;> simp [pollBusy, hf, WaitRun.cons] at h ⊢
    rw [ih ds.tail h]
    simp

/-- A micro-operation that paused goes on as if the samples to come had been in store. -/
theorem runMicro_pause {m : MicroOp} {s t : State} (bs : List Bool) (b : Bool)
    (h : runMicro m s = (t, .waiting)) :
    runMicro m (s.withInputs (s.busyIn ++ true :: bs) b s.failIn) = runMicro m (t.withInputs bs b t.failIn) := by
  cases m with
  | waitIdle =>
    simp only [runMicro, Prod.mk.injEq] at h
    obtain ⟨rfl, he⟩ := h
    simp [runMicro, State.withInputs, State.afterWait, pollBusy_pause _ bs _ b _ he]
  | cmd op => simp only [runMicro, Prod.mk.injEq] at h; split at h <;> simp at h
  | data d => simp only [runMicro, Prod.mk.injEq] at h; split at h <;> simp at h
  | cmdData op d => simp only [runMicro, Prod.mk.injEq] at h; split at h <;> simp at h
  | repeatByte v n => simp only [runMicro, Prod.mk.injEq] at h; split at h <;> simp at h
  | reset => simp only [runMicro, Prod.mk.injEq] at h; split at h <;> simp at h

/-- A micro-operation that did not pause leaves further samples alone. -/
theorem runMicro_more {m : MicroOp} {s t : State} {e : MicroEnd} (bs : List Bool) (b : Bool)
    (hr : s.busyRest = true) (h : runMicro m s = (t, e)) (he : e ≠ .waiting) :
    runMicro m (s.withInputs (s.busyIn ++ true :: bs) b s.failIn) =
      (t.withInputs (t.busyIn ++ true :: bs) b t.failIn, e) := by
  cases m with
  | waitIdle =>
    simp only [runMicro, Prod.mk.injEq, hr] at h
    obtain ⟨rfl, rfl⟩ := h
    simp [runMicro, State.withInputs, State.afterWait, pollBusy_more _ bs b _ he]
  | cmd op => simp only [runMicro, Prod.mk.injEq] at h; obtain ⟨rfl, rfl⟩ := h; rfl
  | data d => simp only [runMicro, Prod.mk.injEq] at h; obtain ⟨rfl, rfl⟩ := h; rfl
  | cmdData op d => simp only [runMicro, Prod.mk.injEq] at h; obtain ⟨rfl, rfl⟩ := h; rfl
  | repeatByte v n => simp only [runMicro, Prod.mk.injEq] at h; obtain ⟨rfl, rfl⟩ := h; rfl
  | reset => simp only [runMicro, Prod.mk.injEq] at h; obtain ⟨rfl, rfl⟩ := h; rfl

/-- What a sequence that paused leaves to do: the wait it stands in and the micro-operations after it, with the same
completion, in a state that a step goes on from. -/
theorem runOps_paused {ops : List MicroOp} {c : Completion} {s : State} {r : Running} (hs : s.running = none)
    (h : (runOps ops c s).running = some r) :
    s.busyRest = true ∧ r.done = c ∧ (∃ ms, r.rest = .waitIdle :: ms ∧ r.rest <:+ ops) ∧
      ∀ bs b, resume r ((runOps ops c s).withInputs bs b (runOps ops c s).failIn) =
        runOps ops c (s.withInputs (s.busyIn ++ true :: bs) b s.failIn) := by
  induction ops generalizing s with
  | nil => cases c <;> simp [runOps, State.complete, hs] at h
  | cons m ms ih =>
    obtain ⟨evs, busy, draws, e, hrun, hev⟩ := runMicro_cases m s
    cases e with
    | done =>
      rw [runOps_cons_done hrun] at h ⊢
      obtain ⟨h1, h2, ⟨ks, h3, h4⟩, h5⟩ := ih (by exact hs) h
      refine ⟨h1, h2, ⟨ks, h3, h4.trans (List.suffix_cons m ms)⟩, fun bs b => ?_⟩
      rw [h5]
      exact (runOps_cons_done (runMicro_more bs b (s := s) h1 hrun (by simp))).symm
    | failed =>
      rw [runOps_cons_failed hrun] at h
      simp [hs] at h
    | waiting =>
      rw [runOps_cons_waiting hrun] at h ⊢
      have hp (bs : List Bool) (b : Bool) := runMicro_pause bs b hrun
      cases hev
      have hrest : s.busyRest = true := by
        have he := congrArg Prod.snd hrun
        simp only [runMicro] at he
        obtain ⟨k, ⟨h1, -⟩ | ⟨h1, -⟩ | ⟨-, h2, -⟩⟩ := pollBusy_cases s.busyIn s.busyRest s.failIn
        · rw [h1] at he; cases he
        · rw [h1] at he; cases he
        · exact h2
      cases h
      refine ⟨hrest, rfl, ⟨ms, rfl, List.suffix_refl _⟩, fun bs b => ?_⟩
      simp only [resume, State.withInputs, runOps]
      have := hp bs b
      simp only [State.withInputs] at this
      rw [this]
      simp only [hs]

end Sys2Proof.Machine
end

