-- ==== Sys2Proof/Laws/Exec.lean ====
section
/-! SUPPORT. The shared checks, what an instruction that answers a next state can have done, and what a step can
have done. -/

namespace Sys2Proof.Machine

/-! ### The checks -/

@[simp] theorem whenFree_of_free {s : State} (h : s.Free) (k : Answer) : whenFree s k = k := by
  simp [whenFree, h.1, h.2]

theorem whenFree_halted {s : State} {f : FatalFault} (h : s.fault = some f) (k : Answer) :
    whenFree s k = .fault (.halted f) := by
  simp [whenFree, h]

theorem whenFree_running {s : State} {r : Running} (h : s.fault = none) (hr : s.running = some r) (k : Answer) :
    whenFree s k = .refused .operationInProgress := by
  simp [whenFree, h, hr]

/-- A checked instruction answers a next state only where the check passes. -/
theorem whenFree_next {s t : State} {k : Answer} (h : whenFree s k = .next t) : s.Free ∧ k = .next t := by
  unfold whenFree at h
  split at h
  · cases h
  · next hf =>
    split at h
    · cases h
    · next hr => exact ⟨⟨hf, hr⟩, h⟩

@[simp] theorem whenInitialized_of_booted {s : State} (h : s.Booted) (k : Answer) : whenInitialized s k = k := by
  unfold whenInitialized
  rw [whenFree_of_free h.1]
  cases hp : s.phase <;> first | rfl | exact absurd hp h.2

theorem whenInitialized_uninitialized {s : State} (h : s.Free) (hp : s.phase = .uninitialized) (k : Answer) :
    whenInitialized s k = .refused .uninitialized := by
  unfold whenInitialized
  rw [whenFree_of_free h, hp]

theorem whenInitialized_next {s t : State} {k : Answer} (h : whenInitialized s k = .next t) :
    s.Booted ∧ k = .next t := by
  obtain ⟨hf, h⟩ := whenFree_next h
  cases hp : s.phase <;> rw [hp] at h
  · cases h
  all_goals exact ⟨⟨hf, by simp [hp]⟩, h⟩

theorem withPlane_of_valid {s : State} {p : Plane} (h : (s.planeRegs p).valid = true) (k : Answer) :
    withPlane s p k = k := by
  simp [withPlane, h]

theorem withPlane_of_invalid {s : State} {p : Plane} (h : (s.planeRegs p).valid = false) (k : Answer) :
    withPlane s p k = .refused (.noPlane p) := by
  simp [withPlane, h]

theorem withPlane_next {s t : State} {p : Plane} {k : Answer} (h : withPlane s p k = .next t) :
    (s.planeRegs p).valid = true ∧ k = .next t := by
  unfold withPlane at h
  split at h
  · next hv => exact ⟨hv, h⟩
  · cases h

theorem withPlaneBytes_ok {s : State} {p : Plane} {bs : List Byte} (h : (s.planeRegs p).valid = true)
    (hb : s.planeBytes? p = some bs) (k : List Byte → Answer) : withPlaneBytes s p k = k bs := by
  unfold withPlaneBytes
  rw [withPlane_of_valid h, hb]

theorem withPlaneBytes_next {s t : State} {p : Plane} {k : List Byte → Answer}
    (h : withPlaneBytes s p k = .next t) :
    (s.planeRegs p).valid = true ∧ ∃ bs, s.planeBytes? p = some bs ∧ k bs = .next t := by
  obtain ⟨hv, h⟩ := withPlane_next h
  split at h
  · next bs hb => exact ⟨hv, bs, hb, h⟩
  · cases h

theorem withBuf_next {s t : State} {buf : Buf} {k : List Byte → Answer} (h : withBuf s buf k = .next t) :
    ∃ bs, k bs = .next t := by
  cases buf with
  | inline bs => exact ⟨bs, h⟩
  | plane p =>
    obtain ⟨-, bs, -, h⟩ := withPlaneBytes_next h
    exact ⟨bs, h⟩

theorem withByte_ok {s : State} {a : Nat} {b : Byte} (ha : a < Config.spaceBytes) (h : s.mem.read a = some b)
    (k : Byte → Answer) : withByte s a k = k b := by
  unfold withByte
  rw [State.memRead_ok ha h]

theorem withByte_next {s t : State} {a : Nat} {k : Byte → Answer} (h : withByte s a k = .next t) :
    ∃ b, a < Config.spaceBytes ∧ s.mem.read a = some b ∧ k b = .next t := by
  unfold withByte State.memRead at h
  by_cases ha : a < Config.spaceBytes
  · rw [if_pos ha] at h
    cases hb : s.mem.read a with
    | none =>
      rw [hb] at h
      cases h
    | some b =>
      rw [hb] at h
      exact ⟨b, ha, rfl, h⟩
  · rw [if_neg ha] at h
    cases h

theorem storeByte_ok (s : State) {a : Nat} (v : Byte) (ha : a < Config.spaceBytes) (k : State → Answer) :
    storeByte s a v k = k { s with mem := s.mem.write a v } := by
  unfold storeByte
  rw [State.memWrite_ok s v ha]

/-! ### What an instruction can do -/

/-- The states an instruction can answer from `s`. -/
inductive Effect (s : State) (i : Instr) : State → Prop
  /-- A sequence of micro-operations ran. -/
  | ran (ops : List MicroOp) (c : Completion) (hw : i.wf = true → ∀ m ∈ ops, m.wf = true)
      (hc : c ≠ .okPhase .uninitialized) (hi : c = .initDone → i = .init) : Effect s i (runOps ops c s)
  /-- A fatal fault was raised. -/
  | fatal (f : FatalFault) : Effect s i (s.raiseFatal f)
  /-- The result alone was written. -/
  | result (r : Result) : Effect s i (s.setResult r)
  /-- A plane was constructed. -/
  | constructed (p : Plane) (v : Byte) :
      Effect s i (((s.fillPlane p v).setPlaneRegs p { valid := true, rot := .r0 }).setResult .ok)
  /-- A valid plane's rotation was set. -/
  | rotated (p : Plane) (r : Rot) (hv : (s.planeRegs p).valid = true) :
      Effect s i ((s.setPlaneRegs p { s.planeRegs p with rot := r }).setResult .ok)
  /-- A valid plane was filled. -/
  | cleared (p : Plane) (v : Byte) (hv : (s.planeRegs p).valid = true) :
      Effect s i ((s.fillPlane p v).setResult .ok)
  /-- A stored byte of the framebuffer was replaced. -/
  | stored (a : Nat) (b v : Byte) (ha : a < Config.spaceBytes) (hb : s.mem.read a = some b) :
      Effect s i (({ s with mem := s.mem.write a v } : State).setResult .ok)

theorem runAnswer_next {s t : State} {ops : List MicroOp} {c : Completion} (h : runAnswer ops c s = .next t) :
    t = runOps ops c s := by
  unfold runAnswer at h
  cases h
  rfl

/-- What is emitted for a command is a micro-operation the block runs (R98). -/
theorem emission_wf (c : Command) : (emission c).wf = true := by
  cases c <;> simp [emission, MicroOp.wf, Command.opcode, isOpcode, opcodes]

theorem fullSelect_wf : ∀ m ∈ fullSelect, m.wf = true := by
  simp [fullSelect, windowOps, counterOps, emission_wf]

theorem initOps_wf : ∀ m ∈ initOps, m.wf = true := by
  intro m hm
  simp only [initOps, List.mem_append, List.mem_cons, List.not_mem_nil, or_false] at hm
  rcases hm with ((rfl | rfl | rfl | rfl | rfl | rfl) | hm) | rfl | rfl | rfl
  all_goals first
    | exact emission_wf _
    | exact fullSelect_wf m hm
    | rfl

theorem clearOps_wf (c : Command) (p : Plane) : ∀ m ∈ clearOps c p, m.wf = true := by
  intro m hm
  simp only [clearOps, List.mem_append, List.mem_cons, List.not_mem_nil, or_false] at hm
  rcases hm with hm | rfl | rfl
  · exact fullSelect_wf m hm
  · show isOpcode c.opcode = true
    cases c <;> simp [Command.opcode, isOpcode, opcodes]
  · rfl

theorem displayOps_wf (flag : Byte) : ∀ m ∈ displayOps flag, m.wf = true := by
  intro m hm
  simp only [displayOps, List.mem_cons, List.not_mem_nil, or_false] at hm
  rcases hm with rfl | rfl | rfl
  · exact emission_wf _
  · exact emission_wf _
  · rfl

theorem partialOps_wf (x y w h : Nat) (bs : List Byte) : ∀ m ∈ partialOps x y w h bs, m.wf = true := by
  simp [partialOps, windowOps, counterOps, emission_wf]

/-- An emitted command is one micro-operation. -/
theorem emitCommand_effect {c : Command} {i : Instr} {s t : State} (h : emitCommand c s = .next t) :
    s.Free ∧ Effect s i t := by
  obtain ⟨hf, h⟩ := whenFree_next h
  rw [runAnswer_next h]
  exact ⟨hf, .ran _ _ (fun _ => by simp [emission_wf]) (by simp) (by simp)⟩

/-- Everything an instruction that answers a next state can have done. -/
theorem exec_effect {i : Instr} {s t : State} (h : exec i s = .next t) : s.Free ∧ Effect s i t := by
  have micro (ops : List MicroOp) (hw : i.wf = true → ∀ m ∈ ops, m.wf = true)
      (h : whenFree s (runAnswer ops .quiet s) = .next t) : s.Free ∧ Effect s i t := by
    obtain ⟨hf, h⟩ := whenFree_next h
    rw [runAnswer_next h]
    exact ⟨hf, .ran _ _ hw (by simp) (by simp)⟩
  have result (r : Result) (h : whenFree s (resultAnswer s r) = .next t) : s.Free ∧ Effect s i t := by
    obtain ⟨hf, h⟩ := whenFree_next h
    cases h
    exact ⟨hf, .result r⟩
  cases i with
  | init =>
    obtain ⟨hf, h⟩ := whenFree_next h
    rw [runAnswer_next h]
    exact ⟨hf, .ran _ _ (fun _ => initOps_wf) (by simp) (fun _ => rfl)⟩
  | setRamWindow sx sy ex ey =>
    obtain ⟨hb, h⟩ := whenInitialized_next h
    refine ⟨hb.1, ?_⟩
    split at h
    · cases h; exact .fatal _
    · split at h
      · cases h; exact .fatal _
      · rw [runAnswer_next h]
        exact .ran _ _ (fun _ => by simp [windowOps, emission_wf]) (by simp) (by simp)
  | setRamCounter x y =>
    obtain ⟨hb, h⟩ := whenInitialized_next h
    rw [runAnswer_next h]
    exact ⟨hb.1, .ran _ _ (fun _ => by simp [counterOps, emission_wf]) (by simp) (by simp)⟩
  | updateBwFrame buf =>
    obtain ⟨hb, h⟩ := whenInitialized_next h
    obtain ⟨bs, h⟩ := withBuf_next h
    rw [runAnswer_next h]
    refine ⟨hb.1, .ran _ _ (fun _ m hm => ?_) (by simp) (by simp)⟩
    rcases List.mem_append.mp hm with hm | hm
    · exact fullSelect_wf m hm
    · rw [List.mem_singleton.mp hm]
      exact emission_wf _
  | updateRedFrame buf =>
    obtain ⟨hb, h⟩ := whenInitialized_next h
    obtain ⟨bs, h⟩ := withBuf_next h
    rw [runAnswer_next h]
    refine ⟨hb.1, .ran _ _ (fun _ m hm => ?_) (by simp) (by simp)⟩
    rcases List.mem_append.mp hm with hm | hm
    · exact fullSelect_wf m hm
    · rw [List.mem_singleton.mp hm]
      exact emission_wf _
  | updatePartialBwFrame x y w h' buf =>
    obtain ⟨hb, h⟩ := whenInitialized_next h
    obtain ⟨bs, h⟩ := withBuf_next h
    refine ⟨hb.1, ?_⟩
    split at h
    · cases h; exact .fatal _
    · rw [runAnswer_next h]
      exact .ran _ _ (fun _ => partialOps_wf _ _ _ _ _) (by simp) (by simp)
  | clearBwFrame =>
    obtain ⟨hb, h⟩ := whenInitialized_next h
    rw [runAnswer_next h]
    exact ⟨hb.1, .ran _ _ (fun _ => clearOps_wf _ _) (by simp) (by simp)⟩
  | clearRedFrame =>
    obtain ⟨hb, h⟩ := whenInitialized_next h
    rw [runAnswer_next h]
    exact ⟨hb.1, .ran _ _ (fun _ => clearOps_wf _ _) (by simp) (by simp)⟩
  | displayFrame =>
    obtain ⟨hb, h⟩ := whenInitialized_next h
    rw [runAnswer_next h]
    exact ⟨hb.1, .ran _ _ (fun _ => displayOps_wf _) (by simp) (by simp)⟩
  | displayPartialFrame =>
    obtain ⟨hb, h⟩ := whenInitialized_next h
    rw [runAnswer_next h]
    exact ⟨hb.1, .ran _ _ (fun _ => displayOps_wf _) (by simp) (by simp)⟩
  | fbNew p on =>
    obtain ⟨hf, h⟩ := whenFree_next h
    cases h
    exact ⟨hf, .constructed p _⟩
  | fbSetRotation p r =>
    obtain ⟨hf, h⟩ := whenFree_next h
    obtain ⟨hv, h⟩ := withPlane_next h
    cases h
    exact ⟨hf, .rotated p r hv⟩
  | fbSetPixel p x y on =>
    obtain ⟨hf, h⟩ := whenFree_next h
    obtain ⟨hv, h⟩ := withPlane_next h
    refine ⟨hf, ?_⟩
    split at h
    · cases h; exact .result _
    · obtain ⟨b, ha, hb, h⟩ := withByte_next h
      rw [storeByte_ok s _ ha] at h
      cases h
      exact .stored _ b _ ha hb
  | fbClear p on =>
    obtain ⟨hf, h⟩ := whenFree_next h
    obtain ⟨hv, h⟩ := withPlane_next h
    cases h
    exact ⟨hf, .cleared p _ hv⟩
  | fbOutsideBounds x y w h' r => exact result _ h
  | fbRotate x y w h' r => exact result _ h
  | fbAddress x y w h' r =>
    obtain ⟨hf, h⟩ := whenFree_next h
    split at h
    · cases h
    · cases h
      exact ⟨hf, .result _⟩
  | fbBufferLength w h' => exact result _ h
  | fbRead p =>
    obtain ⟨hf, h⟩ := whenFree_next h
    obtain ⟨-, bs, -, h⟩ := withPlaneBytes_next h
    cases h
    exact ⟨hf, .result _⟩
  | swReset => exact emitCommand_effect h
  | driverControl => exact emitCommand_effect h
  | dataEntryMode => exact emitCommand_effect h
  | setRamXPos xs xe => exact emitCommand_effect h
  | setRamYPos ys ye => exact emitCommand_effect h
  | setRamXCounter x => exact emitCommand_effect h
  | setRamYCounter y => exact emitCommand_effect h
  | borderWaveformControl => exact emitCommand_effect h
  | tempControl => exact emitCommand_effect h
  | writeBwData bs => exact emitCommand_effect h
  | writeRedData bs => exact emitCommand_effect h
  | updateDisplayCtrl2 f => exact emitCommand_effect h
  | masterActivate => exact emitCommand_effect h
  | muCmd op => exact micro _ (fun hw m hm => by rw [List.mem_singleton.mp hm]; exact hw) h
  | muData bs => exact micro _ (fun _ => by simp [MicroOp.wf]) h
  | muCmdData op bs => exact micro _ (fun hw m hm => by rw [List.mem_singleton.mp hm]; exact hw) h
  | muRepeat v n => exact micro _ (fun _ => by simp [MicroOp.wf]) h
  | muWaitIdle => exact micro _ (fun _ => by simp [MicroOp.wf]) h
  | muReset => exact micro _ (fun _ => by simp [MicroOp.wf]) h

/-! ### What a step can do -/

/-- Everything a step that answers a next state can have done: it waited for the host, went on with the operation in
progress, or took a frame and executed it. -/
theorem step_cases {s t : State} (h : step s = .next t) :
    s.fault = none ∧
      ((s.running = none ∧ s.frames = [] ∧ t = s) ∨
        (∃ r, s.running = some r ∧ t = resume r s) ∨
        (s.running = none ∧ ∃ f rest i, s.frames = f :: rest ∧ decode f = .ok i ∧
          exec i { s with frames := rest } = .next t)) := by
  unfold step fetch at h
  cases hf : s.fault with
  | some f =>
    rw [hf] at h
    cases h
  | none =>
    refine ⟨rfl, ?_⟩
    rw [hf] at h
    cases hr : s.running with
    | some r =>
      rw [hr] at h
      cases h
      exact .inr (.inl ⟨r, rfl, rfl⟩)
    | none =>
      rw [hr] at h
      cases hfr : s.frames with
      | nil =>
        rw [hfr] at h
        cases h
        exact .inl ⟨rfl, rfl, rfl⟩
      | cons f rest =>
        rw [hfr] at h
        cases hd : decode f with
        | error e =>
          simp only [hd] at h
          cases h
        | ok i =>
          simp only [hd] at h
          exact .inr (.inr ⟨rfl, f, rest, i, rfl, hd, h⟩)

end Sys2Proof.Machine
end

