-- ==== Sys2Proof/Laws/PerInstr.lean ====
section
/-! SUPPORT. Per instruction: the frame the encoder writes has the length that the decoder tells from its selector
and length field (spec/30_encoding.md R102, R109). -/

namespace Sys2Proof.Laws.FrameLength

/-- A frame's length can be told from its first bytes (R109). -/
def Statement (i : Instr) : Prop :=
  i.wf = true → ∀ f, encode i = .frame f → frameLength f = some f.length

theorem u32At_le32 (v : U32) (bs : List Byte) : u32At (le32 v ++ bs) 0 = v := by
  simp only [u32At, le32, List.cons_append, List.nil_append, List.getD_cons_succ, List.getD_cons_zero]
  ext i hi
  simp only [BitVec.getElem_append, BitVec.getElem_extractLsb']
  split
  · simp [← BitVec.getLsbD_eq_getElem]
  · split
    · simp only [← BitVec.getLsbD_eq_getElem]; congr 1; omega
    · split
      · simp only [← BitVec.getLsbD_eq_getElem]; congr 1; omega
      · simp only [← BitVec.getLsbD_eq_getElem]; congr 1; omega

/-- The length told from a `buf` operand alone. -/
theorem buf_length (sel : Selector) (n : Nat) (hsel : sel.operands = (n, true)) (hcode : selectorOf sel.code = some sel)
    (ops : List Byte) (hops : ops.length = n) (buf : Buf) (hb : buf.wf = true) :
    frameLength (sel.code :: (ops ++ encodeBuf buf)) = some (sel.code :: (ops ++ encodeBuf buf)).length := by
  simp only [frameLength, hcode, hsel, List.drop_left' hops]
  cases buf with
  | inline bs =>
    have hl : bs.length < 2 ^ 32 := by simpa [Buf.wf] using hb
    have h4 : ∀ v : U32, (le32 v).length = 4 := fun _ => rfl
    simp [encodeBuf, u32At_le32, hops, h4]
    omega
  | plane p => cases p <;> simp [encodeBuf, hops] <;> omega

theorem init : Statement .init := by
  intro _ f h; cases h; rfl
theorem setRamWindow (sx sy ex ey : U32) : Statement (.setRamWindow sx sy ex ey) := by
  intro _ f h; cases h; rfl
theorem setRamCounter (x y : U32) : Statement (.setRamCounter x y) := by
  intro _ f h; cases h; rfl
theorem updateBwFrame (buf : Buf) : Statement (.updateBwFrame buf) := by
  intro hw f h; cases h
  exact buf_length .updateBwFrame 0 rfl (by decide) [] rfl buf hw
theorem updateRedFrame (buf : Buf) : Statement (.updateRedFrame buf) := by
  intro hw f h; cases h
  exact buf_length .updateRedFrame 0 rfl (by decide) [] rfl buf hw
theorem updatePartialBwFrame (x y w h : U32) (buf : Buf) : Statement (.updatePartialBwFrame x y w h buf) := by
  intro hw f hf; cases hf
  have := buf_length .updatePartialBwFrame 16 rfl (by decide) (le32 x ++ le32 y ++ le32 w ++ le32 h) rfl buf hw
  simpa [List.append_assoc, Selector.code] using this
theorem clearBwFrame : Statement .clearBwFrame := by
  intro _ f h; cases h; rfl
theorem clearRedFrame : Statement .clearRedFrame := by
  intro _ f h; cases h; rfl
theorem displayFrame : Statement .displayFrame := by
  intro _ f h; cases h; rfl
theorem displayPartialFrame : Statement .displayPartialFrame := by
  intro _ f h; cases h; rfl
theorem fbNew (p : Plane) (on : Bool) : Statement (.fbNew p on) := by
  intro _ f h; cases h; rfl
theorem fbSetRotation (p : Plane) (r : Rot) : Statement (.fbSetRotation p r) := by
  intro _ f h; cases h; rfl
theorem fbSetPixel (p : Plane) (x y : I32) (on : Bool) : Statement (.fbSetPixel p x y on) := by
  intro _ f h; cases h; rfl
theorem fbClear (p : Plane) (on : Bool) : Statement (.fbClear p on) := by
  intro _ f h; cases h; rfl
theorem fbOutsideBounds (x y : I32) (w h : U16) (r : Rot) : Statement (.fbOutsideBounds x y w h r) := by
  intro _ f hf; cases hf; rfl
theorem fbRotate (x y : I32) (w h : U16) (r : Rot) : Statement (.fbRotate x y w h r) := by
  intro _ f hf; cases hf; rfl
theorem fbAddress (x y : I32) (w h : U16) (r : Rot) : Statement (.fbAddress x y w h r) := by
  intro _ f hf; cases hf; rfl
theorem fbBufferLength (w h : U16) : Statement (.fbBufferLength w h) := by
  intro _ f hf; cases hf; rfl
theorem fbRead (p : Plane) : Statement (.fbRead p) := by
  intro _ f h; cases h; rfl
theorem swReset : Statement .swReset := by intro _ f h; cases h
theorem driverControl : Statement .driverControl := by intro _ f h; cases h
theorem dataEntryMode : Statement .dataEntryMode := by intro _ f h; cases h
theorem setRamXPos (xs xe : Byte) : Statement (.setRamXPos xs xe) := by intro _ f h; cases h
theorem setRamYPos (ys ye : U16) : Statement (.setRamYPos ys ye) := by intro _ f h; cases h
theorem setRamXCounter (x : Byte) : Statement (.setRamXCounter x) := by intro _ f h; cases h
theorem setRamYCounter (y : U16) : Statement (.setRamYCounter y) := by intro _ f h; cases h
theorem borderWaveformControl : Statement .borderWaveformControl := by intro _ f h; cases h
theorem tempControl : Statement .tempControl := by intro _ f h; cases h
theorem writeBwData (bytes : List Byte) : Statement (.writeBwData bytes) := by intro _ f h; cases h
theorem writeRedData (bytes : List Byte) : Statement (.writeRedData bytes) := by intro _ f h; cases h
theorem updateDisplayCtrl2 (flag : Byte) : Statement (.updateDisplayCtrl2 flag) := by intro _ f h; cases h
theorem masterActivate : Statement .masterActivate := by intro _ f h; cases h
theorem muCmd (op : Byte) : Statement (.muCmd op) := by intro _ f h; cases h
theorem muData (bytes : List Byte) : Statement (.muData bytes) := by intro _ f h; cases h
theorem muCmdData (op : Byte) (bytes : List Byte) : Statement (.muCmdData op bytes) := by intro _ f h; cases h
theorem muRepeat (v : Byte) (n : Nat) : Statement (.muRepeat v n) := by intro _ f h; cases h
theorem muWaitIdle : Statement .muWaitIdle := by intro _ f h; cases h
theorem muReset : Statement .muReset := by intro _ f h; cases h

end Sys2Proof.Laws.FrameLength
end

