-- ==== Sys2Proof/Laws/Stream.lean ====
section
/-! SUPPORT. The stream and the commands of a list of events. -/

namespace Sys2Proof.Machine

/-- The level of DC after a list of events, from a level on (R74): a failed drive leaves it. -/
def dcAfter : Level → List Event → Level
  | dc, [] => dc
  | dc, e :: es =>
    match e with
    | .line .dc v => dcAfter (.of v) es
    | .line .csN _ | .line .rstN _ | .xfer _ | .delay _ | .busy _ | .fail _ => dcAfter dc es

theorem streamFrom_append (dc : Level) (es fs : List Event) :
    streamFrom dc (es ++ fs) = streamFrom dc es ++ streamFrom (dcAfter dc es) fs := by
  induction es generalizing dc with
  | nil => rfl
  | cons e es ih =>
    cases e with
    | line l v => cases l <;> simp [streamFrom, dcAfter, ih]
    | xfer bs => simp [streamFrom, dcAfter, ih]
    | delay n => simp [streamFrom, dcAfter, ih]
    | busy v => simp [streamFrom, dcAfter, ih]
    | fail a => simp [streamFrom, dcAfter, ih]

theorem dcAfter_append (dc : Level) (es fs : List Event) : dcAfter dc (es ++ fs) = dcAfter (dcAfter dc es) fs := by
  induction es generalizing dc with
  | nil => rfl
  | cons e es ih =>
    cases e with
    | line l v => cases l <;> simp [dcAfter, ih]
    | xfer bs => simp [dcAfter, ih]
    | delay n => simp [dcAfter, ih]
    | busy v => simp [dcAfter, ih]
    | fail a => simp [dcAfter, ih]

/-- The events of one bracket (R130). -/
theorem bracket_events (dc : Bool) (xs : List (List Byte)) :
    (bracket dc xs).map PortStep.event =
      .line .dc dc :: .line .csN false :: (xs.map Event.xfer ++ [.line .csN true]) := by
  simp [bracket, PortStep.event, Function.comp_def]

/-- One bracket sends the bytes of its transfers, whatever DC was before it. -/
theorem streamFrom_bracket (lev : Level) (dc : Bool) (xs : List (List Byte)) (es : List Event) :
    streamFrom lev ((bracket dc xs).map PortStep.event ++ es) =
      xs.flatten.map (fun b => (Level.of dc, b)) ++ streamFrom (.of dc) es := by
  rw [bracket_events]
  have : ∀ ys : List (List Byte), streamFrom (.of dc) (ys.map Event.xfer ++ (.line .csN true :: es)) =
      ys.flatten.map (fun b => (Level.of dc, b)) ++ streamFrom (.of dc) es := by
    intro ys
    induction ys with
    | nil => rfl
    | cons y ys ih => simp [streamFrom, ih]
  simpa [streamFrom] using this xs

/-- A command byte and the data after it are one command; what follows them is read on its own. -/
theorem splitCommands_command (op : Byte) (d : List Byte) (st : List (Level × Byte)) :
    splitCommands ((.low, op) :: (d.map (fun b => (Level.high, b)) ++ st)) =
      ([], (op, d ++ (splitCommands st).1) :: (splitCommands st).2) := by
  have : ∀ d : List Byte, splitCommands (d.map (fun b => (Level.high, b)) ++ st) =
      (d ++ (splitCommands st).1, (splitCommands st).2) := by
    intro d
    induction d with
    | nil => rfl
    | cons b d ih => simp [splitCommands, ih]
  simp [splitCommands, this]

theorem bracketState_append (es fs : List Event) :
    bracketState (es ++ fs) = fs.foldl bracketStep (bracketState es) := by
  simp [bracketState]

theorem noFail_append (es fs : List Event) : noFail (es ++ fs) = (noFail es && noFail fs) := by
  simp [noFail]

end Sys2Proof.Machine
end

