-- ==== Sys2Proof/Machine/Text.lean ====
section
/-! DEFINITION. The written forms: host operations in the assembler syntax of spec/30_encoding.md R106, commands as
`CMD` lines (R92, R108), and events in the notation of spec/10_state.md R25. Where R106 leaves a
choice, coordinates and sizes are decimal and bytes hexadecimal (DESIGN CHOICE, log entry 15). -/

namespace Sys2Proof.Machine

/-- A written text. -/
abbrev Text := List Char

/-- One digit, decimal or hexadecimal in capitals. -/
def digit (n : Nat) : Char :=
  match n with
  | 0 => '0' | 1 => '1' | 2 => '2' | 3 => '3' | 4 => '4' | 5 => '5' | 6 => '6' | 7 => '7'
  | 8 => '8' | 9 => '9' | 10 => 'A' | 11 => 'B' | 12 => 'C' | 13 => 'D' | 14 => 'E' | _ => 'F'

/-- A number in decimal, in at most the given number of digits. -/
def decimalIn : Nat → Nat → Text
  | 0, _ => []
  | k + 1, n => if n < 10 then [digit n] else decimalIn k (n / 10) ++ [digit (n % 10)]

/-- A number in decimal (R106): a number below 10^(n+1) has at most n + 1 digits. -/
def decimal (n : Nat) : Text := decimalIn (n + 1) n

/-- A `u32` in decimal: at most ten digits. -/
def u32Text (v : U32) : Text := decimalIn 10 v.toNat

/-- An `i32` in decimal, a minus sign before a negative number. -/
def i32Text (v : I32) : Text :=
  if v.toInt < 0 then '-' :: decimalIn 10 v.toInt.natAbs else decimalIn 10 v.toInt.natAbs

/-- A byte in hexadecimal, `0x` and two digits. -/
def byteText (b : Byte) : Text := ['0', 'x', digit (b.toNat / 16), digit (b.toNat % 16)]

/-- Texts with a separator between them. -/
def joinWith (sep : Text) : List Text → Text
  | [] => []
  | [t] => t
  | t :: ts => t ++ sep ++ joinWith sep ts

/-- A byte list in brackets, as R92 writes a payload and R106 an inline buffer. -/
def bytesText (bs : List Byte) : Text := '[' :: (joinWith [',', ' '] (bs.map byteText) ++ [']'])

/-- A `plane` operand. -/
def planeText : Plane → Text
  | .bw => ['B', 'W']
  | .red => ['R', 'E', 'D']

/-- A `rot` operand. -/
def rotText : Rot → Text
  | .r0 => ['R', 'O', 'T', '0']
  | .r90 => ['R', 'O', 'T', '9', '0']
  | .r180 => ['R', 'O', 'T', '1', '8', '0']
  | .r270 => ['R', 'O', 'T', '2', '7', '0']

/-- A `bit` operand, and a driven or sampled level. -/
def bitText (b : Bool) : Text := [if b then '1' else '0']

/-- A `buf` operand. -/
def bufText : Buf → Text
  | .inline bs => ['b', 'y', 't', 'e', 's'] ++ bytesText bs
  | .plane p => '@' :: planeText p

/-- The mnemonic of a selector (R102). -/
def selectorText : Selector → String
  | .init => "INIT"
  | .setRamWindow => "SET_RAM_WINDOW"
  | .setRamCounter => "SET_RAM_COUNTER"
  | .updateBwFrame => "UPDATE_BW_FRAME"
  | .updateRedFrame => "UPDATE_RED_FRAME"
  | .updatePartialBwFrame => "UPDATE_PARTIAL_BW_FRAME"
  | .clearBwFrame => "CLEAR_BW_FRAME"
  | .clearRedFrame => "CLEAR_RED_FRAME"
  | .displayFrame => "DISPLAY_FRAME"
  | .displayPartialFrame => "DISPLAY_PARTIAL_FRAME"
  | .fbNew => "FB_NEW"
  | .fbSetRotation => "FB_SET_ROTATION"
  | .fbSetPixel => "FB_SET_PIXEL"
  | .fbClear => "FB_CLEAR"
  | .fbOutsideBounds => "FB_OUTSIDE_BOUNDS"
  | .fbRotate => "FB_ROTATE"
  | .fbAddress => "FB_ADDRESS"
  | .fbBufferLength => "FB_BUFFER_LENGTH"
  | .fbRead => "FB_READ"

/-- The operands of an instruction as they are written, in the order of R102. -/
def operandTexts : Instr → List Text
  | .setRamWindow sx sy ex ey => [u32Text sx, u32Text sy, u32Text ex, u32Text ey]
  | .setRamCounter x y => [u32Text x, u32Text y]
  | .updateBwFrame buf | .updateRedFrame buf => [bufText buf]
  | .updatePartialBwFrame x y w h buf => [u32Text x, u32Text y, u32Text w, u32Text h, bufText buf]
  | .fbNew p on | .fbClear p on => [planeText p, bitText on]
  | .fbSetRotation p r => [planeText p, rotText r]
  | .fbSetPixel p x y on => [planeText p, i32Text x, i32Text y, bitText on]
  | .fbOutsideBounds x y w h r | .fbRotate x y w h r | .fbAddress x y w h r =>
    [i32Text x, i32Text y, decimalIn 5 w.toNat, decimalIn 5 h.toNat, rotText r]
  | .fbBufferLength w h => [decimalIn 5 w.toNat, decimalIn 5 h.toNat]
  | .fbRead p => [planeText p]
  | .init | .clearBwFrame | .clearRedFrame | .displayFrame | .displayPartialFrame => []
  | .swReset | .driverControl | .dataEntryMode | .setRamXPos _ _ | .setRamYPos _ _ | .setRamXCounter _
  | .setRamYCounter _ | .borderWaveformControl | .tempControl | .writeBwData _ | .writeRedData _
  | .updateDisplayCtrl2 _ | .masterActivate => []
  | .muCmd _ | .muData _ | .muCmdData _ _ | .muRepeat _ _ | .muWaitIdle | .muReset => []

/-- A host operation as it is written (R106); there is no such form for what the host cannot issue. -/
def hostText (i : Instr) : Option Text :=
  i.selector?.map fun c =>
    match operandTexts i with
    | [] => (selectorText c).toList
    | ts => (selectorText c).toList ++ ' ' :: joinWith [',', ' '] ts

/-- A command as a `CMD` line: no brackets where there is no payload (R92). -/
def commandText (c : Byte × List Byte) : Text :=
  ['C', 'M', 'D', ' '] ++ byteText c.1 ++ (if c.2 = [] then [] else ' ' :: bytesText c.2)

/-- The name of a line. -/
def lineText : Line → Text
  | .csN => ['C', 'S', '_', 'N']
  | .dc => ['D', 'C']
  | .rstN => ['R', 'S', 'T', '_', 'N']

/-- A port action as R25 names it. -/
def actionText : PortAction → Text
  | .drive l v => ['D', 'r', 'i', 'v', 'e', '('] ++ lineText l ++ [','] ++ bitText v ++ [')']
  | .xfer bs => ['X', 'f', 'e', 'r', '('] ++ bytesText bs ++ [')']
  | .sampleBusy => ['S', 'a', 'm', 'p', 'l', 'e', 'B', 'u', 's', 'y']

/-- An event as R25 writes it (R108). -/
def eventText : Event → Text
  | .line l v => ['L', 'i', 'n', 'e', '('] ++ lineText l ++ [','] ++ bitText v ++ [')']
  | .xfer bs => ['X', 'f', 'e', 'r', '('] ++ bytesText bs ++ [')']
  | .delay n => ['D', 'e', 'l', 'a', 'y', '('] ++ decimal n ++ [')']
  | .busy v => ['B', 'u', 's', 'y', '('] ++ bitText v ++ [')']
  | .fail a => ['F', 'a', 'i', 'l', '('] ++ actionText a ++ [')']

end Sys2Proof.Machine
end

