-- ==== Sys2Proof/Tests/Slice0.lean ====
section
/-! SUPPORT. Tests. Expected values come from spec/95_test_vectors.md and from the rules named; the `witness_`
theorems show, for each statement with premises, a state and operands that meet them. -/

namespace Sys2Proof.Tests

open Sys2Proof Sys2Proof.Machine

/-! ### Helpers -/

/-- The next state of an answer. -/
def next? : Answer → Option State
  | .next t => some t
  | .fault _ => none
  | .refused _ => none

theorem eq_next {a : Answer} {t : State} (h : next? a = some t) : a = .next t := by
  cases a <;> simp_all [next?]

/-- The refusal of an answer. -/
def refusal? : Answer → Option Refusal
  | .refused r => some r
  | .next _ => none
  | .fault _ => none

/-- After INIT, with an empty trace. -/
def booted : State :=
  { State.reset with phase := .initialized, ctrlUndef := false, result := some .ok,
                     lines := { csN := .high, dc := .high, rstN := .high } }

/-- A constructed plane of which the byte at one address is stored. -/
def withByteAt (p : Plane) (r : Rot) (i : Nat) (v : Byte) : State :=
  { booted.setPlaneRegs p { valid := true, rot := r } with mem := [(fb p i, v)] }

/-- A constructed plane, every byte `v`. -/
def withPlaneOf (p : Plane) (v : Byte) : State :=
  { booted.setPlaneRegs p { valid := true, rot := .r0 } with mem := Memory.fill [] (fb p 0) 5000 v }

/-- The events an instruction appends. -/
def eventsOf (i : Instr) (s : State) : Option (List Event) := (next? (exec i s)).map State.trace

/-- The commands an instruction emits. -/
def commandsOf (i : Instr) (s : State) : Option (List (Byte × List Byte)) := (eventsOf i s).map cmdsOf

/-! ### WellFormed -/

theorem test_wf_mu_cmd_refuses_unassigned_opcode : (Instr.muCmd 0x10).wf = false := by decide

theorem test_wf_mu_cmd_data_refuses_unassigned_opcode : (Instr.muCmdData 0x25 [0x00]).wf = false := by decide

theorem test_wf_micro_op_refuses_unassigned_opcode :
    (MicroOp.cmd 0x00).wf = false ∧ (MicroOp.cmdData 0xFF []).wf = false := by decide

/-- A buffer too long for its `u32` length field (R101), in each of the three operations that take one. -/
theorem test_wf_refuses_long_buffers (x y w h : U32) :
    let buf := Buf.inline (List.replicate 4294967296 0)
    (Instr.updateBwFrame buf).wf = false ∧ (Instr.updateRedFrame buf).wf = false ∧
      (Instr.updatePartialBwFrame x y w h buf).wf = false := by
  simp only [Instr.wf, Buf.wf, List.length_replicate]
  decide

theorem test_wf_accepts : (Instr.muCmd 0x12).wf = true ∧ (Instr.updateBwFrame (.inline [0xAA])).wf = true := by
  decide

/-! ### Decoding (R100 to R104; spec/95 T-EN) -/

theorem test_decode_init : decode [0x01] = .ok .init := by decide
theorem test_decode_set_ram_window :
    decode [0x02, 0, 0, 0, 0, 0, 0, 0, 0, 0x0A, 0, 0, 0, 0x14, 0, 0, 0] = .ok (.setRamWindow 0 0 10 20) := by decide
theorem test_decode_set_ram_counter :
    decode [0x03, 0xC7, 0, 0, 0, 0x02, 0x01, 0, 0] = .ok (.setRamCounter 199 258) := by decide
theorem test_decode_update_bw : decode [0x04, 0x00, 0x01, 0, 0, 0, 0xAA] = .ok (.updateBwFrame (.inline [0xAA])) := by
  decide
theorem test_decode_update_red : decode [0x05, 0x02] = .ok (.updateRedFrame (.plane .red)) := by decide
/-- T-EN-6. -/
theorem test_decode_update_partial :
    decode ([0x06, 0x08, 0, 0, 0, 0x10, 0, 0, 0, 0x10, 0, 0, 0, 0x08, 0, 0, 0, 0x00, 0x10, 0, 0, 0] ++
        List.replicate 16 0x55) =
      .ok (.updatePartialBwFrame 8 16 16 8 (.inline (List.replicate 16 0x55))) := by decide
theorem test_decode_without_operands :
    decode [0x07] = .ok .clearBwFrame ∧ decode [0x08] = .ok .clearRedFrame ∧ decode [0x09] = .ok .displayFrame ∧
      decode [0x0A] = .ok .displayPartialFrame := by decide
theorem test_decode_fb_new : decode [0x10, 0x00, 0x01] = .ok (.fbNew .bw true) := by decide
theorem test_decode_fb_set_rotation : decode [0x11, 0x00, 0x01] = .ok (.fbSetRotation .bw .r90) := by decide
/-- T-EN-7. -/
theorem test_decode_fb_set_pixel :
    decode [0x12, 0x00, 0x03, 0, 0, 0, 0xFF, 0xFF, 0xFF, 0xFF, 0x01] = .ok (.fbSetPixel .bw 3 (-1) true) := by decide
theorem test_decode_fb_clear : decode [0x13, 0x01, 0x00] = .ok (.fbClear .red false) := by decide
/-- T-EN-8. -/
theorem test_decode_fb_outside_bounds :
    decode [0x14, 0x0A, 0, 0, 0, 0, 0, 0, 0, 0x10, 0, 0x08, 0, 0x01] = .ok (.fbOutsideBounds 10 0 16 8 .r90) := by
  decide
theorem test_decode_fb_rotate :
    decode [0x15, 0x2C, 0x01, 0, 0, 0, 0, 0, 0, 0xC8, 0, 0xC8, 0, 0x02] = .ok (.fbRotate 300 0 200 200 .r180) := by
  decide
theorem test_decode_fb_address :
    decode [0x16, 0, 0, 0, 0, 0x05, 0, 0, 0, 0x00, 0x01, 0xC8, 0, 0x03] = .ok (.fbAddress 0 5 256 200 .r270) := by
  decide
theorem test_decode_fb_buffer_length : decode [0x17, 0xC8, 0, 0x00, 0x01] = .ok (.fbBufferLength 200 256) := by decide
theorem test_decode_fb_read : decode [0x18, 0x01] = .ok (.fbRead .red) := by decide

/-- T-BC-1 to T-BC-13, at values that show the byte order of each field. -/
theorem test_decode_commands :
    decodeCommand 0x12 [] = .ok .swReset ∧ decodeCommand 0x01 [0xC7, 0x00, 0x00] = .ok .driverControl ∧
      decodeCommand 0x11 [0x03] = .ok .dataEntryMode ∧
      decodeCommand 0x44 [0x00, 0x18] = .ok (.setRamXPos 0x00 0x18) ∧
      decodeCommand 0x45 [0x2C, 0x01, 0x58, 0x02] = .ok (.setRamYPos 300 600) ∧
      decodeCommand 0x4E [0x18] = .ok (.setRamXCounter 0x18) ∧
      decodeCommand 0x4F [0x02, 0x01] = .ok (.setRamYCounter 258) ∧
      decodeCommand 0x3C [0x05] = .ok .borderWaveformControl ∧ decodeCommand 0x18 [0x80] = .ok .tempControl ∧
      decodeCommand 0x24 [0x7F, 0xFF] = .ok (.writeBwData [0x7F, 0xFF]) ∧
      decodeCommand 0x26 [0x10] = .ok (.writeRedData [0x10]) ∧
      decodeCommand 0x22 [0xF7] = .ok (.updateDisplayCtrl2 0xF7) ∧ decodeCommand 0x20 [] = .ok .masterActivate := by
  decide

/-- R105. -/
theorem test_micro_codes :
    encode (.muCmd 0x12) = .micro 0 ∧ encode (.muData []) = .micro 1 ∧ encode (.muCmdData 0x18 [0x80]) = .micro 2 ∧
      encode (.muRepeat 0xFF 2) = .micro 3 ∧ encode .muWaitIdle = .micro 4 ∧ encode .muReset = .micro 5 := by decide

/-- Words of the opcode table: host frames with the operand bytes the table leaves out zero; an opcode that is no
selector is none (R98, R103). -/
theorem test_table_words :
    decodeTableWord 8 0x01 = some .init ∧ decodeTableWord 24 0x010011 = some (.fbSetRotation .bw .r90) ∧
      decodeTableWord 8 0x02 = some (.setRamWindow 0 0 0 0) ∧
      decodeTableWord 8 0x04 = some (.updateBwFrame (.inline [])) ∧ decodeTableWord 8 0x44 = none := by decide

/-- R102, R109: a source that is a plane, and one that is illegal, has no bytes after it; the length is checked first
(R247). -/
theorem test_buf_source_stands_alone :
    decode [0x04, 0x03, 0xAA] = .error .badFrameLength ∧ decode [0x05, 0x01, 0xAA] = .error .badFrameLength ∧
      decode [0x05, 0x03] = .error .badOperand ∧ frameLength [0x04, 0x03] = some 2 := by decide

/-- R103, at the edges of the assigned ranges. -/
theorem test_unassigned_selectors :
    selectorOf 0x00 = none ∧ selectorOf 0x01 = some .init ∧ selectorOf 0x0A = some .displayPartialFrame ∧
      selectorOf 0x0B = none ∧ selectorOf 0x0F = none ∧ selectorOf 0x10 = some .fbNew ∧
      selectorOf 0x18 = some .fbRead ∧ selectorOf 0x19 = none ∧ selectorOf 0xFF = none := by decide

/-! ### Written forms (R92, R106, R25) -/

theorem test_text :
    hostText (.fbSetPixel .bw 3 (-1) true) = some "FB_SET_PIXEL BW, 3, -1, 1".toList ∧
      hostText (.updateBwFrame (.plane .red)) = some "UPDATE_BW_FRAME @RED".toList ∧
      commandText (0x45, [0x00, 0x00, 0xC7, 0x00]) = "CMD 0x45 [0x00, 0x00, 0xC7, 0x00]".toList ∧
      commandText (0x20, []) = "CMD 0x20".toList ∧
      eventText (.fail (.xfer [0x20])) = "Fail(Xfer([0x20]))".toList ∧
      eventText (.delay 10) = "Delay(10)".toList := by decide +kernel

/-- R241. -/
theorem test_error_code : Result.errorCode .err = some 1 ∧ Result.errorCode .ok = none := by decide

/-! ### Micro-operations (T-CI) -/

/-- T-CI-1. -/
theorem test_mu_cmd :
    eventsOf (.muCmd 0x20) State.reset = some [.line .dc false, .line .csN false, .xfer [0x20], .line .csN true] := by
  decide

/-- T-CI-19: the release of CS_N fails. -/
theorem test_mu_cmd_release_fails :
    (next? (exec (.muCmd 0x12) { State.reset with failIn := [false, false, false, true] })).map
        (fun t => (t.trace, t.lines.csN, t.lines.dc, t.result)) =
      some ([.line .dc false, .line .csN false, .xfer [0x12], .fail (.drive .csN true)], .undef, .low, some .err) := by
  decide

/-- T-CI-2. -/
theorem test_mu_data_empty :
    eventsOf (.muData []) State.reset = some [.line .dc true, .line .csN false, .line .csN true] := by decide

/-- T-CI-7. -/
theorem test_chunks : (chunks (List.replicate 8193 0xAA)).map List.length = [4096, 4096, 1] := by decide +kernel

/-- T-CI-8. -/
theorem test_mu_cmd_data :
    eventsOf (.muCmdData 0x18 [0x80]) State.reset =
      some [.line .dc false, .line .csN false, .xfer [0x18], .line .csN true,
            .line .dc true, .line .csN false, .xfer [0x80], .line .csN true] := by decide

/-- T-CI-10. -/
theorem test_mu_repeat :
    eventsOf (.muRepeat 0xFF 2) State.reset =
      some [.line .dc true, .line .csN false, .xfer [0xFF], .xfer [0xFF], .line .csN true] := by decide

/-- T-CI-14. -/
theorem test_mu_wait_idle :
    eventsOf .muWaitIdle { State.reset with busyIn := [true, true, false] } =
      some [.busy true, .busy true, .busy false] := by decide

/-- T-CI-20. -/
theorem test_mu_wait_idle_fails :
    eventsOf .muWaitIdle { State.reset with failIn := [true] } = some [.fail .sampleBusy] := by decide

/-- T-CI-16: CS_N and DC are not driven. -/
theorem test_mu_reset :
    (next? (exec .muReset State.reset)).map (fun t => (t.trace, t.lines)) =
      some ([.line .rstN false, .delay 10, .line .rstN true, .delay 10],
            { csN := .undef, dc := .undef, rstN := .high }) := by decide

/-! ### Controller commands (T-BC) -/

/-- The stream of a command run on its own, from T-BC. -/
def streamOf (i : Instr) : Option (List (Level × Byte)) := (eventsOf i State.reset).map stream

theorem test_commands_without_fields :
    streamOf .swReset = some [(.low, 0x12)] ∧
      streamOf .driverControl = some [(.low, 0x01), (.high, 0xC7), (.high, 0x00), (.high, 0x00)] ∧
      streamOf .dataEntryMode = some [(.low, 0x11), (.high, 0x03)] ∧
      streamOf .borderWaveformControl = some [(.low, 0x3C), (.high, 0x05)] ∧
      streamOf .tempControl = some [(.low, 0x18), (.high, 0x80)] ∧
      streamOf .masterActivate = some [(.low, 0x20)] := by decide

theorem test_commands_with_fields :
    streamOf (.setRamXPos 0x00 0x18) = some [(.low, 0x44), (.high, 0x00), (.high, 0x18)] ∧
      streamOf (.setRamYPos 0 199) =
        some [(.low, 0x45), (.high, 0x00), (.high, 0x00), (.high, 0xC7), (.high, 0x00)] ∧
      streamOf (.setRamXCounter 0) = some [(.low, 0x4E), (.high, 0x00)] ∧
      streamOf (.setRamYCounter 258) = some [(.low, 0x4F), (.high, 0x02), (.high, 0x01)] ∧
      streamOf (.writeBwData [0x7F, 0xFF]) = some [(.low, 0x24), (.high, 0x7F), (.high, 0xFF)] ∧
      streamOf (.writeRedData [0x10]) = some [(.low, 0x26), (.high, 0x10)] ∧
      streamOf (.updateDisplayCtrl2 0xF7) = some [(.low, 0x22), (.high, 0xF7)] := by decide

/-! ### Sequencer operations (T-CP) -/

/-- T-CP-P5 and T-CP-I1. -/
theorem test_init :
    (next? (exec .init State.reset)).map (fun t => (t.trace.length, t.phase, t.ctrlUndef, t.result, t.lines)) =
      some (75, .initialized, false, some .ok, { csN := .high, dc := .high, rstN := .high }) ∧
    commandsOf .init State.reset =
      some [(0x12, []), (0x01, [0xC7, 0x00, 0x00]), (0x11, [0x03]), (0x44, [0x00, 0x18]),
            (0x45, [0x00, 0x00, 0xC7, 0x00]), (0x4E, [0x00]), (0x4F, [0x00, 0x00]), (0x3C, [0x05]),
            (0x18, [0x80])] := by decide +kernel

/-- T-CP-I3: BUSY reads 1 for ever at the second wait. -/
theorem test_init_hangs :
    (next? (exec .init { State.reset with busyIn := [false], busyRest := true })).map
        (fun t => (t.trace.length, t.trace.getLast?, t.phase, t.ctrlUndef, t.running.isSome)) =
      some (10, some (.busy true), .uninitialized, true, true) := by decide +kernel

/-- T-CP-W6: the X end byte wraps to 0. -/
theorem test_set_ram_window :
    commandsOf (.setRamWindow 0 0 2048 300) booted =
      some [(0x44, [0x00, 0x00]), (0x45, [0x00, 0x00, 0x2C, 0x01])] := by decide

/-- T-CP-W5, T-CP-W4: X is reported first. -/
theorem test_set_ram_window_fatal :
    (next? (exec (.setRamWindow 10 5 5 0) booted)).map (fun t => (t.fault, t.trace)) =
      some (some (.windowOrder .x 10 5), []) ∧
    (next? (exec (.setRamWindow 0 5 10 5) booted)).map State.fault = some (some (.windowOrder .y 5 5)) := by decide

/-- T-CP-K2, T-CP-K4. -/
theorem test_set_ram_counter :
    commandsOf (.setRamCounter 7 258) booted = some [(0x4E, [0x00]), (0x4F, [0x02, 0x01])] ∧
      commandsOf (.setRamCounter 2048 65536) booted = some [(0x4E, [0x00]), (0x4F, [0x00, 0x00])] := by decide

/-- T-CP-U2, T-CP-P8 on an inline buffer. -/
theorem test_update_frames :
    (next? (exec (.updateBwFrame (.inline [0xAA])) booted)).map (fun t => (t.trace.length, t.phase)) =
      some (40, .frameStaged) ∧
    (commandsOf (.updateRedFrame (.inline [0xAA])) booted).map List.getLast? = some (some (0x26, [0xAA])) := by
  decide +kernel

/-- T-CP-P12, T-CP-P11: the phase is checked before the plane. -/
theorem test_update_frames_refused :
    refusal? (exec (.updateBwFrame (.plane .bw)) State.reset) = some .uninitialized ∧
      refusal? (exec (.updateRedFrame (.plane .bw)) booted) = some (.noPlane .bw) := by decide

/-- T-CP-Q1. -/
theorem test_update_partial :
    commandsOf (.updatePartialBwFrame 8 16 16 8 (.inline (List.replicate 16 0x55))) booted =
      some [(0x44, [0x01, 0x03]), (0x45, [0x10, 0x00, 0x18, 0x00]), (0x4E, [0x01]), (0x4F, [0x10, 0x00]),
            (0x24, List.replicate 16 0x55)] := by decide +kernel

/-- T-CP-Q4 to T-CP-Q10. -/
theorem test_update_partial_fatal :
    partialFault 0 0 0 8 0 = some (.windowOrder .x 0 0) ∧ partialFault 8 16 16 0 0 = some (.windowOrder .y 16 16) ∧
      partialFault 192 0 16 8 16 = some (.partialBounds 192 0 16 8) ∧
      partialFault 4 0 8 8 8 = some (.partialMisaligned 4) ∧
      partialFault 8 16 16 8 15 = some (.partialLength 15 16) ∧
      partialFault 196 0 8 8 8 = some (.partialBounds 196 0 8 8) ∧
      partialFault 0 0 0 0 0 = some (.windowOrder .x 0 0) ∧ partialFault 0 0 200 200 5000 = none := by decide

/-- T-CP-C1, T-CP-C2: the opcode in its own transaction, then the white byte 5000 times. -/
theorem test_clear_frames :
    clearOps (.writeBwData []) .bw = fullSelect ++ [.cmd 0x24, .repeatByte 0xFF 5000] ∧
      clearOps (.writeRedData []) .red = fullSelect ++ [.cmd 0x26, .repeatByte 0x00 5000] := by decide

/-- T-CP-P10: the opcode transfer of CLEAR_RED_FRAME fails (spec/95 P5). -/
theorem test_clear_red_fails :
    (next? (exec .clearRedFrame { booted with failIn := List.replicate 34 false ++ [true] })).map
        (fun t => ((t.trace.length, t.trace.getLast?), t.phase, t.ctrlUndef, t.result, t.lines.csN)) =
      some ((35, some (.fail (.xfer [0x26]))), .initialized, true, some .err, .low) := by decide +kernel

/-- T-CP-D1. -/
theorem test_display_frame :
    (next? (exec .displayFrame { booted with busyIn := [true, true, false] })).map
        (fun t => (t.trace.length, t.phase, cmdsOf t.trace)) =
      some (15, .activated, [(0x22, [0xF7]), (0x20, [])]) := by decide

/-- T-CP-D2: the flag is the open parameter. -/
theorem test_display_partial_frame :
    (next? (exec .displayPartialFrame booted)).map (fun t => (t.trace.length, t.phase)) = some (13, .activated) ∧
      commandsOf .displayPartialFrame booted = some [(0x22, [Config.partialRefreshFlag]), (0x20, [])] :=
  ⟨by decide, rfl⟩

/-- T-CP-F1: after a fatal fault no frame is executed, INIT included. -/
theorem test_fault_is_sticky :
    ((next? (exec (.setRamWindow 0 0 0 20) booted)).map fun t =>
        match step { t with frames := [[0x01]] } with
        | .fault f => some f
        | .next _ => none
        | .refused _ => none) =
      some (some (.halted (.windowOrder .x 0 0))) := by decide

/-- SELECT_FULL_WINDOW's commands are those of T-CP-W8 and T-CP-K3 (R107). -/
theorem test_select_full_window :
    selectFullWindow.map (fun i => commandsOf i booted) =
      [some [(0x44, [0x00, 0x18]), (0x45, [0x00, 0x00, 0xC7, 0x00])],
       some [(0x4E, [0x00]), (0x4F, [0x00, 0x00])]] := by decide

/-! ### Planes and the address translator (T-AE) -/

/-- W3, T-AE-C1: from reset, INIT not needed. -/
theorem test_fb_new :
    (next? (exec (.fbNew .bw false) State.reset)).map
        (fun t => ((t.mem.read 0, t.mem.read 4999, t.mem.read 5000), t.bw, t.red.valid, t.phase)) =
      some ((some 0xFF, some 0xFF, none), { valid := true, rot := .r0 }, false, .uninitialized) := by decide +kernel

/-- T-AE-C5, first half. -/
theorem test_fb_set_rotation :
    (next? (exec (.fbSetRotation .bw .r270) (withByteAt .bw .r0 0 0xFF))).map State.bw =
      some { valid := true, rot := .r270 } := by decide

/-- W3 and T-AE-P2: on clears the bit of an inverted plane, and sets it in the other. -/
theorem test_fb_set_pixel :
    (next? (exec (.fbSetPixel .bw 0 0 true) (withByteAt .bw .r0 0 0xFF))).map (fun t => t.mem.read 0) =
        some (some 0x7F) ∧
      (next? (exec (.fbSetPixel .red 3 0 true) (withByteAt .red .r0 0 0x00))).map (fun t => t.mem.read 5000) =
        some (some 0x10) ∧
      (next? (exec (.fbSetPixel .bw 10 20 true) (withByteAt .bw .r90 272 0xFF))).map (fun t => t.mem.read 272) =
        some (some 0xEF) := by decide +kernel

/-- T-AE-P3, T-AE-P6. -/
theorem test_fb_set_pixel_outside :
    next? (exec (.fbSetPixel .red (-1) 0 true) (withByteAt .red .r0 0 0x00)) = some (withByteAt .red .r0 0 0x00) ∧
      refusal? (exec (.fbSetPixel .bw 0 0 true) (withByteAt .red .r0 0 0x00)) = some (.noPlane .bw) := by
  decide +kernel

/-- T-AE-C3 (the colour is off), T-AE-C5: the rotation stays. -/
theorem test_fb_clear :
    (next? (exec (.fbClear .red false) (withByteAt .red .r270 0 0xAB))).map
        (fun t => (t.mem.read 5000, t.mem.read 9999, t.red.rot)) = some (some 0x00, some 0x00, .r270) := by
  decide +kernel

/-- T-AE-H6, on a plane of 0xFF. -/
theorem test_fb_read :
    (next? (exec (.fbRead .red) (withPlaneOf .red 0xFF))).map State.result =
      some (some (.bytes (List.replicate 5000 0xFF))) := by
  have h : (withPlaneOf .red 0xFF).planeBytes? .red = some (List.replicate 5000 0xFF) :=
    Memory.readRange_fill (by simp [Memory.wf]) 0xFF (by decide)
  have e (bs : List Byte) (hb : (withPlaneOf .red 0xFF).planeBytes? .red = some bs) :
      exec (.fbRead .red) (withPlaneOf .red 0xFF) = .next ((withPlaneOf .red 0xFF).setResult (.bytes bs)) := by
    have hv : ((withPlaneOf .red 0xFF).planeRegs .red).valid = true := rfl
    have hf : (withPlaneOf .red 0xFF).Free := ⟨rfl, rfl⟩
    simp only [exec, execFbRead, withPlaneBytes_ok hv hb, whenFree_of_free hf, resultAnswer]
  rw [e _ h]
  rfl

/-- T-AE-A4, A6, A10, A12, N3, N4, N5, and W (8, 2). -/
theorem test_address :
    address 199 199 200 200 .r0 = some (4999, 0x01) ∧ address 10 20 200 200 .r90 = some (272, 0x10) ∧
      address 10 20 200 200 .r180 = some (4498, 0x04) ∧ address 10 20 200 200 .r270 = some (4727, 0x08) ∧
      address 3 5 16 8 .r90 = some (7, 0x20) ∧ address 3 5 16 8 .r180 = some (5, 0x08) ∧
      address 3 5 16 8 .r270 = some (8, 0x04) ∧ address 8 2 9 3 .r0 = some (5, 0x80) := by decide

/-- T-AE-B1 to B9. -/
theorem test_outside_bounds :
    outsideBounds (-1) 0 200 200 .r0 = true ∧ outsideBounds 0 (-1) 200 200 .r180 = true ∧
      outsideBounds 200 0 200 200 .r0 = true ∧ outsideBounds 199 199 200 200 .r90 = false ∧
      outsideBounds 199 199 200 200 .r270 = false ∧ outsideBounds 10 0 16 8 .r0 = false ∧
      outsideBounds 10 0 16 8 .r90 = true ∧ outsideBounds 0 10 16 8 .r90 = false ∧
      outsideBounds 0 0 0 8 .r0 = true := by decide

/-- T-AE-H1, H2, H4, H5, R1, R2. -/
theorem test_pure_functions :
    [Instr.fbOutsideBounds 10 0 16 8 .r90, .fbAddress 0 0 200 200 .r0, .fbBufferLength 200 200,
        .fbBufferLength 65535 65535, .fbRotate 10 20 200 200 .r90, .fbRotate 300 0 200 200 .r180].map
        (fun i => (next? (exec i State.reset)).map State.result) =
      [some (some (.bool true)), some (some (.addr 0 0x80)), some (some (.len 5000)),
       some (some (.len 536862720)), some (some (.pair 179 10)), some (some (.pair (-101) 199))] := by decide

/-- T-AE-H3. -/
theorem test_fb_address_outside : refusal? (exec (.fbAddress 200 0 200 200 .r0) State.reset) = some .outOfBounds := by
  decide

/-- R187 and R63: pad bits take the fill value too. -/
theorem test_fill_bytes : fillByte .bw false = 0xFF ∧ fillByte .red true = 0xFF := by decide

/-! ### Witnesses: the premises of each statement are met -/

/-- After INIT, the port action after the next `k` fails. -/
def failingAt (k : Nat) : State := { booted with failIn := List.replicate k false ++ [true] }

/-- A block in a wait of INIT, BUSY reading 1. -/
def waiting : State :=
  { State.reset with running := some { rest := [.waitIdle, .cmd 0x12], done := .initDone }, busyRest := true }

theorem witness_StepRunsDecodedFrame :
    let s := { State.reset with frames := [[0x01]] }
    (s.Free ∧ s.frames = [0x01] :: [] ∧ decode [0x01] = .ok .init) ∧
      State.reset.Free ∧ decodeTableWord 8 0x01 = some .init := by decide

theorem witness_StepRefusesOrWaits :
    (∀ f ∈ [[0x01, 0x00], [0x0B], [0x04, 0x03]],
      let s := { State.reset with frames := [f] }
      s.Free ∧ s.frames = f :: []) ∧
    decode [0x01, 0x00] = .error .badFrameLength ∧ decode [0x0B] = .error .badSelector ∧
      decode [0x04, 0x03] = .error .badOperand ∧ State.reset.Free ∧ State.reset.frames = [] := by decide

theorem witness_HaltedBlockTakesNoStep :
    ({ booted with fault := some (.partialMisaligned 4) } : State).fault = some (.partialMisaligned 4) := rfl

/-- Both sides of the equivalence occur. -/
theorem witness_UnassignedSelectorsRefused :
    decode [0x0B] = .error .badSelector ∧ decode [0x0A] = .ok .displayPartialFrame ∧
      decode [0x19, 0x00] = .error .badSelector ∧ decode [0x18, 0x00] = .ok (.fbRead .bw) := by decide

theorem witness_FrameLengthIsTold :
    (frameLength [0x01, 0x00] = some 1 ∧ [0x01, 0x00].length ≠ 1) ∧
      (frameLength [0x04, 0x00, 0x02, 0, 0, 0, 0xAA] = some 8 ∧
        [0x04, 0x00, 0x02, 0, 0, 0, 0xAA].length ≠ 8) ∧
      decode [0x05, 0x02] = .ok (.updateRedFrame (.plane .red)) ∧ decode [0x04, 0x03] = .error .badOperand := by decide

/-- T-EN-12 to T-EN-15: the first illegal value of each type, and the last legal one. -/
theorem witness_IllegalOperandsRefused :
    2 ≤ (2 : Byte).toNat ∧ 4 ≤ (4 : Byte).toNat ∧ 3 ≤ (3 : Byte).toNat ∧
      (List.replicate 9 (0 : Byte)).length = 9 ∧ (List.replicate 12 (0 : Byte)).length = 12 ∧
      (List.replicate 16 (0 : Byte)).length = 16 ∧
      decode [0x10, 0x01, 0x01] = .ok (.fbNew .red true) ∧ decode [0x11, 0x01, 0x03] = .ok (.fbSetRotation .red .r270) ∧
      decode [0x04, 0x02] = .ok (.updateBwFrame (.plane .red)) := by decide

theorem witness_DecodeReadsBackEveryFrame :
    (Instr.setRamCounter 199 258).wf = true ∧
      encode (.setRamCounter 199 258) = .frame [0x03, 0xC7, 0, 0, 0, 0x02, 0x01, 0, 0] ∧
      (Instr.updateBwFrame (.inline [0xAA])).wf = true ∧
      encode (.updateBwFrame (.inline [0xAA])) = .frame [0x04, 0x00, 0x01, 0, 0, 0, 0xAA] := by decide

theorem witness_DecodedFrameIsTheOnlyEncoding :
    decode [0x10, 0x01, 0x01] = .ok (.fbNew .red true) := by decide

theorem witness_ChunksCoverInOrder : 0 + 1 < (chunks (List.replicate 4097 0x00)).length := by decide +kernel

theorem witness_MuCmdPerforms :
    (State.reset.Free ∧ State.reset.DrawsOk 4) ∧
      (failingAt 3).Free ∧ ((cmdEvents 0x20)[3]?).bind Event.action? = some (.drive .csN true) ∧
        (failingAt 3).DrawsOk 3 ∧ (failingAt 3).failIn[3]? = some true := by decide

theorem witness_MuDataPerforms :
    (State.reset.Free ∧ State.reset.DrawsOk (dataEvents [0xAA]).length) ∧
      (failingAt 2).Free ∧ ((dataEvents [0xAA])[2]?).bind Event.action? = some (.xfer [0xAA]) ∧
        (failingAt 2).DrawsOk 2 ∧ (failingAt 2).failIn[2]? = some true := by decide

theorem witness_MuCmdDataPerforms :
    (State.reset.Free ∧ State.reset.DrawsOk (cmdEvents 0x18 ++ dataEvents [0x80]).length) ∧
      (failingAt 4).Free ∧
        ((cmdEvents 0x18 ++ dataEvents [0x80])[4]?).bind Event.action? = some (.drive .dc true) ∧
        (failingAt 4).DrawsOk 4 ∧ (failingAt 4).failIn[4]? = some true := by decide

theorem witness_MuRepeatPerforms :
    (State.reset.Free ∧ State.reset.DrawsOk (repeatEvents 0xFF 2).length) ∧
      (failingAt 0).Free ∧ ((repeatEvents 0xFF 2)[0]?).bind Event.action? = some (.drive .dc true) ∧
        (failingAt 0).DrawsOk 0 ∧ (failingAt 0).failIn[0]? = some true := by decide

theorem witness_MuWaitIdlePolls :
    (let s := { booted with busyIn := [true, false, true] }
     s.Free ∧ s.busyIn = List.replicate 1 true ++ false :: [true] ∧ s.DrawsOk 2) ∧
    (booted.Free ∧ booted.busyIn = List.replicate 0 true ∧ booted.busyRest = false ∧ booted.DrawsOk 1) ∧
    (let s := { failingAt 1 with busyIn := [true, false] }
     s.Free ∧ s.busyIn = List.replicate 1 true ++ [false] ∧ s.DrawsOk 1 ∧ s.failIn[1]? = some true) ∧
    (let s := { booted with busyRest := true }
     s.Free ∧ s.busyIn = List.replicate 0 true ∧ s.busyRest = true ∧ s.DrawsOk 1) := by decide

theorem witness_MuResetPerforms :
    (State.reset.Free ∧ State.reset.DrawsOk 2) ∧ ((failingAt 0).Free ∧ (failingAt 0).failIn[0]? = some true) ∧
      (failingAt 1).Free ∧ (failingAt 1).DrawsOk 1 ∧ (failingAt 1).failIn[1]? = some true := by decide

theorem witness_FixedCommandsEmit :
    (State.reset.Free ∧ State.reset.DrawsOk (commandEvents 0x01 [0xC7, 0x00, 0x00]).length) ∧
      (failingAt 6).Free ∧
        ((commandEvents 0x01 [0xC7, 0x00, 0x00])[6]?).bind Event.action? = some (.xfer [0xC7, 0x00, 0x00]) ∧
        (failingAt 6).DrawsOk 6 ∧ (failingAt 6).failIn[6]? = some true := by decide

theorem witness_FieldCommandsEmit :
    (State.reset.Free ∧ State.reset.DrawsOk (commandEvents 0x44 [0x00, 0x18]).length) ∧
      (failingAt 7).Free ∧ ((commandEvents 0x44 [0x00, 0x18])[7]?).bind Event.action? = some (.drive .csN true) ∧
        (failingAt 7).DrawsOk 7 ∧ (failingAt 7).failIn[7]? = some true := by decide

/-- For INIT with 1, 0 and 1 samples of 1: none fails, one in store and the rest at the level 0; the action of event 5,
the second sample, fails; BUSY stays at 1 from that event on, the second sample. -/
theorem witness_InitProgramsTheController :
    (let s := { State.reset with busyIn := [true, false, false, true, false, true], busyRest := true }
     s.Free ∧ s.Samples (initEvents 1 0 1) ∧ s.DrawsOk (drawsIn (initEvents 1 0 1)) ∧ s.BusyEventuallyIdle 3) ∧
    (let s := { State.reset with busyIn := [true, false, false, true] }
     s.Free ∧ s.Samples (initEvents 1 0 1) ∧ s.DrawsOk (drawsIn (initEvents 1 0 1)) ∧ s.BusyEventuallyIdle 3) ∧
    (let s := { failingAt 3 with busyIn := [true] }
     s.Free ∧ ((initEvents 1 0 1)[5]?).bind Event.draw? = some .sampleBusy ∧
       s.Samples ((initEvents 1 0 1).take 5) ∧ s.DrawsOk (drawsIn ((initEvents 1 0 1).take 5)) ∧
       s.failIn[drawsIn ((initEvents 1 0 1).take 5)]? = some true) ∧
    let s := { booted with busyIn := [true], busyRest := true }
    s.Free ∧ (initEvents 1 0 1)[5]? = some (.busy false) ∧ samplesIn ((initEvents 1 0 1).take 5) = s.busyIn ∧
      s.busyRest = true ∧ s.DrawsOk (drawsIn ((initEvents 1 0 1).take 5) + 1) := by decide

/-- The window clauses at their boundary: start one below the end, and equal to it. -/
theorem witness_SetRamWindowSendsOrFaults :
    booted.Booted ∧
    ((4 : U32).toNat < (5 : U32).toNat ∧ (0 : U32).toNat < (1 : U32).toNat) ∧
    (5 : U32).toNat ≤ (5 : U32).toNat ∧
    ((0 : U32).toNat < (1 : U32).toNat ∧ (5 : U32).toNat ≤ (5 : U32).toNat) ∧
    (State.reset.Free ∧ State.reset.phase = .uninitialized) := by decide

theorem witness_SetRamCounterSends :
    booted.Booted ∧ booted.DrawsOk 16 ∧ State.reset.Free ∧ State.reset.phase = .uninitialized := by decide

/-- A plane of one value holds that value's bytes. -/
theorem withPlaneOf_holds (v : Byte) :
    (withPlaneOf .bw v).Booted ∧ (withPlaneOf .bw v).mem.wf ∧
      BufHolds (withPlaneOf .bw v) (.plane .bw) (List.replicate 5000 v) := by
  refine ⟨⟨⟨rfl, rfl⟩, Phase.noConfusion⟩, Memory.fill_wf (by simp [Memory.wf]) v (fb_zero_le .bw), rfl,
    List.length_replicate, fun i hi => ?_⟩
  have h : (withPlaneOf .bw v).mem.read (fb .bw i) = some v := by
    show Memory.read (Memory.fill [] (fb .bw 0) 5000 v) (fb .bw i) = some v
    rw [Memory.read_fill, if_pos]
    simp only [fb, planeIndex, Config.planeBytes_eq] at *
    omega
  rw [h, List.getElem?_replicate, if_pos (by simpa using hi)]

theorem witness_UpdateFramesSendTheBuffer :
    (booted.Booted ∧ booted.mem.wf ∧ BufHolds booted (.inline []) []) ∧
      ((withPlaneOf .bw 0xFF).Booted ∧ (withPlaneOf .bw 0xFF).mem.wf ∧
        BufHolds (withPlaneOf .bw 0xFF) (.plane .bw) (List.replicate 5000 0xFF)) ∧
      (booted.planeRegs .red).valid = false :=
  ⟨⟨by decide, by simp [Memory.wf, booted, State.reset], rfl⟩, withPlaneOf_holds 0xFF, rfl⟩

/-- T-CP-Q2 with the plane as buffer: the whole panel. -/
theorem witness_PartialUpdateSendsTheRectangle :
    ((withPlaneOf .bw 0xFF).Booted ∧ (withPlaneOf .bw 0xFF).mem.wf ∧
      BufHolds (withPlaneOf .bw 0xFF) (.plane .bw) (List.replicate 5000 0xFF)) ∧
    0 < (200 : U32).toNat ∧ (0 : U32).toNat + (200 : U32).toNat ≤ 200 ∧ (0 : U32).toNat % 8 = 0 ∧
      (List.replicate 5000 (0xFF : Byte)).length = ((200 : U32).toNat + 7) / 8 * (200 : U32).toNat :=
  ⟨withPlaneOf_holds 0xFF, by decide, by decide, by decide, by rw [List.length_replicate]; decide⟩

/-- One rectangle and buffer for each of the five checks, at the boundary of the check (T-CP-Q4, Q5, Q6, Q7, Q8). -/
theorem witness_PartialUpdateFaultsInOrder :
    booted.Booted ∧ booted.mem.wf ∧ BufHolds booted (.inline [0x00]) [0x00] ∧
    (0 : U32).toNat = 0 ∧ ((1 : U32).toNat ≠ 0 ∧ (0 : U32).toNat = 0) ∧
    200 < (192 : U32).toNat + (9 : U32).toNat ∧ 200 < (0 : U32).toNat + (201 : U32).toNat ∧
    ((7 : U32).toNat + (193 : U32).toNat ≤ 200 ∧ (7 : U32).toNat % 8 ≠ 0) ∧
    [(0x00 : Byte)].length ≠ ((9 : U32).toNat + 7) / 8 * (1 : U32).toNat :=
  ⟨by decide, by simp [Memory.wf, booted, State.reset], rfl, by decide, by decide, by decide, by decide, by decide,
    by decide⟩

theorem witness_ClearFramesFloodWhite :
    booted.Booted ∧ (∀ n, booted.DrawsOk n) ∧ State.reset.Free ∧ State.reset.phase = .uninitialized ∧
      (failingAt 34).Booted ∧
      ((fullSelectEvents ++ cmdEvents 0x26 ++ repeatEvents 0x00 0)[34]?).bind Event.action? = some (.xfer [0x26]) ∧
      (failingAt 34).DrawsOk 34 ∧ (failingAt 34).failIn[34]? = some true :=
  ⟨by decide, fun n => by simp [State.DrawsOk, booted, State.reset], by decide, rfl, by decide, by decide, by decide,
    by decide⟩

/-- For a refresh with one sample of 1: none fails, both in store or the second at the level 0; the transfer of
MASTER_ACTIVATE fails, and the second sample; BUSY stays at 1 from that sample on. -/
theorem witness_DisplayFramesActivate :
    (let s := { booted with busyIn := [true, false, true], busyRest := true }
     s.Booted ∧ s.Samples (displayEvents 0xF7 1) ∧ s.DrawsOk (drawsIn (displayEvents 0xF7 1)) ∧
       s.BusyEventuallyIdle 1) ∧
    (let s := { booted with busyIn := [true] }
     s.Booted ∧ s.Samples (displayEvents 0xF7 1) ∧ s.DrawsOk (drawsIn (displayEvents 0xF7 1)) ∧
       s.BusyEventuallyIdle 1) ∧
    (let s := failingAt 10
     s.Booted ∧ ((displayEvents 0xF7 1)[10]?).bind Event.draw? = some (.xfer [0x20]) ∧
       s.Samples ((displayEvents 0xF7 1).take 10) ∧ s.DrawsOk (drawsIn ((displayEvents 0xF7 1).take 10)) ∧
       s.failIn[drawsIn ((displayEvents 0xF7 1).take 10)]? = some true) ∧
    (let s := { failingAt 13 with busyIn := [true] }
     s.Booted ∧ ((displayEvents 0xF7 1)[13]?).bind Event.draw? = some .sampleBusy ∧
       s.Samples ((displayEvents 0xF7 1).take 13) ∧ s.DrawsOk (drawsIn ((displayEvents 0xF7 1).take 13)) ∧
       s.failIn[drawsIn ((displayEvents 0xF7 1).take 13)]? = some true) ∧
    (let s := { booted with busyIn := [true], busyRest := true }
     s.Booted ∧ (displayEvents 0xF7 1)[13]? = some (.busy false) ∧
       samplesIn ((displayEvents 0xF7 1).take 13) = s.busyIn ∧ s.busyRest = true ∧
       s.DrawsOk (drawsIn ((displayEvents 0xF7 1).take 13) + 1)) ∧
    State.reset.Free ∧ State.reset.phase = .uninitialized :=
  ⟨by decide, by decide, by decide, by decide, by decide, by decide⟩

theorem witness_SequencerRefusedBeforeInit :
    State.reset.Free ∧ Instr.displayFrame.needsInit = true ∧ State.reset.phase = .uninitialized ∧
      Instr.init.needsInit = false := by decide

theorem witness_UnconstructedPlaneRefused :
    booted.Free ∧ (Instr.fbRead .bw).usesPlane = some .bw ∧ (booted.planeRegs .bw).valid = false ∧
      (Instr.updateRedFrame (.plane .bw)).usesPlane = some .bw ∧ booted.phase ≠ .uninitialized := by decide

theorem witness_plane_operations :
    (State.reset.Free ∧ (State.reset.planeRegs .red).valid = false) ∧
      (withPlaneOf .bw 0xFF).Free ∧ ((withPlaneOf .bw 0xFF).planeRegs .bw).valid = true :=
  ⟨by decide, ⟨rfl, rfl⟩, rfl⟩

theorem witness_FbNewConstructsThePlane : State.reset.Free := by decide

theorem witness_FbSetRotationSetsRot :
    ((withPlaneOf .bw 0xFF).Free ∧ ((withPlaneOf .bw 0xFF).planeRegs .bw).valid = true) ∧
      State.reset.Free ∧ (State.reset.planeRegs .bw).valid = false :=
  ⟨witness_plane_operations.2, by decide⟩

/-- The last pixel inside, and the first outside. -/
theorem witness_FbSetPixelWritesOneBit :
    let s := withByteAt .bw .r0 4999 0xFF
    s.Free ∧ (s.planeRegs .bw).valid = true ∧
      address (199 : I32).toInt (199 : I32).toInt 200 200 (s.planeRegs .bw).rot = some (4999, 0x01) ∧
      s.mem.read (fb .bw 4999) = some 0xFF ∧
      outsideBounds (200 : I32).toInt (199 : I32).toInt 200 200 (s.planeRegs .bw).rot = true ∧
      outsideBounds (-1 : I32).toInt (0 : I32).toInt 200 200 (s.planeRegs .bw).rot = true ∧
      (s.planeRegs .red).valid = false := by decide

theorem witness_SetPixelUpdatesThePicture :
    ∃ t, exec (.fbSetPixel .bw 0 0 true) (withByteAt .bw .r0 0 0xFF) = .next t := ⟨_, rfl⟩

theorem witness_FbClearFillsThePlane :
    ((withPlaneOf .bw 0xFF).Free ∧ ((withPlaneOf .bw 0xFF).planeRegs .bw).valid = true) ∧
      State.reset.Free ∧ (State.reset.planeRegs .bw).valid = false :=
  ⟨witness_plane_operations.2, by decide⟩

theorem witness_FillColoursEveryPixel :
    (∃ t, exec (.fbNew .red true) State.reset = .next t ∧ outsideBounds 199 199 200 200 (t.planeRegs .red).rot = false) ∧
      ∃ t, exec (.fbClear .bw false) (withByteAt .bw .r90 0 0x00) = .next t ∧
        outsideBounds 0 199 200 200 (t.planeRegs .bw).rot = false :=
  ⟨⟨_, rfl, by decide⟩, _, rfl, by decide⟩

theorem witness_FbReadReturnsTheBytes :
    ((withPlaneOf .bw 0x3C).Free ∧ (withPlaneOf .bw 0x3C).mem.wf ∧
      BufHolds (withPlaneOf .bw 0x3C) (.plane .bw) (List.replicate 5000 0x3C)) ∧
      State.reset.Free ∧ (State.reset.planeRegs .bw).valid = false :=
  ⟨⟨⟨rfl, rfl⟩, (withPlaneOf_holds 0x3C).2⟩, by decide⟩

/-- Inside and outside at the edge of a 16 by 8 buffer at 90° (T-AE-N6 and T-AE-N8). -/
theorem witness_PureFunctionsReturnTheFormulas :
    State.reset.Free ∧
      (outsideBounds (7 : I32).toInt (15 : I32).toInt (16 : U16).toNat (8 : U16).toNat .r90 = false ∧
        rotateCoordinates (7 : I32).toInt (15 : I32).toInt (16 : U16).toNat (8 : U16).toNat .r90 =
          (((0 : Nat) : Int), ((7 : Nat) : Int))) ∧
      outsideBounds (8 : I32).toInt (15 : I32).toInt (16 : U16).toNat (8 : U16).toNat .r90 = true := by decide

theorem witness_AddressesAreInRangeAndDistinct :
    outsideBounds 199 199 200 200 .r270 = false ∧ outsideBounds 7 15 16 8 .r90 = false ∧
      address 7 15 16 8 .r90 = address 7 15 16 8 .r90 := by decide

theorem witness_FbOperationsTouchNoPort :
    (Instr.fbNew .bw true).isFb = true ∧ ∃ t, exec (.fbNew .bw true) State.reset = .next t := ⟨rfl, _, rfl⟩

theorem witness_PortOperationsIgnoreThePlanes :
    Instr.swReset.isFb = false ∧ Instr.swReset.usesPlane = none ∧ ∃ t, exec .swReset State.reset = .next t :=
  ⟨rfl, rfl, _, rfl⟩

/-- Each of the three clauses has its change: a byte, a rotation, and validity. -/
theorem witness_OnlyPlaneOperationsWritePlanes :
    (∃ t, exec (.fbSetPixel .bw 0 0 true) (withByteAt .bw .r0 0 0xFF) = .next t ∧
      t.mem.read 0 ≠ (withByteAt .bw .r0 0 0xFF).mem.read 0) ∧
    (∃ t, exec (.fbSetRotation .bw .r90) (withByteAt .bw .r0 0 0xFF) = .next t ∧
      (t.planeRegs .bw).rot ≠ ((withByteAt .bw .r0 0 0xFF).planeRegs .bw).rot) ∧
    ∃ t, exec (.fbNew .bw true) State.reset = .next t ∧
      (t.planeRegs .bw).valid ≠ (State.reset.planeRegs .bw).valid :=
  ⟨⟨_, rfl, by decide⟩, ⟨_, rfl, by decide⟩, _, rfl, by decide⟩

theorem witness_TraceOnlyGrows :
    (∃ t, step { State.reset with frames := [[0x07]], phase := .activated } = .next t) ∧
      ∃ t, exec .muReset State.reset = .next t := ⟨⟨_, rfl⟩, _, rfl⟩

/-- CTRL_UNDEF is cleared by an INIT, by one gone on with, and set by a failure and by one in an operation gone on
with. -/
theorem witness_OnlyInitDefinesTheController :
    ((next? (exec .init State.reset)).map State.ctrlUndef = some false ∧ State.reset.ctrlUndef = true) ∧
    ((next? (exec (.muCmd 0x20) (failingAt 0))).map State.ctrlUndef = some true ∧ (failingAt 0).ctrlUndef = false) ∧
    (let s := { waiting with busyRest := false }
     s.running.isSome = true ∧ s.ctrlUndef = true ∧ (next? (step s)).map State.ctrlUndef = some false) ∧
    (let s := { waiting with ctrlUndef := false, failIn := [true] }
     s.running.isSome = true ∧ (next? (step s)).map State.ctrlUndef = some true) := by decide +kernel

/-- DISPLAY_FRAME in its wait after one sample of 1. -/
def pausedDisplay : State :=
  { booted with
    trace := commandEvents 0x22 [0xF7] ++ cmdEvents 0x20 ++ [.busy true]
    lines := { csN := .high, dc := .low, rstN := .high }
    running := some { rest := [.waitIdle], done := .okPhase .activated }
    busyRest := true }

/-- The same gone on with, the next sample reading 0. -/
def displayDone : State :=
  { pausedDisplay with
    trace := pausedDisplay.trace ++ [.busy false], running := none, phase := .activated, busyRest := false }

/-- DISPLAY_FRAME pauses in its wait, and goes on to its end. -/
theorem goesOn_display :
    exec .displayFrame { booted with busyRest := true } = .next pausedDisplay ∧ GoesOn pausedDisplay displayDone :=
  ⟨eq_next (by decide),
    .step { rest := [.waitIdle], done := .okPhase .activated } [] false [] (.here _) rfl (eq_next (by decide))⟩

/-- An operation that completes, one that completes after a pause, a fault, an error, and a wait that has not ended. -/
theorem witness_PhaseFollowsTheTable :
    ((next? (exec .displayFrame booted)).map
        (fun t => (t.fault, t.running, t.result, t.phase)) = some (none, none, some .ok, .activated)) ∧
    ((∃ s, exec .displayFrame s = .next pausedDisplay) ∧ GoesOn pausedDisplay displayDone ∧
      displayDone.fault = none ∧ displayDone.running = none ∧ displayDone.result = some .ok) ∧
    ((next? (exec (.setRamWindow 0 0 0 0) booted)).map (fun t => t.fault.isSome) = some true) ∧
    ((next? (exec .displayFrame (failingAt 2))).map (fun t => (t.result, t.phase)) =
      some (some .err, .initialized)) ∧
    pausedDisplay.running.isSome = true :=
  ⟨by decide, ⟨⟨_, goesOn_display.1⟩, goesOn_display.2, rfl, rfl, rfl⟩, by decide, by decide, rfl⟩

theorem witness_TransportErrorEffects :
    (∃ t, exec (.muCmd 0x20) (failingAt 0) = .next t ∧
      t.trace = (failingAt 0).trace ++ [.fail (.drive .dc false)] ∧ noFail [.fail (.drive .dc false)] = false) ∧
    let s := { waiting with failIn := [true] }
    ∃ r t, s.running = some r ∧ step s = .next t ∧ t.trace = s.trace ++ [.fail .sampleBusy] :=
  ⟨⟨_, rfl, rfl, rfl⟩, _, _, rfl, rfl, rfl⟩

theorem witness_FatalChangesFaultAlone :
    ∃ t, exec (.setRamWindow 0 0 0 20) booted = .next t ∧ t.fault ≠ none := ⟨_, rfl, by decide⟩

/-- In clause order: a stuck wait; an instruction without a wait; a wait that ends on a sample in store, and on the
level; nothing left to do; a sample that fails; an instruction that pauses; a step that pauses again. -/
theorem witness_StuckBusyWaitsForever :
    (waiting.fault = none ∧ waiting.running = some { rest := [.waitIdle, .cmd 0x12], done := .initDone } ∧
      waiting.busyIn = [] ∧ waiting.busyRest = true ∧ waiting.PortsWork) ∧
    (Instr.clearBwFrame.waits = false ∧ ∃ t, exec (.setRamCounter 0 0) booted = .next t) ∧
    (let s := { waiting with busyIn := [true, false, true] }
     s.busyIn = List.replicate 1 true ++ false :: [true] ∧ s.DrawsOk 2) ∧
    (let s := { waiting with busyIn := [true], busyRest := false }
     s.busyIn = List.replicate 1 true ∧ s.busyRest = false ∧ s.DrawsOk 2) ∧
    ({ waiting with running := some { rest := [], done := .initDone } } : State).fault = none ∧
    (let s := { waiting with busyIn := [true, false], failIn := [false, true] }
     s.busyIn = List.replicate 1 true ++ [false] ∧ s.DrawsOk 1 ∧ s.failIn[1]? = some true) ∧
    ((∃ s, exec .displayFrame s = .next pausedDisplay) ∧ pausedDisplay.running.isSome = true) ∧
    ∃ t, step waiting = .next t ∧ t.running = waiting.running :=
  ⟨by decide, ⟨rfl, _, rfl⟩, by decide, by decide, rfl, by decide, ⟨⟨_, goesOn_display.1⟩, rfl⟩, _, rfl, rfl⟩

/-- Run through, and with a pause. -/
theorem witness_OperationsEmitTheirCommands :
    opcodesOf .displayFrame = some [0x22, 0x20] ∧
      (∃ t, exec .displayFrame booted = .next t ∧ GoesOn t t ∧ t.Completed) ∧
      (∃ s, exec .displayFrame s = .next pausedDisplay) ∧ GoesOn pausedDisplay displayDone ∧ displayDone.Completed :=
  ⟨rfl, ⟨_, rfl, .here _, by decide⟩, ⟨_, goesOn_display.1⟩, goesOn_display.2, by decide⟩

theorem witness_SelectFullWindowIsFullSelect : booted.Booted ∧ booted.DrawsOk 32 := by decide

theorem witness_WithoutFailureTheStreamArrives :
    noFail (commandEvents 0x44 [0x00, 0x18]) = true ∧
      streamFrom .undef (commandEvents 0x44 [0x00, 0x18]) = [(.low, 0x44), (.high, 0x00), (.high, 0x18)] := by decide

/-- A block with a constructed plane, and a frame that clears it. -/
theorem witness_StepKeepsPlanesStored :
    let s := { withPlaneOf .bw 0xFF with frames := [[0x13, 0x00, 0x01]] }
    s.MemInv ∧ ∃ t, step s = .next t := by
  have read (b : Nat) : (withPlaneOf .bw 0xFF).mem.read b = if b < 5000 then some 0xFF else none := by
    show Memory.read (Memory.fill [] (fb .bw 0) 5000 0xFF) b = _
    rw [Memory.read_fill]
    simp [fb, planeIndex, Memory.read]
  refine ⟨⟨(withPlaneOf_holds 0xFF).2.1, fun p => ⟨fun hv i hi => ?_, fun hv i hi => ?_⟩⟩, _, rfl⟩
  · cases p with
    | bw =>
      show ((withPlaneOf .bw 0xFF).mem.read (fb .bw i)).isSome = true
      rw [read, if_pos (by simpa [fb, planeIndex] using hi)]
      rfl
    | red => cases hv
  · cases p with
    | bw => cases hv
    | red =>
      show (withPlaneOf .bw 0xFF).mem.read (fb .red i) = none
      rw [read, if_neg (by simp [fb, planeIndex])]

/-- After SW_RESET has been sent, with a frame that sets the counter. -/
def midway : State :=
  { booted with trace := .line .rstN true :: cmdEvents 0x12, lines := { csN := .high, dc := .low, rstN := .high },
                frames := [[0x03, 0, 0, 0, 0, 0, 0, 0, 0]] }

theorem witness_StepKeepsLinesTrue : midway.LinesInv ∧ ∃ t, step midway = .next t := ⟨by decide, _, rfl⟩

theorem witness_StepKeepsBrackets : midway.BracketInv ∧ noFail midway.trace = true ∧ ∃ t, step midway = .next t :=
  ⟨by decide, by decide, _, rfl⟩

theorem witness_StepKeepsTransfersSized : midway.SizeInv ∧ ∃ t, step midway = .next t := ⟨by decide, _, rfl⟩

/-- Between operations, and with an operation in progress. -/
theorem witness_StepKeepsOpcodesAssigned :
    (midway.RunningInv ∧ midway.OpcodeInv ∧ ∃ t, step midway = .next t) ∧
      waiting.RunningInv ∧ waiting.OpcodeInv ∧ ∃ t, step waiting = .next t := by
  refine ⟨⟨fun r hr => ?_, by decide, _, rfl⟩, fun r hr => ?_, by decide, _, rfl⟩
  · cases hr
  · cases hr
    decide

theorem witness_StepKeepsPhaseZeroUndefined :
    waiting.RunningInv ∧ waiting.DefinedInv ∧ ∃ t, step waiting = .next t :=
  ⟨witness_StepKeepsOpcodesAssigned.2.1, by decide, _, rfl⟩

end Sys2Proof.Tests
end

section
/-! SUPPORT. How a sequence of micro-operations ends, and what an instruction that runs none leaves alone. -/

namespace Sys2Proof.Machine

/-! ### The ends of a sequence of micro-operations -/

/-- The state after port actions: events appended, the lines as the events leave them, inputs taken. -/
def State.ported (s : State) (evs : List Event) (busy draws : List Bool) : State :=
  { s with trace := s.trace ++ evs, lines := linesAfter s.lines evs, busyIn := busy, failIn := draws }

theorem State.ported_nil (s : State) : s.ported [] s.busyIn s.failIn = s := by
  simp [State.ported]

theorem State.ported_ported (s : State) (evs evs' : List Event) (busy busy' draws draws' : List Bool) :
    (s.ported evs busy draws).ported evs' busy' draws' = s.ported (evs ++ evs') busy' draws' := by
  simp [State.ported, linesAfter_append]

/-- The three ends of a sequence after its port actions: completion, a transport error, a wait that has not ended (R22,
R150, R241, R254). -/
inductive OpsEnd (ops : List MicroOp) (c : Completion) (s : State) : State → Prop
  | completed (evs : List Event) (busy draws : List Bool) :
      OpsEnd ops c s ((s.ported evs busy draws).complete c)
  | failed (evs : List Event) (busy draws : List Bool) :
      OpsEnd ops c s (s.ported evs busy draws).raiseTransportError
  | paused (evs : List Event) (busy draws : List Bool) (ms : List MicroOp) (hms : .waitIdle :: ms <:+ ops) :
      OpsEnd ops c s { s.ported evs busy draws with running := some { rest := .waitIdle :: ms, done := c } }

/-- The end of a sequence is the end of the longer one whose first micro-operation has completed. -/
theorem OpsEnd.cons {m : MicroOp} {ms : List MicroOp} {c : Completion} {s t : State} {evs : List Event}
    {busy draws : List Bool} (h : OpsEnd ms c (s.ported evs busy draws) t) : OpsEnd (m :: ms) c s t := by
  cases h with
  | completed => rw [State.ported_ported]; exact .completed ..
  | failed => rw [State.ported_ported]; exact .failed ..
  | paused evs' busy' draws' ks hks =>
    rw [State.ported_ported]
    exact .paused _ _ _ _ (hks.trans (List.suffix_cons m ms))

theorem runOps_end (ops : List MicroOp) (c : Completion) (s : State) : OpsEnd ops c s (runOps ops c s) := by
  induction ops generalizing s with
  | nil =>
    have h : OpsEnd [] c s ((s.ported [] s.busyIn s.failIn).complete c) := .completed ..
    rwa [State.ported_nil] at h
  | cons m ms ih =>
    obtain ⟨evs, busy, draws, e, hrun, hev⟩ := runMicro_cases m s
    cases e with
    | done =>
      rw [runOps_cons_done hrun]
      exact (ih (s.ported evs busy draws)).cons
    | failed =>
      rw [runOps_cons_failed hrun]
      exact .failed evs busy draws
    | waiting =>
      rw [runOps_cons_waiting hrun]
      cases hev
      exact .paused _ busy draws ms (List.suffix_refl _)

/-! ### An instruction that runs no micro-operation -/

/-- `t` has the ports, the phase and the controller's status of `s`, and the same operation in progress. -/
structure SamePorts (s t : State) : Prop where
  trace : t.trace = s.trace
  lines : t.lines = s.lines
  running : t.running = s.running
  phase : t.phase = s.phase
  ctrlUndef : t.ctrlUndef = s.ctrlUndef

/-- An instruction runs micro-operations or leaves the ports alone (R150). -/
theorem Effect.ran_or_quiet {s t : State} {i : Instr} (h : Effect s i t) :
    (∃ ops c, (i.wf = true → ∀ m ∈ ops, m.wf = true) ∧ c ≠ .okPhase .uninitialized ∧
      (c = .initDone → i = .init) ∧ t = runOps ops c s) ∨ SamePorts s t := by
  cases h with
  | ran ops c hw hc hi => exact .inl ⟨ops, c, hw, hc, hi, rfl⟩
  | fatal f => exact .inr ⟨rfl, rfl, rfl, rfl, rfl⟩
  | result r => exact .inr ⟨rfl, rfl, rfl, rfl, rfl⟩
  | constructed p v => exact .inr (by constructor <;> simp)
  | rotated p r hv => exact .inr (by constructor <;> simp)
  | cleared p v hv => exact .inr ⟨rfl, rfl, rfl, rfl, rfl⟩
  | stored a b v ha hb => exact .inr ⟨rfl, rfl, rfl, rfl, rfl⟩

end Sys2Proof.Machine
end

section
/-! PROOFS. The framebuffer holds a plane's bytes exactly where the plane is valid (O54). -/

namespace Sys2Proof.Machine

/-! ### The framebuffer and the plane registers -/

/-- A byte of a plane lies in that plane and in no other (R60). -/
theorem inPlane_fb_iff {p q : Plane} {i : Nat} (hi : i < Config.planeBytes) : inPlane p (fb q i) ↔ q = p := by
  constructor
  · rintro ⟨h1, h2⟩
    have hfb : fb q i = fb p (fb q i - fb p 0) := by rw [← fb_zero_add p (fb q i - fb p 0)]; omega
    exact (fb_inj hi (by omega) hfb).1
  · rintro rfl
    rw [inPlane, ← fb_zero_add q i]
    omega

/-- A write over a stored byte leaves every address stored or without value as it was. -/
theorem Memory.isSome_read_write {m : Memory} {a : Nat} {b : Byte} (v : Byte) (h : m.read a = some b) (x : Nat) :
    (Memory.read (m.write a v) x).isSome = (m.read x).isSome := by
  by_cases hx : x = a
  · subst hx; simp [h]
  · rw [Memory.read_write_other m v hx]

/-- The invariant in one line for each byte: it holds a value exactly where its plane is valid. -/
theorem State.memInv_iff (s : State) : s.MemInv ↔
    s.mem.wf ∧ ∀ p i, i < Config.planeBytes → (s.mem.read (fb p i)).isSome = (s.planeRegs p).valid := by
  refine and_congr_right fun _ => forall_congr' fun p => ?_
  cases (s.planeRegs p).valid <;> simp [State.PlaneStored]

theorem State.MemInv.congr {s t : State} (h : s.MemInv) (hm : t.mem = s.mem) (hb : t.bw = s.bw)
    (hr : t.red = s.red) : t.MemInv := by
  rw [State.memInv_iff] at h ⊢
  simpa only [hm, State.planeRegs_congr hb hr] using h

/-- A filled plane is stored whole, and the other plane is as it was. -/
theorem State.isSome_read_fillPlane (s : State) (p q : Plane) (v : Byte) {i : Nat} (hi : i < Config.planeBytes) :
    ((s.fillPlane p v).mem.read (fb q i)).isSome = if q = p then true else (s.mem.read (fb q i)).isSome := by
  rw [State.fillPlane_mem, Memory.read_fill]
  by_cases hq : q = p
  · rw [if_pos ((inPlane_fb_iff hi).mpr hq), if_pos hq]; rfl
  · rw [if_neg (mt (inPlane_fb_iff hi).mp hq), if_neg hq]

theorem State.fillPlane_wf {s : State} (h : s.mem.wf) (p : Plane) (v : Byte) : (s.fillPlane p v).mem.wf :=
  Memory.fill_wf h v (fb_zero_le p)

/-- An instruction keeps the framebuffer in step with the planes' validity. -/
theorem Effect.memInv {s t : State} {i : Instr} (h : Effect s i t) (hs : s.MemInv) : t.MemInv := by
  cases h with
  | ran ops c hw hc hi =>
    obtain ⟨-, hm, hb, hr, -⟩ := runOps_frame ops c s
    exact hs.congr hm hb hr
  | fatal f => exact hs.congr rfl rfl rfl
  | result r => exact hs.congr rfl rfl rfl
  | constructed p v =>
    obtain ⟨hwf, hv⟩ := (State.memInv_iff s).mp hs
    refine State.MemInv.congr (s := (s.fillPlane p v).setPlaneRegs p _) ?_ rfl rfl rfl
    refine (State.memInv_iff _).mpr ⟨by simpa using State.fillPlane_wf hwf p v, fun q i hi => ?_⟩
    rw [State.setPlaneRegs_mem, State.isSome_read_fillPlane s p q v hi]
    by_cases hq : q = p
    · subst hq; simp
    · rw [if_neg hq, State.planeRegs_setPlaneRegs_other _ _ hq]
      exact hv q i hi
  | rotated p r hvalid =>
    obtain ⟨hwf, hv⟩ := (State.memInv_iff s).mp hs
    refine State.MemInv.congr (s := s.setPlaneRegs p _) ?_ rfl rfl rfl
    refine (State.memInv_iff _).mpr ⟨by simpa using hwf, fun q i hi => ?_⟩
    rw [State.setPlaneRegs_mem, hv q i hi]
    by_cases hq : q = p
    · subst hq; simp
    · rw [State.planeRegs_setPlaneRegs_other _ _ hq]
  | cleared p v hvalid =>
    obtain ⟨hwf, hv⟩ := (State.memInv_iff s).mp hs
    refine State.MemInv.congr (s := s.fillPlane p v) ?_ rfl rfl rfl
    refine (State.memInv_iff _).mpr ⟨State.fillPlane_wf hwf p v, fun q i hi => ?_⟩
    rw [State.isSome_read_fillPlane s p q v hi]
    by_cases hq : q = p
    · subst hq; rw [if_pos rfl]; exact hvalid.symm
    · rw [if_neg hq]
      exact hv q i hi
  | stored a b v ha hb =>
    obtain ⟨hwf, hv⟩ := (State.memInv_iff s).mp hs
    refine State.MemInv.congr (s := { s with mem := s.mem.write a v }) ?_ rfl rfl rfl
    refine (State.memInv_iff _).mpr ⟨Memory.write_wf hwf v ha, fun q i hi => ?_⟩
    rw [Memory.isSome_read_write v hb]
    exact hv q i hi

/-- Settles O54: a step goes on with port actions, which leave the planes, or has one of the effects of an
instruction. -/
theorem stepKeepsPlanesStored : Obligations.StepKeepsPlanesStored := by
  intro s t hs h
  obtain ⟨-, ⟨-, -, rfl⟩ | ⟨r, -, rfl⟩ | ⟨-, f, rest, i, -, -, hx⟩⟩ := step_cases h
  · exact hs
  · obtain ⟨-, hm, hb, hr, -⟩ := runOps_frame r.rest r.done { s with running := none }
    exact hs.congr hm hb hr
  · exact (exec_effect hx).2.memInv (hs.congr rfl rfl rfl)

end Sys2Proof.Machine
end

section
/-! PROOFS. The trace and the lines (O45, O55), and the sizes of the trace's events (O57). -/

namespace Sys2Proof.Machine

/-! ### The trace and the lines -/

/-- `t` is `s` with events appended to the trace and the lines as they leave them (R25, R26, R242). -/
def Appends (s t : State) : Prop := ∃ evs, t.trace = s.trace ++ evs ∧ t.lines = linesAfter s.lines evs

theorem Appends.refl (s : State) : Appends s s := ⟨[], by simp, rfl⟩

theorem runOps_appends (ops : List MicroOp) (c : Completion) (s : State) : Appends s (runOps ops c s) := by
  obtain ⟨-, -, -, -, -, -, h⟩ := runOps_frame ops c s
  exact h

theorem Effect.appends {s t : State} {i : Instr} (h : Effect s i t) : Appends s t := by
  obtain ⟨ops, c, -, -, -, rfl⟩ | hq := h.ran_or_quiet
  · exact runOps_appends ops c s
  · exact ⟨[], by simp [hq.trace], hq.lines⟩

theorem step_appends {s t : State} (h : step s = .next t) : Appends s t := by
  obtain ⟨-, ⟨-, -, rfl⟩ | ⟨r, -, rfl⟩ | ⟨-, f, rest, i, -, -, hx⟩⟩ := step_cases h
  · exact .refl t
  · exact runOps_appends r.rest r.done { s with running := none }
  · exact (exec_effect hx).2.appends

/-- Settles O45: a step either leaves the ports alone or runs micro-operations, which only append. -/
theorem traceOnlyGrows : Obligations.TraceOnlyGrows := by
  rintro s t (h | ⟨i, h⟩)
  · exact step_appends h
  · exact (exec_effect h).2.appends

/-- Settles O55: the lines follow the events that the step appends. -/
theorem stepKeepsLinesTrue : Obligations.StepKeepsLinesTrue := by
  intro s t hs h
  obtain ⟨evs, ht, hl⟩ := step_appends h
  rw [State.LinesInv, hl, ht, linesAfter_append, ← hs]

/-! ### The sizes of transfers and delays -/

/-- Every piece of a payload has 1 to CHUNK_MAX bytes (R133). -/
theorem length_of_mem_chunks {s bs : List Byte} (h : bs ∈ chunks s) :
    1 ≤ bs.length ∧ bs.length ≤ Config.chunkMax := by
  simp only [chunks, List.mem_map, List.mem_range] at h
  obtain ⟨k, hk, rfl⟩ := h
  simp only [Config.chunkMax_eq, List.length_take, List.length_drop] at hk ⊢
  omega

/-- A port step whose event, and whose failure, are of the size the rules give them (R25, R255). -/
def PortStep.sized (p : PortStep) : Prop :=
  p.event.sized = true ∧ ∀ a, p.action? = some a → (Event.fail a).sized = true

theorem PortStep.sized_drive (l : Line) (v : Bool) : (PortStep.drive l v).sized := by
  refine ⟨rfl, fun a ha => ?_⟩
  cases ha
  rfl

theorem PortStep.sized_xfer {bs : List Byte} (h : 1 ≤ bs.length ∧ bs.length ≤ Config.chunkMax) :
    (PortStep.xfer bs).sized := by
  refine ⟨decide_eq_true h, fun a ha => ?_⟩
  cases ha
  exact decide_eq_true h

theorem PortStep.sized_resetDelay : (PortStep.delay Config.resetMs).sized := ⟨rfl, fun _ ha => by cases ha⟩

theorem bracket_sized (dc : Bool) {xs : List (List Byte)}
    (h : ∀ bs ∈ xs, 1 ≤ bs.length ∧ bs.length ≤ Config.chunkMax) : ∀ p ∈ bracket dc xs, p.sized := by
  intro p hp
  simp only [bracket, List.mem_cons, List.mem_append, List.mem_map, List.not_mem_nil, or_false] at hp
  rcases hp with rfl | rfl | ⟨bs, hbs, rfl⟩ | rfl
  · exact PortStep.sized_drive ..
  · exact PortStep.sized_drive ..
  · exact PortStep.sized_xfer (h bs hbs)
  · exact PortStep.sized_drive ..

theorem bracket_byte_sized (dc : Bool) (b : Byte) : ∀ p ∈ bracket dc [[b]], p.sized :=
  bracket_sized dc fun bs hbs => by rw [List.mem_singleton.mp hbs]; simp

theorem microSteps_sized (m : MicroOp) : ∀ p ∈ microSteps m, p.sized := by
  cases m with
  | cmd op => exact bracket_byte_sized false op
  | data bs => exact bracket_sized true fun _ => length_of_mem_chunks
  | cmdData op bs =>
    intro p hp
    rcases List.mem_append.mp hp with hp | hp
    · exact bracket_byte_sized false op p hp
    · exact bracket_sized true (fun _ => length_of_mem_chunks) p hp
  | repeatByte v n =>
    exact bracket_sized true fun bs hbs => by rw [List.eq_of_mem_replicate hbs]; simp
  | waitIdle => exact fun _ hp => absurd hp List.not_mem_nil
  | reset =>
    intro p hp
    simp only [microSteps, List.mem_cons, List.not_mem_nil, or_false] at hp
    rcases hp with rfl | rfl | rfl | rfl
    · exact PortStep.sized_drive ..
    · exact PortStep.sized_resetDelay
    · exact PortStep.sized_drive ..
    · exact PortStep.sized_resetDelay

theorem MicroEvents.sized {m : MicroOp} {evs : List Event} {e : MicroEnd} (h : MicroEvents m evs e) :
    ∀ ev ∈ evs, ev.sized = true := by
  have samples (n : Nat) : ∀ ev ∈ List.replicate n (Event.busy true), ev.sized = true := fun ev hev => by
    rw [List.eq_of_mem_replicate hev]; rfl
  intro ev hev
  cases h with
  | steps m hm =>
    obtain ⟨p, hp, rfl⟩ := List.mem_map.mp hev
    exact (microSteps_sized m p hp).1
  | stepFails m hm pre p post a hsteps hp =>
    have hsized : ∀ q ∈ pre ++ p :: post, q.sized := hsteps ▸ microSteps_sized m
    rcases List.mem_append.mp hev with hev | hev
    · obtain ⟨q, hq, rfl⟩ := List.mem_map.mp hev
      exact (hsized q (List.mem_append_left _ hq)).1
    · rw [List.mem_singleton.mp hev]
      exact (hsized p (by simp)).2 a hp
  | waitDone k =>
    rcases List.mem_append.mp hev with hev | hev
    · exact samples k ev hev
    · rw [List.mem_singleton.mp hev]; rfl
  | waitFails k =>
    rcases List.mem_append.mp hev with hev | hev
    · exact samples k ev hev
    · rw [List.mem_singleton.mp hev]; rfl
  | waitGoesOn k => exact samples (k + 1) ev hev

theorem runOps_sizeInv (ops : List MicroOp) (c : Completion) {s : State} (hs : s.SizeInv) :
    (runOps ops c s).SizeInv := by
  refine runOps_keeps (P := State.SizeInv) ops ?_ ?_ ?_ ?_ s hs
  · intro m _ u hu
    obtain ⟨evs, busy, draws, e, hrun, hev⟩ := runMicro_cases m u
    rw [hrun]
    exact fun ev h => (List.mem_append.mp h).elim (hu ev) (hev.sized ev)
  · exact fun u hu => by simpa [State.SizeInv] using hu
  · exact fun u hu => hu
  · exact fun u ms hu _ => hu

theorem Effect.sizeInv {s t : State} {i : Instr} (h : Effect s i t) (hs : s.SizeInv) : t.SizeInv := by
  obtain ⟨ops, c, -, -, -, rfl⟩ | hq := h.ran_or_quiet
  · exact runOps_sizeInv ops c hs
  · rw [State.SizeInv, hq.trace]
    exact hs

/-- Settles O57: every event of a micro-operation, a failed one included, has its size from the port step it
records. -/
theorem stepKeepsTransfersSized : Obligations.StepKeepsTransfersSized := by
  intro s t hs h
  obtain ⟨-, ⟨-, -, rfl⟩ | ⟨r, -, rfl⟩ | ⟨-, f, rest, i, -, -, hx⟩⟩ := step_cases h
  · exact hs
  · exact runOps_sizeInv r.rest r.done hs
  · exact (exec_effect hx).2.sizeInv hs

end Sys2Proof.Machine
end

section
/-! PROOFS. The phase and the controller's status, by every step (O59) and by every instruction (O46). -/

namespace Sys2Proof.Machine

/-! ### A decoded frame -/

theorem fixedOperands_ok {n : Nat} {ops : List Byte} {k : Except DecodeError Instr} {i : Instr}
    (h : fixedOperands n ops k = .ok i) : k = .ok i := by
  unfold fixedOperands at h
  split at h
  · exact h
  · cases h

theorem decodeBuf_wf {bs : List Byte} {buf : Buf} (h : decodeBuf bs = .ok buf) : buf.wf = true := by
  unfold decodeBuf at h
  split at h
  · cases h
  · next src rest =>
    split at h
    · split at h
      · next hlen =>
        cases h
        have hlt := (u32At rest 0).isLt
        simp only [Buf.wf, List.length_drop, decide_eq_true_eq]
        omega
      · cases h
    · split at h
      · cases h
      · split at h
        · cases h
          rfl
        · split at h
          · cases h
            rfl
          · cases h

theorem except_bind_ok {ε α β : Type} {x : Except ε α} {f : α → Except ε β} {b : β} (h : x >>= f = .ok b) :
    ∃ a, x = .ok a ∧ f a = .ok b := by
  cases x with
  | error e => cases h
  | ok a => exact ⟨a, rfl, h⟩

theorem decodeOperands_wf {c : Selector} {ops : List Byte} {i : Instr} (h : decodeOperands c ops = .ok i) :
    i.wf = true := by
  cases c with
  | updateBwFrame | updateRedFrame | updatePartialBwFrame =>
    obtain ⟨buf, hbuf, h⟩ := except_bind_ok h
    cases h
    exact decodeBuf_wf hbuf
  | init | setRamWindow | setRamCounter | clearBwFrame | clearRedFrame | displayFrame | displayPartialFrame
  | fbBufferLength =>
    cases fixedOperands_ok h
    rfl
  | fbNew | fbSetRotation | fbSetPixel | fbClear =>
    obtain ⟨p, -, h⟩ := except_bind_ok (fixedOperands_ok h)
    obtain ⟨v, -, h⟩ := except_bind_ok h
    cases h
    rfl
  | fbOutsideBounds | fbRotate | fbAddress | fbRead =>
    obtain ⟨v, -, h⟩ := except_bind_ok (fixedOperands_ok h)
    cases h
    rfl

/-- Only an instruction with an inline buffer, or a micro-operation, can be ill-formed; no frame decodes to one that
is (R101, R105). -/
theorem decode_wf {f : Frame} {i : Instr} (h : decode f = .ok i) : i.wf = true := by
  unfold decode at h
  split at h
  · cases h
  · split at h
    · cases h
    · exact decodeOperands_wf h

/-! ### The phase and the controller's status -/

theorem State.RunningInv.of_none {s : State} (h : s.running = none) : s.RunningInv := by
  intro r hr
  rw [h] at hr
  cases hr

theorem OpsEnd.runningInv {ops : List MicroOp} {c : Completion} {s t : State} (h : OpsEnd ops c s t)
    (hfault : s.fault = none) (hrun : s.running = none) (hw : ∀ m ∈ ops, m.wf = true)
    (hc : c ≠ .okPhase .uninitialized) : t.RunningInv := by
  cases h with
  | completed => exact State.RunningInv.of_none (by simpa [State.ported] using hrun)
  | failed => exact State.RunningInv.of_none hrun
  | paused evs busy draws ms hms =>
    intro r hr
    cases hr
    exact ⟨hfault, rfl, fun m hm => hw m (hms.subset hm), hc⟩

/-- What completion writes is never CTRL_UNDEF 0 with phase 0 (R150, R152). -/
theorem State.DefinedInv.complete {s : State} {c : Completion} (hs : s.DefinedInv)
    (hc : c ≠ .okPhase .uninitialized) : (s.complete c).DefinedInv := by
  cases c with
  | quiet => exact hs
  | ok => exact hs
  | okPhase p => exact fun _ hp => hc (congrArg Completion.okPhase hp)
  | initDone => exact fun _ hp => by cases hp

theorem OpsEnd.definedInv {ops : List MicroOp} {c : Completion} {s t : State} (h : OpsEnd ops c s t)
    (hs : s.DefinedInv) (hc : c ≠ .okPhase .uninitialized) : t.DefinedInv := by
  cases h with
  | completed evs busy draws => exact State.DefinedInv.complete (s := s.ported evs busy draws) hs hc
  | failed => exact fun hu => by cases hu
  | paused => exact hs

theorem Effect.runningInv {s t : State} {i : Instr} (h : Effect s i t) (hs : s.Free) (hi : i.wf = true) :
    t.RunningInv := by
  obtain ⟨hfault, hrun⟩ := hs
  obtain ⟨ops, c, hw, hc, -, rfl⟩ | hq := h.ran_or_quiet
  · exact (runOps_end ops c s).runningInv hfault hrun (hw hi) hc
  · exact .of_none (hq.running.trans hrun)

theorem Effect.definedInv {s t : State} {i : Instr} (h : Effect s i t) (hs : s.DefinedInv) : t.DefinedInv := by
  obtain ⟨ops, c, -, hc, -, rfl⟩ | hq := h.ran_or_quiet
  · exact (runOps_end ops c s).definedInv hs hc
  · rw [State.DefinedInv, hq.ctrlUndef, hq.phase]
    exact hs

/-- Settles O59: only INIT clears CTRL_UNDEF, and it leaves phase 1; no completion ends in phase 0. -/
theorem stepKeepsPhaseZeroUndefined : Obligations.StepKeepsPhaseZeroUndefined := by
  intro s t hrun hs h
  obtain ⟨hfault, ⟨-, -, rfl⟩ | ⟨r, hr, rfl⟩ | ⟨-, f, rest, i, -, hd, hx⟩⟩ := step_cases h
  · exact ⟨hrun, hs⟩
  · obtain ⟨-, -, hw, hc⟩ := hrun r hr
    have hend := runOps_end r.rest r.done { s with running := none }
    exact ⟨hend.runningInv hfault rfl hw hc, hend.definedInv hs hc⟩
  · obtain ⟨hfree, he⟩ := exec_effect hx
    exact ⟨he.runningInv hfree (decode_wf hd), he.definedInv hs⟩

/-- How CTRL_UNDEF changes from `s` to `t`: to 0 by INIT's completion alone, to 1 by a transport error alone. -/
def StatusChange (initDone : Prop) (s t : State) : Prop :=
  (s.ctrlUndef = true → t.ctrlUndef = false →
    initDone ∧ t.phase = .initialized ∧ t.result = some .ok ∧ t.running = none) ∧
  (s.ctrlUndef = false → t.ctrlUndef = true → t.result = some .err ∧ t.phase = s.phase)

theorem StatusChange.of_eq {initDone : Prop} {s t : State} (h : t.ctrlUndef = s.ctrlUndef) :
    StatusChange initDone s t := by
  constructor <;> intro hs ht <;> simp [h, hs] at ht

theorem State.statusChange_complete (s : State) (c : Completion) (hrun : s.running = none) :
    StatusChange (c = .initDone) s (s.complete c) := by
  cases c with
  | quiet => exact .of_eq rfl
  | ok => exact .of_eq rfl
  | okPhase p => exact .of_eq rfl
  | initDone => exact ⟨fun _ _ => ⟨rfl, rfl, rfl, hrun⟩, fun _ ht => by cases ht⟩

theorem OpsEnd.statusChange {ops : List MicroOp} {c : Completion} {s t : State} (h : OpsEnd ops c s t)
    (hrun : s.running = none) : StatusChange (c = .initDone) s t := by
  cases h with
  | completed evs busy draws => exact (s.ported evs busy draws).statusChange_complete c hrun
  | failed => exact ⟨fun _ ht => (by cases ht), fun _ _ => ⟨rfl, rfl⟩⟩
  | paused => exact .of_eq rfl

theorem Effect.statusChange {s t : State} {i : Instr} (h : Effect s i t) (hrun : s.running = none) :
    StatusChange (i = .init) s t := by
  obtain ⟨ops, c, -, -, hi, rfl⟩ | hq := h.ran_or_quiet
  · obtain ⟨hclear, hset⟩ := (runOps_end ops c s).statusChange hrun
    exact ⟨fun hs ht => (hclear hs ht).imp_left hi, hset⟩
  · exact .of_eq hq.ctrlUndef

/-- Settles O46: of the three ends of a sequence, INIT's completion alone clears CTRL_UNDEF and a transport error alone
sets it; an instruction that runs no sequence leaves it. -/
theorem onlyInitDefinesTheController : Obligations.OnlyInitDefinesTheController := by
  constructor
  · intro i s t h
    obtain ⟨⟨-, hrun⟩, he⟩ := exec_effect h
    exact he.statusChange hrun
  · intro s t r hr h
    obtain ⟨-, ⟨hn, -, -⟩ | ⟨r', hr', rfl⟩ | ⟨hn, -⟩⟩ := step_cases h
    · rw [hn] at hr; cases hr
    · cases hr.symm.trans hr'
      exact (runOps_end r.rest r.done { s with running := none }).statusChange rfl
    · rw [hn] at hr; cases hr

end Sys2Proof.Machine
end

section
/-! PROOFS. Which instruction writes the planes (O44), and which is refused for a plane (O30). -/

namespace Sys2Proof.Machine

/-! ### Which instruction writes the planes -/

/-- A point inside the panel is rotated to a point inside it (R181, R184). -/
theorem rotateCoordinates_lt {x y : Int} {r : Rot}
    (h : outsideBounds x y Config.panelWidth Config.panelHeight r = false) :
    (rotateCoordinates x y Config.panelWidth Config.panelHeight r).1.toNat < 200 ∧
      (rotateCoordinates x y Config.panelWidth Config.panelHeight r).2.toNat < 200 := by
  cases r
  all_goals
    have hin := of_decide_eq_false h
    simp only [Config.panelWidth_eq, Config.panelHeight_eq, rotateCoordinates] at hin ⊢
    omega

/-- The byte index of a point of the panel is one of a plane's bytes (R184). -/
theorem address_lt_planeBytes {x y : Int} {r : Rot} {i : Nat} {m : Byte}
    (h : address x y Config.panelWidth Config.panelHeight r = some (i, m)) : i < Config.planeBytes := by
  unfold address at h
  split at h
  · cases h
  · next hout =>
    obtain ⟨hcol, hrow⟩ := rotateCoordinates_lt (Bool.eq_false_of_not_eq_true hout)
    cases h
    simp only [ceilDiv8, Config.panelWidth_eq, Config.planeBytes_eq] at hcol hrow ⊢
    omega

/-- What each of the four operations writes, and that every other instruction writes nothing (R65). -/
inductive PlaneEffect (s : State) : Instr → State → Prop
  | kept {i : Instr} {t : State} (hm : t.mem = s.mem) (hr : ∀ p, t.planeRegs p = s.planeRegs p) : PlaneEffect s i t
  | constructed (p : Plane) (on : Bool) :
      PlaneEffect s (.fbNew p on)
        (((s.fillPlane p (fillByte p on)).setPlaneRegs p { valid := true, rot := .r0 }).setResult .ok)
  | rotated (p : Plane) (r : Rot) :
      PlaneEffect s (.fbSetRotation p r) ((s.setPlaneRegs p { s.planeRegs p with rot := r }).setResult .ok)
  | cleared (p : Plane) (on : Bool) :
      PlaneEffect s (.fbClear p on) ((s.fillPlane p (fillByte p on)).setResult .ok)
  | stored (p : Plane) (x y : I32) (on : Bool) (i : Nat) (v : Byte) (hi : i < Config.planeBytes) :
      PlaneEffect s (.fbSetPixel p x y on) (({ s with mem := s.mem.write (fb p i) v } : State).setResult .ok)

theorem runOps_planeEffect (ops : List MicroOp) (c : Completion) (s : State) (i : Instr) :
    PlaneEffect s i (runOps ops c s) := by
  obtain ⟨-, hm, hb, hr, -⟩ := runOps_frame ops c s
  exact .kept hm (State.planeRegs_congr hb hr)

/-- An answer to `i` as to the planes: a next state has one of the effects above, and a refusal for a plane names the
unconstructed plane that `i` uses (R33). -/
inductive PlaneAnswer (s : State) (i : Instr) : Answer → Prop
  | next {t : State} (h : PlaneEffect s i t) : PlaneAnswer s i (.next t)
  | fault (f : Fault) : PlaneAnswer s i (.fault f)
  | refused (r : Refusal) (h : ∀ p, r = .noPlane p → i.usesPlane = some p ∧ (s.planeRegs p).valid = false) :
      PlaneAnswer s i (.refused r)

section
variable {s : State} {i : Instr} {k : Answer}

theorem PlaneAnswer.run (ops : List MicroOp) (c : Completion) : PlaneAnswer s i (runAnswer ops c s) :=
  .next (runOps_planeEffect ops c s i)

theorem PlaneAnswer.fatal (f : FatalFault) : PlaneAnswer s i (fatalAnswer s f) := .next (.kept rfl fun _ => rfl)

theorem PlaneAnswer.result (r : Result) : PlaneAnswer s i (resultAnswer s r) := .next (.kept rfl fun _ => rfl)

theorem PlaneAnswer.whenFree (h : PlaneAnswer s i k) : PlaneAnswer s i (whenFree s k) := by
  unfold Machine.whenFree
  split
  · exact .fault _
  · split
    · exact .refused _ (fun _ hr => by cases hr)
    · exact h

theorem PlaneAnswer.whenInitialized (h : PlaneAnswer s i k) : PlaneAnswer s i (whenInitialized s k) := by
  refine PlaneAnswer.whenFree ?_
  split
  · exact .refused _ (fun _ hr => by cases hr)
  · exact h
  · exact h
  · exact h

theorem PlaneAnswer.withPlane {p : Plane} (hp : i.usesPlane = some p) (h : PlaneAnswer s i k) :
    PlaneAnswer s i (withPlane s p k) := by
  unfold Machine.withPlane
  split
  · exact h
  · next hv =>
    refine .refused _ fun q hq => ?_
    cases hq
    exact ⟨hp, Bool.eq_false_of_not_eq_true hv⟩

theorem PlaneAnswer.withPlaneBytes {p : Plane} {f : List Byte → Answer} (hp : i.usesPlane = some p)
    (h : ∀ bs, PlaneAnswer s i (f bs)) : PlaneAnswer s i (withPlaneBytes s p f) := by
  refine PlaneAnswer.withPlane hp ?_
  split
  · exact h _
  · exact .fault _

theorem PlaneAnswer.withBuf {buf : Buf} {f : List Byte → Answer} (hp : i.usesPlane = buf.plane?)
    (h : ∀ bs, PlaneAnswer s i (f bs)) : PlaneAnswer s i (withBuf s buf f) := by
  cases buf with
  | inline bs => exact h bs
  | plane p => exact .withPlaneBytes hp h

/-- A pixel's byte is read and replaced where its address lies in the space; elsewhere the access faults. -/
theorem PlaneAnswer.pixel (p : Plane) (x y : I32) (on : Bool) {j : Nat} (hj : j < Config.planeBytes)
    (v : Byte → Byte) : PlaneAnswer s (.fbSetPixel p x y on)
      (withByte s (fb p j) fun b => storeByte s (fb p j) (v b) fun t => resultAnswer t .ok) := by
  unfold withByte
  split
  · beta_reduce
    rw [storeByte_ok s _ (fb_lt hj)]
    exact .next (.stored p x y on j _ hj)
  · exact .fault _

end

theorem exec_planeAnswer (i : Instr) (s : State) : PlaneAnswer s i (exec i s) := by
  cases i with
  | init | muCmd | muData | muCmdData | muRepeat | muWaitIdle | muReset => exact .whenFree (.run _ _)
  | swReset | driverControl | dataEntryMode | setRamXPos | setRamYPos | setRamXCounter | setRamYCounter
  | borderWaveformControl | tempControl | writeBwData | writeRedData | updateDisplayCtrl2 | masterActivate =>
    exact .whenFree (.run _ _)
  | setRamCounter | clearBwFrame | clearRedFrame | displayFrame | displayPartialFrame =>
    exact .whenInitialized (.run _ _)
  | setRamWindow sx sy ex ey =>
    refine .whenInitialized ?_
    split
    · exact .fatal _
    · split
      · exact .fatal _
      · exact .run _ _
  | updateBwFrame | updateRedFrame => exact .whenInitialized (.withBuf rfl fun _ => .run _ _)
  | updatePartialBwFrame x y w h buf =>
    refine .whenInitialized (.withBuf rfl fun bs => ?_)
    split
    · exact .fatal _
    · exact .run _ _
  | fbNew p on => exact .whenFree (.next (.constructed p on))
  | fbSetRotation p r => exact .whenFree (.withPlane rfl (.next (.rotated p r)))
  | fbSetPixel p x y on =>
    refine .whenFree (.withPlane rfl ?_)
    split
    · exact .result _
    · next j m haddr => exact .pixel p x y on (address_lt_planeBytes haddr) _
  | fbClear p on => exact .whenFree (.withPlane rfl (.next (.cleared p on)))
  | fbOutsideBounds | fbRotate | fbBufferLength => exact .whenFree (.result _)
  | fbAddress x y w h r =>
    refine .whenFree ?_
    split
    · exact .refused _ (fun _ hr => by cases hr)
    · exact .result _
  | fbRead p => exact .whenFree (.withPlaneBytes rfl fun _ => .result _)

theorem exec_planeEffect {i : Instr} {s t : State} (h : exec i s = .next t) : PlaneEffect s i t := by
  have ha := exec_planeAnswer i s
  rw [h] at ha
  cases ha with
  | next he => exact he

theorem usesPlane_of_exec_noPlane {i : Instr} {s : State} {p : Plane} (h : exec i s = .refused (.noPlane p)) :
    i.usesPlane = some p ∧ (s.planeRegs p).valid = false := by
  have ha := exec_planeAnswer i s
  rw [h] at ha
  cases ha with
  | refused r hr => exact hr p rfl

/-- A fill changes bytes of its plane only. -/
theorem inPlane_of_read_fillPlane_ne {s : State} {p : Plane} {v : Byte} {a : Nat}
    (h : (s.fillPlane p v).mem.read a ≠ s.mem.read a) : inPlane p a := by
  by_contra hout
  rw [State.fillPlane_mem, Memory.read_fill, if_neg hout] at h
  exact h rfl

theorem PlaneEffect.byte_written {s t : State} {i : Instr} (h : PlaneEffect s i t) {a : Nat}
    (ha : t.mem.read a ≠ s.mem.read a) : ∃ p, inPlane p a ∧
      ((∃ on, i = .fbNew p on) ∨ (∃ x y on, i = .fbSetPixel p x y on) ∨ ∃ on, i = .fbClear p on) := by
  cases h with
  | kept hm hr => exact absurd (by rw [hm]) ha
  | constructed p on =>
    rw [State.setResult_mem, State.setPlaneRegs_mem] at ha
    exact ⟨p, inPlane_of_read_fillPlane_ne ha, .inl ⟨on, rfl⟩⟩
  | rotated p r => exact absurd (by simp) ha
  | cleared p on => exact ⟨p, inPlane_of_read_fillPlane_ne ha, .inr (.inr ⟨on, rfl⟩)⟩
  | stored p x y on k v hk =>
    have hak : a = fb p k := by
      by_contra hne
      exact ha (Memory.read_write_other s.mem v hne)
    exact ⟨p, hak ▸ (inPlane_fb_iff hk).mpr rfl, .inr (.inl ⟨x, y, on, rfl⟩)⟩

/-- A register write changes the registers of its plane only. -/
theorem eq_of_planeRegs_setPlaneRegs_ne {s : State} {p q : Plane} {r : PlaneRegs}
    (h : (s.setPlaneRegs p r).planeRegs q ≠ s.planeRegs q) : q = p := by
  by_contra hq
  exact h (State.planeRegs_setPlaneRegs_other s r hq)

theorem PlaneEffect.rotation_written {s t : State} {i : Instr} (h : PlaneEffect s i t) {p : Plane}
    (hp : (t.planeRegs p).rot ≠ (s.planeRegs p).rot) : (∃ on, i = .fbNew p on) ∨ ∃ r, i = .fbSetRotation p r := by
  cases h with
  | kept hm hr => exact absurd (by rw [hr]) hp
  | constructed q on =>
    cases eq_of_planeRegs_setPlaneRegs_ne (fun e => hp (congrArg PlaneRegs.rot e))
    exact .inl ⟨on, rfl⟩
  | rotated q r =>
    cases eq_of_planeRegs_setPlaneRegs_ne (fun e => hp (congrArg PlaneRegs.rot e))
    exact .inr ⟨r, rfl⟩
  | cleared q on => exact absurd rfl hp
  | stored q x y on k v hk => exact absurd rfl hp

theorem PlaneEffect.validity_written {s t : State} {i : Instr} (h : PlaneEffect s i t) {p : Plane}
    (hp : (t.planeRegs p).valid ≠ (s.planeRegs p).valid) :
    (∃ on, i = .fbNew p on) ∧ (t.planeRegs p).valid = true := by
  cases h with
  | kept hm hr => exact absurd (by rw [hr]) hp
  | constructed q on =>
    cases eq_of_planeRegs_setPlaneRegs_ne (fun e => hp (congrArg PlaneRegs.valid e))
    exact ⟨⟨on, rfl⟩, congrArg PlaneRegs.valid (State.planeRegs_setPlaneRegs_same ..)⟩
  | rotated q r =>
    cases eq_of_planeRegs_setPlaneRegs_ne (fun e => hp (congrArg PlaneRegs.valid e))
    exact absurd (congrArg PlaneRegs.valid (State.planeRegs_setPlaneRegs_same ..)) hp
  | cleared q on => exact absurd rfl hp
  | stored q x y on k v hk => exact absurd rfl hp

/-- Settles O44: each of the three clauses read off what the instruction's effect on the planes can be. -/
theorem onlyPlaneOperationsWritePlanes : Obligations.OnlyPlaneOperationsWritePlanes := by
  intro i s t h
  have he := exec_planeEffect h
  exact ⟨fun a => he.byte_written, fun p => he.rotation_written, fun p => he.validity_written⟩

/-! ### Refusals for a plane -/

theorem withBuf_of_invalid {s : State} {buf : Buf} {p : Plane} (hp : buf.plane? = some p)
    (hv : (s.planeRegs p).valid = false) (k : List Byte → Answer) : withBuf s buf k = .refused (.noPlane p) := by
  cases buf with
  | inline bs => cases hp
  | plane q =>
    cases hp
    exact withPlane_of_invalid hv _

theorem exec_of_invalid {i : Instr} {s : State} {p : Plane} (hs : s.Free) (hp : i.usesPlane = some p)
    (hv : (s.planeRegs p).valid = false) (hphase : i.needsInit = true → s.phase ≠ .uninitialized) :
    exec i s = .refused (.noPlane p) := by
  cases i with
  | updateBwFrame | updateRedFrame | updatePartialBwFrame =>
    exact (whenInitialized_of_booted ⟨hs, hphase rfl⟩ _).trans (withBuf_of_invalid hp hv _)
  | fbSetRotation | fbSetPixel | fbClear | fbRead =>
    cases hp
    exact (whenFree_of_free hs _).trans (withPlane_of_invalid hv _)
  | _ => cases hp

theorem exec_uninitialized {i : Instr} {s : State} (hs : s.Free) (hi : i.needsInit = true)
    (hphase : s.phase = .uninitialized) : exec i s = .refused .uninitialized := by
  cases i with
  | setRamWindow | setRamCounter | updateBwFrame | updateRedFrame | updatePartialBwFrame | clearBwFrame
  | clearRedFrame | displayFrame | displayPartialFrame => exact whenInitialized_uninitialized hs hphase _
  | _ => cases hi

/-- Settles O30: the refusal names the plane the instruction uses, and the phase check answers before it. -/
theorem unconstructedPlaneRefused : Obligations.UnconstructedPlaneRefused := by
  intro i s p hs
  constructor
  · intro h
    obtain ⟨hp, hv⟩ := usesPlane_of_exec_noPlane h
    refine ⟨hp, hv, fun ⟨hi, hphase⟩ => ?_⟩
    rw [exec_uninitialized hs hi hphase] at h
    cases h
  · rintro ⟨hp, hv, hphase⟩
    exact exec_of_invalid hs hp hv fun hi hu => hphase ⟨hi, hu⟩

end Sys2Proof.Machine
end

section
/-! PROOFS. The step, a halted block and reset (O1, O3, O4, O60). -/

namespace Sys2Proof.Machine

/-! ### The step and reset -/

theorem step_of_decode {s : State} {f : Frame} {rest : List Frame} {i : Instr} (hs : s.Free)
    (hf : s.frames = f :: rest) (hd : decode f = .ok i) : step s = exec i { s with frames := rest } := by
  have hfetch : fetch s = .run i rest := by simp only [fetch, hs.1, hs.2, hf, hd]
  rw [step, hfetch]

theorem decode_of_decodeTableWord {nbits w : Nat} {i : Instr} (h : decodeTableWord nbits w = some i) :
    decode (frameOfWord nbits w) = .ok i := by
  unfold decodeTableWord at h
  split at h
  · next j hj =>
    cases h
    exact hj
  · cases h

/-- Settles O1: a table word placed as the next frame is a frame like any other. -/
theorem stepRunsDecodedFrame : Obligations.StepRunsDecodedFrame :=
  ⟨fun _ _ _ _ hs hf hd => step_of_decode hs hf hd, fun s nbits w _ hs hw =>
    step_of_decode (s := s.withFetchWord nbits w) hs rfl (decode_of_decodeTableWord hw)⟩

/-- Every instruction is checked first for a halt and for an operation in progress (R23, R243). -/
theorem exec_eq_whenFree (i : Instr) (s : State) : ∃ k, exec i s = whenFree s k := by
  cases i <;> exact ⟨_, rfl⟩

theorem step_halted {s : State} {f : FatalFault} (h : s.fault = some f) : step s = .fault (.halted f) := by
  have hfetch : fetch s = .halted f := by simp only [fetch, h]
  rw [step, hfetch]

/-- Settles O3: the halt is the first check of the step and of every instruction. -/
theorem haltedBlockTakesNoStep : Obligations.HaltedBlockTakesNoStep := by
  refine fun s f h => ⟨step_halted h, fun i => ?_⟩
  obtain ⟨k, hk⟩ := exec_eq_whenFree i s
  rw [hk, whenFree_halted h]

/-- Settles O4, element by element of R39's table. -/
theorem resetLeavesStatedValues : Obligations.ResetLeavesStatedValues := by
  refine ⟨rfl, rfl, rfl, rfl, fun p => ⟨fun i _ => rfl, ?_⟩, rfl, rfl, rfl, rfl⟩
  cases p <;> exact ⟨rfl, rfl⟩

theorem reset_memInv : State.reset.MemInv := by
  refine (State.memInv_iff _).mpr ⟨reset_mem_wf, fun p i _ => ?_⟩
  cases p <;> rfl

/-- Settles O60: no plane is valid and no byte stored, the trace is empty, nothing is in progress, CTRL_UNDEF is 1. -/
theorem resetMeetsTheInvariants : Obligations.ResetMeetsTheInvariants := by
  refine ⟨reset_memInv, rfl, fun _ => rfl, ?_, .of_none rfl, ?_, fun h => by cases h⟩
  · exact fun _ he => absurd he List.not_mem_nil
  · exact fun _ hq => absurd hq List.not_mem_nil

end Sys2Proof.Machine
end

section
/-! PROOFS. The other instructions and the planes (O43). -/

namespace Sys2Proof.Machine

/-! ### Running an instruction with other planes -/

/-- The state with other bytes in the framebuffer and other plane registers. -/
def State.withPlanes (m : Memory) (b r : PlaneRegs) (s : State) : State := { s with mem := m, bw := b, red := r }

/-- The answer with its next state, where it has one, sent through `f`. -/
def mapNext (f : State → State) : Answer → Answer
  | .next t => .next (f t)
  | .fault e => .fault e
  | .refused e => .refused e

section
variable (m : Memory) (b r : PlaneRegs) (s : State)

@[simp] theorem State.withPlanes_phase : (s.withPlanes m b r).phase = s.phase := rfl
@[simp] theorem State.withPlanes_fault : (s.withPlanes m b r).fault = s.fault := rfl
@[simp] theorem State.withPlanes_running : (s.withPlanes m b r).running = s.running := rfl

theorem State.complete_withPlanes (c : Completion) :
    (s.withPlanes m b r).complete c = (s.complete c).withPlanes m b r := by
  cases c <;> rfl

/-- A micro-operation acts on the ports, and neither reads nor writes a plane (R65). -/
theorem runMicro_withPlanes (o : MicroOp) :
    runMicro o (s.withPlanes m b r) = ((runMicro o s).1.withPlanes m b r, (runMicro o s).2) := by
  cases o <;> rfl

theorem runOps_withPlanes (ops : List MicroOp) (c : Completion) :
    runOps ops c (s.withPlanes m b r) = (runOps ops c s).withPlanes m b r := by
  induction ops generalizing s with
  | nil => exact s.complete_withPlanes m b r c
  | cons o ops ih =>
    rcases hrun : runMicro o s with ⟨t, e⟩
    have hrun' : runMicro o (s.withPlanes m b r) = (t.withPlanes m b r, e) := by rw [runMicro_withPlanes, hrun]
    cases e with
    | done => rw [runOps_cons_done hrun, runOps_cons_done hrun', ih]
    | failed => rw [runOps_cons_failed hrun, runOps_cons_failed hrun']; rfl
    | waiting => rw [runOps_cons_waiting hrun, runOps_cons_waiting hrun']; rfl

theorem runAnswer_withPlanes (ops : List MicroOp) (c : Completion) :
    runAnswer ops c (s.withPlanes m b r) = mapNext (.withPlanes m b r) (runAnswer ops c s) :=
  congrArg Host.Outcome.next (runOps_withPlanes m b r s ops c)

variable {m b r s} {k k' : Answer}

theorem whenFree_withPlanes (h : k' = mapNext (.withPlanes m b r) k) :
    whenFree (s.withPlanes m b r) k' = mapNext (.withPlanes m b r) (whenFree s k) := by
  unfold whenFree
  rw [State.withPlanes_fault, State.withPlanes_running]
  split
  · rfl
  · split
    · rfl
    · exact h

theorem whenInitialized_withPlanes (h : k' = mapNext (.withPlanes m b r) k) :
    whenInitialized (s.withPlanes m b r) k' = mapNext (.withPlanes m b r) (whenInitialized s k) := by
  refine whenFree_withPlanes ?_
  rw [State.withPlanes_phase]
  split
  · rfl
  · exact h
  · exact h
  · exact h

/-- An inline buffer is read from the operand alone. -/
theorem withBuf_withPlanes {buf : Buf} (hbuf : buf.plane? = none) {f f' : List Byte → Answer}
    (h : ∀ bs, f' bs = mapNext (.withPlanes m b r) (f bs)) :
    withBuf (s.withPlanes m b r) buf f' = mapNext (.withPlanes m b r) (withBuf s buf f) := by
  cases buf with
  | inline bs => exact h bs
  | plane p => cases hbuf

end

/-- An instruction that is no FB_* operation and has no plane operand commutes with a change of the planes: it answers
the same next state with the other planes, or the same fault or refusal. -/
theorem exec_withPlanes {i : Instr} (hfb : i.isFb = false) (hp : i.usesPlane = none) (m : Memory)
    (b r : PlaneRegs) (s : State) : exec i (s.withPlanes m b r) = mapNext (.withPlanes m b r) (exec i s) := by
  cases i with
  | init | muCmd | muData | muCmdData | muRepeat | muWaitIdle | muReset =>
    exact whenFree_withPlanes (runAnswer_withPlanes ..)
  | swReset | driverControl | dataEntryMode | setRamXPos | setRamYPos | setRamXCounter | setRamYCounter
  | borderWaveformControl | tempControl | writeBwData | writeRedData | updateDisplayCtrl2 | masterActivate =>
    exact whenFree_withPlanes (runAnswer_withPlanes ..)
  | setRamCounter | clearBwFrame | clearRedFrame | displayFrame | displayPartialFrame =>
    exact whenInitialized_withPlanes (runAnswer_withPlanes ..)
  | setRamWindow sx sy ex ey =>
    refine whenInitialized_withPlanes ?_
    split
    · rfl
    · split
      · rfl
      · exact runAnswer_withPlanes ..
  | updateBwFrame | updateRedFrame =>
    exact whenInitialized_withPlanes (withBuf_withPlanes hp fun _ => runAnswer_withPlanes ..)
  | updatePartialBwFrame x y w h buf =>
    refine whenInitialized_withPlanes (withBuf_withPlanes hp fun bs => ?_)
    split
    · rfl
    · exact runAnswer_withPlanes ..
  | fbNew | fbSetRotation | fbSetPixel | fbClear | fbOutsideBounds | fbRotate | fbAddress | fbBufferLength
  | fbRead => cases hfb

/-- Only FB_* operations have an effect on the planes other than to keep them (R65, R242). -/
theorem PlaneEffect.planes_kept {s t : State} {i : Instr} (h : PlaneEffect s i t) (hfb : i.isFb = false) :
    t.mem = s.mem ∧ t.bw = s.bw ∧ t.red = s.red := by
  cases h with
  | kept hm hr => exact ⟨hm, hr .bw, hr .red⟩
  | constructed | rotated | cleared | stored => cases hfb

/-- Settles O43: the frame is the instruction's effect on the planes, the independence that it commutes with a change
of them. -/
theorem portOperationsIgnoreThePlanes : Obligations.PortOperationsIgnoreThePlanes := by
  intro i s t hfb h
  refine ⟨(exec_planeEffect h).planes_kept hfb, fun hp m b r => ?_⟩
  calc exec i (s.withPlanes m b r) = mapNext (.withPlanes m b r) (exec i s) := exec_withPlanes hfb hp m b r s
    _ = .next (t.withPlanes m b r) := by rw [h]; rfl

end Sys2Proof.Machine
end

section
/-! PROOFS. What the controller receives when no action fails (O53). -/

namespace Sys2Proof.Machine

/-! ### The stream without failure -/

theorem noFail_cons (e : Event) (es : List Event) : noFail (e :: es) = (!e.isFail && noFail es) := rfl

/-- A transfer that succeeded arrived whole, before whatever the later events send (R74). -/
theorem mayReceive_xfer_iff {dc : Level} {bs : List Byte} {es : List Event} {out rest : List (Level × Byte)}
    (h : ∀ more, mayReceive dc es more ↔ more = rest) :
    mayReceive dc (.xfer bs :: es) out ↔ out = bs.map (fun b => (dc, b)) ++ rest := by
  simp only [mayReceive, h]
  exact ⟨fun ⟨_, hout, hmore⟩ => hmore ▸ hout, fun hout => ⟨rest, hout, rfl⟩⟩

/-- Settles O53, by induction on the events: only a failure leaves a choice of what arrived. -/
theorem withoutFailureTheStreamArrives : Obligations.WithoutFailureTheStreamArrives := by
  intro es
  induction es with
  | nil => exact fun _ _ _ => Iff.rfl
  | cons e es ih =>
    intro dc out hes
    obtain ⟨he, hes⟩ := Bool.and_eq_true_iff.mp (noFail_cons e es ▸ hes)
    cases e with
    | xfer bs => exact mayReceive_xfer_iff fun more => ih dc more hes
    | line l v =>
      cases l with
      | dc => exact ih (.of v) out hes
      | csN | rstN => exact ih dc out hes
    | delay | busy => exact ih dc out hes
    | fail a => cases he

end Sys2Proof.Machine
end

section
/-! SUPPORT. The fields, operands and selectors of a host frame: what each encodes is what it decodes, and back
(spec/30_encoding.md R100 to R102). -/

namespace Sys2Proof.Machine

/-! ### Little-endian fields -/

/-- Bits above the lower part of a concatenation are bits of the upper part. -/
theorem extractLsb'_append_add {m n : Nat} (a : BitVec m) (b : BitVec n) (k l : Nat) :
    (a ++ b).extractLsb' (n + k) l = a.extractLsb' k l := by
  ext j hj
  simp [BitVec.getLsbD_append, Nat.add_assoc]

theorem le16_append (b a : Byte) : le16 (b ++ a) = [a, b] := by
  have h0 : (b ++ a).extractLsb' 0 8 = a := BitVec.extractLsb'_append_eq_right
  have h1 : (b ++ a).extractLsb' 8 8 = b := BitVec.extractLsb'_append_eq_left
  exact congrArg₂ (fun x y => [x, y]) h0 h1

theorem le32_append (d c b a : Byte) : le32 (((d ++ c) ++ b) ++ a) = [a, b, c, d] := by
  have h0 : (((d ++ c) ++ b) ++ a).extractLsb' 0 8 = a := BitVec.extractLsb'_append_eq_right
  have h1 : (((d ++ c) ++ b) ++ a).extractLsb' 8 8 = b :=
    (extractLsb'_append_add _ a 0 8).trans BitVec.extractLsb'_append_eq_right
  have h2 : (((d ++ c) ++ b) ++ a).extractLsb' 16 8 = c :=
    (extractLsb'_append_add _ a 8 8).trans
      ((extractLsb'_append_add _ b 0 8).trans BitVec.extractLsb'_append_eq_right)
  have h3 : (((d ++ c) ++ b) ++ a).extractLsb' 24 8 = d :=
    (extractLsb'_append_add _ a 16 8).trans
      ((extractLsb'_append_add _ b 8 8).trans BitVec.extractLsb'_append_eq_left)
  unfold le32
  rw [h0, h1, h2, h3]

/-- The two bytes of a `u16`, the high one first, are the value. -/
theorem u16_bytes_append (v : U16) : v.extractLsb' 8 8 ++ v.extractLsb' 0 8 = v :=
  (BitVec.extractLsb'_append_extractLsb'_eq_extractLsb' (x := v) rfl).trans BitVec.extractLsb'_eq_self

/-! ### Reading the fields of an encoded operand list -/

@[simp] theorem u16At_le16_append (v : U16) (bs : List Byte) : u16At (le16 v ++ bs) 0 = v := u16_bytes_append v

@[simp] theorem u16At_le16 (v : U16) : u16At (le16 v) 0 = v := u16_bytes_append v

@[simp] theorem u32At_le32_append (v : U32) (bs : List Byte) : u32At (le32 v ++ bs) 0 = v :=
  Laws.FrameLength.u32At_le32 v bs

@[simp] theorem u32At_le32 (v : U32) : u32At (le32 v) 0 = v := u32At_le32_append v []

/-! What stands behind a field is read as if it stood first. -/

@[simp] theorem u32At_cons_succ (b : Byte) (bs : List Byte) (k : Nat) : u32At (b :: bs) (k + 1) = u32At bs k := rfl

@[simp] theorem u32At_le32_append_add (v : U32) (bs : List Byte) (k : Nat) :
    u32At (le32 v ++ bs) (k + 4) = u32At bs k := rfl

@[simp] theorem u16At_le32_append_add (v : U32) (bs : List Byte) (k : Nat) :
    u16At (le32 v ++ bs) (k + 4) = u16At bs k := rfl

@[simp] theorem u16At_le16_append_add (v : U16) (bs : List Byte) (k : Nat) :
    u16At (le16 v ++ bs) (k + 2) = u16At bs k := rfl

@[simp] theorem getD_le32_append_add (v : U32) (bs : List Byte) (k : Nat) (d : Byte) :
    (le32 v ++ bs).getD (k + 4) d = bs.getD k d := rfl

@[simp] theorem getD_le16_append_add (v : U16) (bs : List Byte) (k : Nat) (d : Byte) :
    (le16 v ++ bs).getD (k + 2) d = bs.getD k d := rfl

@[simp] theorem drop_le32_append_add (v : U32) (bs : List Byte) (k : Nat) :
    (le32 v ++ bs).drop (k + 4) = bs.drop k := rfl

@[simp] theorem length_le16 (v : U16) : (le16 v).length = 2 := rfl

@[simp] theorem length_le32 (v : U32) : (le32 v).length = 4 := rfl

/-! ### Encoding the fields read from an operand list -/

section
variable {bs : List Byte} {k : Nat}

theorem take_append_getD (h : k < bs.length) : bs.take k ++ [bs.getD k 0] = bs.take (k + 1) := by
  rw [List.getD_eq_getElem bs 0 h, List.take_append_getElem]

theorem take_append_le16 (h : k + 2 ≤ bs.length) : bs.take k ++ le16 (u16At bs k) = bs.take (k + 2) := by
  rw [u16At, le16_append, ← take_append_getD (k := k + 1) (by omega), ← take_append_getD (k := k) (by omega),
    List.append_assoc]
  rfl

theorem take_append_le32 (h : k + 4 ≤ bs.length) : bs.take k ++ le32 (u32At bs k) = bs.take (k + 4) := by
  have hpair (j : Nat) : le16 (u16At bs j) = [bs.getD j 0, bs.getD (j + 1) 0] := le16_append ..
  rw [u32At, le32_append, ← take_append_le16 (k := k + 2) (by omega), ← take_append_le16 (k := k) (by omega),
    hpair, hpair, List.append_assoc]
  rfl

theorem le32_u32At_zero (h : 4 ≤ bs.length) : le32 (u32At bs 0) = bs.take 4 :=
  take_append_le32 (k := 0) (by omega)

/-- Two `u32` operands at the beginning. -/
theorem le32_pair (h : 8 ≤ bs.length) : le32 (u32At bs 0) ++ le32 (u32At bs 4) = bs.take 8 := by
  rw [le32_u32At_zero (by omega), take_append_le32 h]

/-- Four `u32` operands at the beginning. -/
theorem le32_quadruple (h : 16 ≤ bs.length) :
    le32 (u32At bs 0) ++ le32 (u32At bs 4) ++ le32 (u32At bs 8) ++ le32 (u32At bs 12) = bs.take 16 := by
  rw [le32_pair (by omega), take_append_le32 (by omega), take_append_le32 h]

/-- The operands of FB_BUFFER_LENGTH (R102). -/
theorem size_operands (h : bs.length = 4) : le16 (u16At bs 0) ++ le16 (u16At bs 2) = bs := by
  have hfirst : le16 (u16At bs 0) = bs.take 2 := take_append_le16 (k := 0) (by omega)
  rw [hfirst, take_append_le16 h.ge, List.take_of_length_le h.le]

/-- The operands of FB_OUTSIDE_BOUNDS, FB_ROTATE and FB_ADDRESS (R102). -/
theorem point_operands (h : bs.length = 13) :
    le32 (u32At bs 0) ++ le32 (u32At bs 4) ++ le16 (u16At bs 8) ++ le16 (u16At bs 10) ++ [bs.getD 12 0] = bs := by
  rw [le32_pair (by omega), take_append_le16 (by omega), take_append_le16 (by omega), take_append_getD (by omega),
    List.take_of_length_le h.le]

/-- The operands of FB_SET_PIXEL (R102). -/
theorem pixel_operands (h : bs.length = 10) :
    bs.getD 0 0 :: (le32 (u32At bs 1) ++ le32 (u32At bs 5) ++ [bs.getD 9 0]) = bs := by
  have hplane : [bs.getD 0 0] = bs.take 1 := take_append_getD (k := 0) (by omega)
  have hfields : [bs.getD 0 0] ++ le32 (u32At bs 1) ++ le32 (u32At bs 5) ++ [bs.getD 9 0] = bs := by
    rw [hplane, take_append_le32 (by omega), take_append_le32 (by omega), take_append_getD (by omega),
      List.take_of_length_le h.le]
  simpa only [List.append_assoc, List.cons_append, List.nil_append] using hfields

end

/-! ### Operands -/

theorem decodePlane_ok_iff {b : Byte} {p : Plane} : decodePlane b = .ok p ↔ b = p.code := by
  constructor
  · intro h
    unfold decodePlane at h
    split_ifs at h <;> cases h <;> assumption
  · rintro rfl
    cases p <;> rfl

theorem decodeRot_ok_iff {b : Byte} {r : Rot} : decodeRot b = .ok r ↔ b = r.code := by
  constructor
  · intro h
    unfold decodeRot at h
    split_ifs at h <;> cases h <;> assumption
  · rintro rfl
    cases r <;> rfl

theorem decodeBit_ok_iff {b : Byte} {on : Bool} : decodeBit b = .ok on ↔ b = bitCode on := by
  constructor
  · intro h
    unfold decodeBit at h
    split_ifs at h <;> cases h <;> assumption
  · rintro rfl
    cases on <;> rfl

@[simp] theorem decodePlane_code (p : Plane) : decodePlane p.code = .ok p := decodePlane_ok_iff.mpr rfl

@[simp] theorem decodeRot_code (r : Rot) : decodeRot r.code = .ok r := decodeRot_ok_iff.mpr rfl

@[simp] theorem decodeBit_bitCode (on : Bool) : decodeBit (bitCode on) = .ok on := decodeBit_ok_iff.mpr rfl

theorem decodeBuf_encodeBuf {buf : Buf} (h : buf.wf = true) : decodeBuf (encodeBuf buf) = .ok buf := by
  cases buf with
  | inline bs =>
    have hlen : bs.length < 2 ^ 32 := of_decide_eq_true h
    have hlayout : 4 ≤ (le32 (BitVec.ofNat 32 bs.length) ++ bs).length ∧
        (le32 (BitVec.ofNat 32 bs.length) ++ bs).length =
          4 + (u32At (le32 (BitVec.ofNat 32 bs.length) ++ bs) 0).toNat := by
      rw [u32At_le32_append, BitVec.toNat_ofNat, Nat.mod_eq_of_lt hlen, List.length_append, length_le32]
      omega
    rw [encodeBuf, decodeBuf, if_pos rfl, if_pos hlayout]
    rfl
  | plane p => cases p <;> rfl

theorem encodeBuf_of_decodeBuf {bs : List Byte} {buf : Buf} (h : decodeBuf bs = .ok buf) : encodeBuf buf = bs := by
  unfold decodeBuf at h
  split at h
  · cases h
  · next src rest =>
    split_ifs at h with hsrc hlayout hrest hbw hred
    · cases h
      obtain ⟨h4, hlen⟩ := hlayout
      have hfield : BitVec.ofNat 32 (rest.drop 4).length = u32At rest 0 := by
        rw [List.length_drop, hlen, Nat.add_sub_cancel_left, BitVec.ofNat_toNat, BitVec.setWidth_eq]
      rw [encodeBuf, hfield, hsrc, le32_u32At_zero h4, List.take_append_drop]
    · cases h
      rw [not_not.mp hrest, hbw]
      rfl
    · cases h
      rw [not_not.mp hrest, hred]
      rfl

theorem fixedOperands_of_length {n : Nat} {ops : List Byte} (h : ops.length = n) (k : Except DecodeError Instr) :
    fixedOperands n ops k = k := if_pos h

theorem fixedOperands_of_ne {n : Nat} {ops : List Byte} (h : ops.length ≠ n) (k : Except DecodeError Instr) :
    fixedOperands n ops k = .error .badFrameLength := if_neg h

theorem fixedOperands_ok_iff {n : Nat} {ops : List Byte} {k : Except DecodeError Instr} {i : Instr} :
    fixedOperands n ops k = .ok i ↔ ops.length = n ∧ k = .ok i := by
  by_cases h : ops.length = n
  · simp [fixedOperands_of_length h, h]
  · simp [fixedOperands_of_ne h, h]

/-! ### Selectors -/

theorem selectorOf_code (c : Selector) : selectorOf c.code = some c := by
  cases c <;> rfl

theorem code_of_selectorOf {b : Byte} {c : Selector} (h : selectorOf b = some c) : c.code = b := by
  unfold selectorOf at h
  simpa using List.find?_some h

theorem decode_code (c : Selector) (ops : List Byte) : decode (c.code :: ops) = decodeOperands c ops := by
  rw [decode, selectorOf_code]

theorem decode_unassigned {sel : Byte} (h : selectorOf sel = none) (ops : List Byte) :
    decode (sel :: ops) = .error .badSelector := by
  rw [decode, h]

/-- A frame is empty, has an unassigned selector, or is a selector's code and operands (R99, R103). -/
theorem frame_cases (f : Frame) : f = [] ∨ (∃ sel ops, f = sel :: ops ∧ selectorOf sel = none) ∨
    ∃ c ops, f = Selector.code c :: ops := by
  cases f with
  | nil => exact .inl rfl
  | cons sel ops =>
    cases hsel : selectorOf sel with
    | none => exact .inr (.inl ⟨sel, ops, rfl, hsel⟩)
    | some c => exact .inr (.inr ⟨c, ops, by rw [code_of_selectorOf hsel]⟩)

theorem decode_ok_cases {f : Frame} {i : Instr} (h : decode f = .ok i) :
    ∃ c ops, f = Selector.code c :: ops ∧ decodeOperands c ops = .ok i := by
  obtain rfl | ⟨sel, ops, rfl, hsel⟩ | ⟨c, ops, rfl⟩ := frame_cases f
  · cases h
  · rw [decode_unassigned hsel] at h
    cases h
  · exact ⟨c, ops, rfl, decode_code c ops ▸ h⟩

end Sys2Proof.Machine
end

section
/-! PROOFS. Encoding and decoding a host frame are inverse (O9, O10). -/

namespace Sys2Proof.Machine

/-! ### The round trip of a frame -/

/-- Operands that decode are the operands of the encoding. -/
theorem encode_of_decodeOperands {c : Selector} {ops : List Byte} {i : Instr} (h : decodeOperands c ops = .ok i) :
    encode i = .frame (c.code :: ops) := by
  have frame (sel : Byte) {l : List Byte} (hl : l = ops) : Encoding.frame (sel :: l) = .frame (sel :: ops) := by
    rw [hl]
  cases c with
  | init | clearBwFrame | clearRedFrame | displayFrame | displayPartialFrame =>
    obtain ⟨hlen, h⟩ := fixedOperands_ok_iff.mp h
    cases h
    exact frame _ (List.length_eq_zero_iff.mp hlen).symm
  | setRamWindow =>
    obtain ⟨hlen, h⟩ := fixedOperands_ok_iff.mp h
    cases h
    exact frame _ ((le32_quadruple hlen.ge).trans (List.take_of_length_le hlen.le))
  | setRamCounter =>
    obtain ⟨hlen, h⟩ := fixedOperands_ok_iff.mp h
    cases h
    exact frame _ ((le32_pair hlen.ge).trans (List.take_of_length_le hlen.le))
  | updateBwFrame | updateRedFrame =>
    obtain ⟨buf, hbuf, h⟩ := except_bind_ok h
    cases h
    exact frame _ (encodeBuf_of_decodeBuf hbuf)
  | updatePartialBwFrame =>
    obtain ⟨buf, hbuf, h⟩ := except_bind_ok h
    cases h
    have hlen : 16 ≤ ops.length := by
      by_contra hshort
      rw [List.drop_of_length_le (by omega)] at hbuf
      cases hbuf
    refine frame _ ?_
    rw [le32_quadruple hlen, encodeBuf_of_decodeBuf hbuf, List.take_append_drop]
  | fbNew | fbClear =>
    obtain ⟨hlen, h⟩ := fixedOperands_ok_iff.mp h
    obtain ⟨p, hp, h⟩ := except_bind_ok h
    obtain ⟨on, hon, h⟩ := except_bind_ok h
    cases h
    obtain ⟨a, b, rfl⟩ := List.length_eq_two.mp hlen
    rw [encode, ← decodePlane_ok_iff.mp hp, ← decodeBit_ok_iff.mp hon]
    rfl
  | fbSetRotation =>
    obtain ⟨hlen, h⟩ := fixedOperands_ok_iff.mp h
    obtain ⟨p, hp, h⟩ := except_bind_ok h
    obtain ⟨r, hr, h⟩ := except_bind_ok h
    cases h
    obtain ⟨a, b, rfl⟩ := List.length_eq_two.mp hlen
    rw [encode, ← decodePlane_ok_iff.mp hp, ← decodeRot_ok_iff.mp hr]
    rfl
  | fbSetPixel =>
    obtain ⟨hlen, h⟩ := fixedOperands_ok_iff.mp h
    obtain ⟨p, hp, h⟩ := except_bind_ok h
    obtain ⟨on, hon, h⟩ := except_bind_ok h
    cases h
    rw [encode, ← decodePlane_ok_iff.mp hp, ← decodeBit_ok_iff.mp hon]
    exact frame _ (pixel_operands hlen)
  | fbOutsideBounds | fbRotate | fbAddress =>
    obtain ⟨hlen, h⟩ := fixedOperands_ok_iff.mp h
    obtain ⟨r, hr, h⟩ := except_bind_ok h
    cases h
    rw [encode, ← decodeRot_ok_iff.mp hr]
    exact frame _ (point_operands hlen)
  | fbBufferLength =>
    obtain ⟨hlen, h⟩ := fixedOperands_ok_iff.mp h
    cases h
    exact frame _ (size_operands hlen)
  | fbRead =>
    obtain ⟨hlen, h⟩ := fixedOperands_ok_iff.mp h
    obtain ⟨p, hp, h⟩ := except_bind_ok h
    cases h
    obtain ⟨a, rfl⟩ := List.length_eq_one_iff.mp hlen
    rw [encode, ← decodePlane_ok_iff.mp hp]
    rfl

/-- What is encoded as a frame is a host operation (R90, R105). -/
theorem selector?_of_encode_frame {i : Instr} {f : Frame} (h : encode i = .frame f) :
    ∃ c, i.selector? = some c := by
  cases i with
  | swReset | driverControl | dataEntryMode | setRamXPos | setRamYPos | setRamXCounter | setRamYCounter
  | borderWaveformControl | tempControl | writeBwData | writeRedData | updateDisplayCtrl2 | masterActivate
  | muCmd | muData | muCmdData | muRepeat | muWaitIdle | muReset => cases h
  | _ => exact ⟨_, rfl⟩

@[simp] theorem except_ok_bind {ε α β : Type} (a : α) (f : α → Except ε β) : (Except.ok a >>= f) = f a := rfl

@[simp] theorem map_except_ok {ε α β : Type} (f : α → β) (a : α) :
    f <$> (.ok a : Except ε α) = .ok (f a) := rfl

/-- A well-formed host operation is encoded as its selector's code and operands that decode to it. -/
theorem encode_eq_decodable {i : Instr} {c : Selector} (hw : i.wf = true) (hc : i.selector? = some c) :
    ∃ ops, encode i = .frame (c.code :: ops) ∧ decodeOperands c ops = .ok i := by
  cases i with
  | init | clearBwFrame | clearRedFrame | displayFrame | displayPartialFrame =>
    cases hc
    exact ⟨_, rfl, rfl⟩
  | setRamWindow | setRamCounter | fbBufferLength =>
    cases hc
    exact ⟨_, rfl, by simp [decodeOperands, fixedOperands_of_length]⟩
  | updateBwFrame buf | updateRedFrame buf | updatePartialBwFrame _ _ _ _ buf =>
    cases hc
    have hbuf : decodeBuf (encodeBuf buf) = .ok buf := decodeBuf_encodeBuf hw
    exact ⟨_, rfl, by simp [decodeOperands, hbuf]⟩
  | fbNew | fbSetRotation | fbClear | fbRead =>
    cases hc
    exact ⟨_, rfl, by simp [decodeOperands, fixedOperands_of_length]⟩
  | fbSetPixel | fbOutsideBounds | fbRotate | fbAddress =>
    cases hc
    exact ⟨_, rfl, by
      simp [decodeOperands, fixedOperands_of_length, List.getD_cons_zero, List.getD_cons_succ,
        -List.getD_eq_getElem?_getD]⟩
  | _ => cases hc

/-- Settles O9: the operands of the encoding decode to the operation, shape by shape. -/
theorem decodeReadsBackEveryFrame : Obligations.DecodeReadsBackEveryFrame := by
  intro i f hw h
  obtain ⟨c, hc⟩ := selector?_of_encode_frame h
  obtain ⟨ops, henc, hdec⟩ := encode_eq_decodable hw hc
  cases h.symm.trans henc
  rw [decode_code, hdec]

/-- Settles O10: the fields read from a frame's operands, encoded again, are those operands. -/
theorem decodedFrameIsTheOnlyEncoding : Obligations.DecodedFrameIsTheOnlyEncoding := by
  intro f i h
  obtain ⟨c, ops, rfl, hops⟩ := decode_ok_cases h
  have henc := encode_of_decodeOperands hops
  obtain ⟨d, hd⟩ := selector?_of_encode_frame henc
  exact ⟨henc, decode_wf h, Option.isSome_of_mem hd⟩

end Sys2Proof.Machine
end

section
/-! PROOFS. Which frames are refused, and by which name (O5, O6, O7), and the frames of T-EN (O8). -/

namespace Sys2Proof.Machine

/-! ### Unassigned selectors -/

theorem selectorOf_eq_none_iff (sel : Byte) :
    selectorOf sel = none ↔ sel.toNat = 0x00 ∨ (0x0B ≤ sel.toNat ∧ sel.toNat ≤ 0x0F) ∨ 0x19 ≤ sel.toNat := by
  have hcodes : selectorOf sel = none ↔ ∀ c ∈ selectors, c.code ≠ sel := by simp [selectorOf, List.find?_eq_none]
  rw [hcodes]
  simp only [selectors, List.forall_mem_cons, Selector.code, List.not_mem_nil, false_imp_iff, implies_true, and_true]
  bv_omega

/-- The answer of a decoder of operands: it never blames the selector. -/
def NotBadSelector {α : Type} (x : Except DecodeError α) : Prop := x ≠ .error .badSelector

theorem NotBadSelector.bind {α β : Type} {x : Except DecodeError α} {f : α → Except DecodeError β}
    (hx : NotBadSelector x) (hf : ∀ a, NotBadSelector (f a)) : NotBadSelector (x >>= f) := by
  cases x with
  | error e => exact fun h => hx (by cases h; rfl)
  | ok a => exact hf a

theorem NotBadSelector.ok {α : Type} (a : α) : NotBadSelector (.ok a) := fun h => by cases h

theorem NotBadSelector.fixedOperands {n : Nat} {ops : List Byte} {k : Except DecodeError Instr}
    (hk : NotBadSelector k) : NotBadSelector (fixedOperands n ops k) := by
  unfold Sys2Proof.fixedOperands
  split_ifs
  · exact hk
  · exact fun h => by cases h

theorem decodePlane_notBadSelector (b : Byte) : NotBadSelector (decodePlane b) := by
  unfold decodePlane
  split_ifs <;> exact fun h => by cases h

theorem decodeRot_notBadSelector (b : Byte) : NotBadSelector (decodeRot b) := by
  unfold decodeRot
  split_ifs <;> exact fun h => by cases h

theorem decodeBit_notBadSelector (b : Byte) : NotBadSelector (decodeBit b) := by
  unfold decodeBit
  split_ifs <;> exact fun h => by cases h

theorem decodeBuf_notBadSelector (bs : List Byte) : NotBadSelector (decodeBuf bs) := by
  unfold decodeBuf
  split
  · exact fun h => by cases h
  · split_ifs <;> exact fun h => by cases h

theorem decodeOperands_notBadSelector (c : Selector) (ops : List Byte) : NotBadSelector (decodeOperands c ops) := by
  cases c with
  | init | setRamWindow | setRamCounter | clearBwFrame | clearRedFrame | displayFrame | displayPartialFrame
  | fbBufferLength => exact .fixedOperands (.ok _)
  | updateBwFrame | updateRedFrame | updatePartialBwFrame =>
    exact .bind (decodeBuf_notBadSelector _) fun _ => .ok _
  | fbNew | fbSetPixel | fbClear =>
    exact .fixedOperands (.bind (decodePlane_notBadSelector _) fun _ =>
      .bind (decodeBit_notBadSelector _) fun _ => .ok _)
  | fbSetRotation =>
    exact .fixedOperands (.bind (decodePlane_notBadSelector _) fun _ =>
      .bind (decodeRot_notBadSelector _) fun _ => .ok _)
  | fbOutsideBounds | fbRotate | fbAddress =>
    exact .fixedOperands (.bind (decodeRot_notBadSelector _) fun _ => .ok _)
  | fbRead => exact .fixedOperands (.bind (decodePlane_notBadSelector _) fun _ => .ok _)

/-- Settles O5: an assigned selector's operands are never refused for the selector, so only unassigned bytes are. -/
theorem unassignedSelectorsRefused : Obligations.UnassignedSelectorsRefused := by
  intro sel ops
  rw [← selectorOf_eq_none_iff]
  constructor
  · intro h
    cases hsel : selectorOf sel with
    | none => rfl
    | some c =>
      rw [← code_of_selectorOf hsel, decode_code] at h
      exact absurd h (decodeOperands_notBadSelector c ops)
  · exact fun h => decode_unassigned h ops

/-! ### The length told -/

theorem frameLength_fixed {c : Selector} {n : Nat} (hc : c.operands = (n, false)) (ops : List Byte) :
    frameLength (c.code :: ops) = some (1 + n) := by
  simp only [frameLength, selectorOf_code, hc]

theorem frameLength_fixed_or {c : Selector} {n : Nat} (hc : c.operands = (n, false)) (ops : List Byte)
    (k : Except DecodeError Instr) :
    frameLength (c.code :: ops) = some (c.code :: ops).length ∨ fixedOperands n ops k = .error .badFrameLength := by
  by_cases hlen : ops.length = n
  · exact .inl (by rw [frameLength_fixed hc, List.length_cons, hlen, Nat.add_comm])
  · exact .inr (fixedOperands_of_ne hlen k)

/-- A `buf` operand is as long as its source and length field say, or is refused for its length (R109). -/
theorem frameLength_buf_or {c : Selector} {n : Nat} (hc : c.operands = (n, true)) (ops : List Byte) :
    frameLength (c.code :: ops) = some (c.code :: ops).length ∨
      decodeBuf (ops.drop n) = .error .badFrameLength := by
  simp only [frameLength, selectorOf_code, hc]
  cases hbuf : ops.drop n with
  | nil => exact .inr rfl
  | cons src rest =>
    have hlen : ops.length = n + (rest.length + 1) := by
      have hdrop := congrArg List.length hbuf
      rw [List.length_drop, List.length_cons] at hdrop
      omega
    by_cases hsrc : src = 0
    · by_cases hlayout : 4 ≤ rest.length ∧ rest.length = 4 + (u32At rest 0).toNat
      · refine .inl ?_
        simp only [if_pos hsrc, List.length_cons, hlen, Option.some.injEq]
        omega
      · exact .inr (by simp only [decodeBuf, if_pos hsrc, if_neg hlayout])
    · by_cases hrest : rest = []
      · refine .inl ?_
        simp only [if_neg hsrc, hrest, List.length_cons, List.length_nil, hlen, Option.some.injEq]
        omega
      · exact .inr (by simp only [decodeBuf, if_neg hsrc, if_pos hrest])

theorem except_bind_error {ε α β : Type} {x : Except ε α} {e : ε} (h : x = .error e) (f : α → Except ε β) :
    (x >>= f) = .error e := by
  rw [h]
  rfl

/-- Operands of another length than the selector and the length field tell are refused for it (R99, R109, R247). -/
theorem frameLength_or_badFrameLength (c : Selector) (ops : List Byte) :
    frameLength (c.code :: ops) = some (c.code :: ops).length ∨ decodeOperands c ops = .error .badFrameLength := by
  cases c with
  | updateBwFrame | updateRedFrame =>
    exact (frameLength_buf_or (n := 0) rfl ops).imp_right fun h => except_bind_error h _
  | updatePartialBwFrame => exact (frameLength_buf_or rfl ops).imp_right fun h => except_bind_error h _
  | _ => exact frameLength_fixed_or rfl ops _

/-- A frame has the length told, or is refused: for its length, or, where none can be told, for its selector. -/
theorem frameLength_cases (f : Frame) :
    frameLength f = some f.length ∨ decode f = .error .badFrameLength ∨
      (frameLength f = none ∧ decode f = .error .badSelector) := by
  obtain rfl | ⟨sel, ops, rfl, hsel⟩ | ⟨c, ops, rfl⟩ := frame_cases f
  · exact .inr (.inl rfl)
  · exact .inr (.inr ⟨by simp only [frameLength, hsel], decode_unassigned hsel ops⟩)
  · rw [decode_code]
    exact (frameLength_or_badFrameLength c ops).imp_right .inl

/-- Settles O6: of the three cases of a frame, each decides what its length can be and what decoding it answers. -/
theorem frameLengthIsTold : Obligations.FrameLengthIsTold := by
  intro f
  obtain h | h | ⟨hnone, h⟩ := frameLength_cases f
  · exact ⟨fun n hn hne => absurd (Option.some.inj (h.symm.trans hn)) hne, fun _ _ => h, fun _ => h⟩
  · exact ⟨fun _ _ _ => h, fun i hi => (nomatch h.symm.trans hi), fun hb => (nomatch h.symm.trans hb)⟩
  · exact ⟨fun n hn => (nomatch hnone.symm.trans hn), fun i hi => (nomatch h.symm.trans hi),
      fun hb => (nomatch h.symm.trans hb)⟩

/-! ### Illegal operands -/

theorem decodePlane_of_le {b : Byte} (h : 2 ≤ b.toNat) : decodePlane b = .error .badOperand := by
  rw [decodePlane, if_neg (by bv_omega), if_neg (by bv_omega)]

theorem decodeRot_of_le {b : Byte} (h : 4 ≤ b.toNat) : decodeRot b = .error .badOperand := by
  rw [decodeRot, if_neg (by bv_omega), if_neg (by bv_omega), if_neg (by bv_omega), if_neg (by bv_omega)]

theorem decodeBit_of_le {b : Byte} (h : 2 ≤ b.toNat) : decodeBit b = .error .badOperand := by
  rw [decodeBit, if_neg (by bv_omega), if_neg (by bv_omega)]

theorem decodeBuf_of_le {b : Byte} (h : 3 ≤ b.toNat) (more : List Byte) :
    decodeBuf (b :: more) = .error (if more = [] then .badOperand else .badFrameLength) := by
  rw [decodeBuf, if_neg (by bv_omega)]
  by_cases hmore : more = []
  · rw [if_neg (not_not.mpr hmore), if_pos hmore, if_neg (by bv_omega), if_neg (by bv_omega)]
  · rw [if_pos hmore, if_neg hmore]

/-- A plane operand is legal, or refused by the name of the operand after it. -/
theorem decodePlane_bind_badOperand {α : Type} (b : Byte) {f : Plane → Except DecodeError α}
    (h : ∀ p, f p = .error .badOperand) : (decodePlane b >>= f) = .error .badOperand := by
  unfold decodePlane
  split_ifs
  · exact h _
  · exact h _
  · rfl

/-- A frame of its layout's length is decided by its operands. -/
theorem decode_of_length {c : Selector} {n : Nat} {ops : List Byte} {k : Except DecodeError Instr}
    (hk : decodeOperands c ops = fixedOperands n ops k) (hlen : ops.length = n) : decode (c.code :: ops) = k := by
  rw [decode_code, hk, fixedOperands_of_length hlen]

theorem getD_append_singleton {n : Nat} {ops : List Byte} (h : ops.length = n) (b : Byte) :
    (ops ++ [b]).getD n 0 = b := by
  subst h
  simp

theorem length_append_singleton {n : Nat} {ops : List Byte} (h : ops.length = n) (b : Byte) :
    (ops ++ [b]).length = n + 1 := by
  rw [List.length_append, h]
  rfl

theorem illegal_plane_refused {b : Byte} (h : 2 ≤ b.toNat) (c : Byte) (ops : List Byte) :
    decode [0x10, b, c] = .error .badOperand ∧ decode [0x11, b, c] = .error .badOperand ∧
      decode [0x13, b, c] = .error .badOperand ∧ decode [0x18, b] = .error .badOperand ∧
      (ops.length = 9 → decode (0x12 :: b :: ops) = .error .badOperand) := by
  have hb := decodePlane_of_le h
  refine ⟨?_, ?_, ?_, ?_, fun hlen => ?_⟩
  · exact (decode_of_length (c := .fbNew) rfl rfl).trans (except_bind_error hb _)
  · exact (decode_of_length (c := .fbSetRotation) rfl rfl).trans (except_bind_error hb _)
  · exact (decode_of_length (c := .fbClear) rfl rfl).trans (except_bind_error hb _)
  · exact (decode_of_length (c := .fbRead) rfl rfl).trans (except_bind_error hb _)
  · exact (decode_of_length (c := .fbSetPixel) rfl (congrArg (· + 1) hlen)).trans (except_bind_error hb _)

theorem illegal_rot_refused {b : Byte} (h : 4 ≤ b.toNat) (c : Byte) (ops : List Byte) :
    decode [0x11, c, b] = .error .badOperand ∧
      (ops.length = 12 → decode (0x14 :: (ops ++ [b])) = .error .badOperand ∧
        decode (0x15 :: (ops ++ [b])) = .error .badOperand ∧
        decode (0x16 :: (ops ++ [b])) = .error .badOperand) := by
  have hb := decodeRot_of_le h
  constructor
  · exact (decode_of_length (c := .fbSetRotation) rfl rfl).trans
      (decodePlane_bind_badOperand c fun _ => except_bind_error hb _)
  · intro hlen
    have hlast : decodeRot ((ops ++ [b]).getD 12 0) = .error .badOperand := by rwa [getD_append_singleton hlen]
    have hops := length_append_singleton hlen b
    exact ⟨(decode_of_length (c := .fbOutsideBounds) rfl hops).trans (except_bind_error hlast _),
      (decode_of_length (c := .fbRotate) rfl hops).trans (except_bind_error hlast _),
      (decode_of_length (c := .fbAddress) rfl hops).trans (except_bind_error hlast _)⟩

theorem illegal_bit_refused {b : Byte} (h : 2 ≤ b.toNat) (c : Byte) (ops : List Byte) :
    decode [0x10, c, b] = .error .badOperand ∧ decode [0x13, c, b] = .error .badOperand ∧
      (ops.length = 9 → decode (0x12 :: (ops ++ [b])) = .error .badOperand) := by
  have hb := decodeBit_of_le h
  refine ⟨?_, ?_, fun hlen => ?_⟩
  · exact (decode_of_length (c := .fbNew) rfl rfl).trans
      (decodePlane_bind_badOperand c fun _ => except_bind_error hb _)
  · exact (decode_of_length (c := .fbClear) rfl rfl).trans
      (decodePlane_bind_badOperand c fun _ => except_bind_error hb _)
  · have hlast : decodeBit ((ops ++ [b]).getD 9 0) = .error .badOperand := by rwa [getD_append_singleton hlen]
    exact (decode_of_length (c := .fbSetPixel) rfl (length_append_singleton hlen b)).trans
      (decodePlane_bind_badOperand _ fun _ => except_bind_error hlast _)

/-- A buffer source of 3 or more is refused whatever follows it, and for the operand where nothing does. -/
theorem illegal_src_refused {b : Byte} (h : 3 ≤ b.toNat) (ops more : List Byte) :
    decode (0x04 :: b :: more) = .error (if more = [] then .badOperand else .badFrameLength) ∧
      decode (0x05 :: b :: more) = .error (if more = [] then .badOperand else .badFrameLength) ∧
      (ops.length = 16 →
        decode (0x06 :: (ops ++ b :: more)) = .error (if more = [] then .badOperand else .badFrameLength)) := by
  have hb := decodeBuf_of_le h more
  refine ⟨?_, ?_, fun hlen => ?_⟩
  · exact (decode_code .updateBwFrame _).trans (except_bind_error hb _)
  · exact (decode_code .updateRedFrame _).trans (except_bind_error hb _)
  · rw [← List.drop_left' (l₂ := b :: more) hlen] at hb
    exact (decode_code .updatePartialBwFrame _).trans (except_bind_error hb _)

/-- Settles O7, operand type by operand type. -/
theorem illegalOperandsRefused : Obligations.IllegalOperandsRefused := by
  intro b c ops more
  refine ⟨fun h => illegal_plane_refused h c ops, fun h => illegal_rot_refused h c ops,
    fun h => illegal_bit_refused h c ops, fun h => ?_⟩
  obtain ⟨hbw, hred, hpartial⟩ := illegal_src_refused h ops []
  obtain ⟨hbw', hred', hpartial'⟩ := illegal_src_refused h ops more
  exact ⟨hbw, hred, hpartial, ⟨_, hbw'⟩, ⟨_, hred'⟩, fun hlen => ⟨_, hpartial' hlen⟩⟩

/-- Settles O8: closed frames, decoded. -/
theorem specFramesDecode : Obligations.SpecFramesDecode := by
  unfold Obligations.SpecFramesDecode
  decide

end Sys2Proof.Machine
end

section
/-! PROOFS. What a reader of a command gets back (O11), and the commands of SELECT_FULL_WINDOW (O52). -/

namespace Sys2Proof.Machine

/-! ### Reading a command -/

theorem decodeCommand_opcode_payload (c : Command) : decodeCommand c.opcode c.payload = .ok c := by
  cases c with
  | setRamYPos ys ye =>
    exact congrArg₂ (fun a b => Except.ok (Command.setRamYPos a b)) (u16_bytes_append ys) (u16_bytes_append ye)
  | setRamYCounter y => exact congrArg (fun a => Except.ok (Command.setRamYCounter a)) (u16_bytes_append y)
  | _ => rfl

theorem Command.isOpcode_opcode (c : Command) : isOpcode c.opcode = true := by
  cases c <;> rfl

/-- Settles O11: the reader's fields are the bytes that the payload is written from. -/
theorem wireCommandReadsBack : Obligations.WireCommandReadsBack := by
  intro c
  refine ⟨decodeCommand_opcode_payload c, Command.isOpcode_opcode c, ?_⟩
  cases c <;> rfl

/-! ### SELECT_FULL_WINDOW -/

/-- Draws that are good for two runs of actions are good for each. -/
theorem State.DrawsOk.of_add {s : State} {m n : Nat} (h : s.DrawsOk (m + n)) :
    s.DrawsOk m ∧ ∀ b ∈ (s.failIn.drop m).take n, b = false := by
  rw [State.DrawsOk, List.take_add] at h
  exact ⟨fun b hb => h b (List.mem_append_left _ hb), fun b hb => h b (List.mem_append_right _ hb)⟩

theorem exec_setRamWindow_full {s : State} (hs : s.Booted) :
    exec (.setRamWindow 0 0 199 199) s = .next (runOps (windowOps 0 0 199 199) .ok s) :=
  whenInitialized_of_booted hs _

theorem exec_setRamCounter_origin {s : State} (hs : s.Booted) :
    exec (.setRamCounter 0 0) s = .next (runOps (counterOps 0 0) .ok s) :=
  whenInitialized_of_booted hs _

/-- The port steps of the whole panel's window and then of the counter at the origin are those of full_select (R151). -/
theorem fullSelect_events :
    ((windowOps 0 0 199 199).flatMap microSteps).map PortStep.event ++
      ((counterOps 0 0).flatMap microSteps).map PortStep.event = fullSelectEvents := by
  decide

/-- Settles O52: each operation takes 16 of the 32 draws, and together they append the events of full_select. -/
theorem selectFullWindowIsFullSelect : Obligations.SelectFullWindowIsFullSelect := by
  refine ⟨rfl, by decide, fun s hs hdraws => ?_⟩
  obtain ⟨hwindow, hcounter⟩ := State.DrawsOk.of_add (m := 16) (n := 16) hdraws
  have ht := runOps_ok (windowOps 0 0 199 199) .ok s (by decide) hwindow
  have hdraws' : (runOps (windowOps 0 0 199 199) .ok s).DrawsOk 16 := by
    rw [ht]
    exact hcounter
  have hbooted : (runOps (windowOps 0 0 199 199) .ok s).Booted := by
    rw [ht]
    exact hs
  have hu := runOps_ok (counterOps 0 0) .ok _ (by decide) hdraws'
  refine ⟨_, _, exec_setRamWindow_full hs, exec_setRamCounter_origin hbooted, ?_, ?_⟩
  · rw [hu, ht, ← fullSelect_events, ← List.append_assoc]
    rfl
  · rw [hu, ht]
    rfl

end Sys2Proof.Machine
end

section
/-! PROOFS. The command bytes of the stream (O58). -/

namespace Sys2Proof.Machine

/-! ### The command bytes of the stream -/

/-- Every byte that the events send with DC low, DC standing at a level before them, is one of the thirteen opcodes. -/
def SendsOpcodes (dc : Level) (evs : List Event) : Prop :=
  ∀ q ∈ streamFrom dc evs, q.1 = .low → isOpcode q.2 = true

theorem SendsOpcodes.append_iff {dc : Level} {es fs : List Event} :
    SendsOpcodes dc (es ++ fs) ↔ SendsOpcodes dc es ∧ SendsOpcodes (dcAfter dc es) fs := by
  simp only [SendsOpcodes, streamFrom_append, List.forall_mem_append]

/-- Events that transfer nothing send nothing. -/
theorem SendsOpcodes.of_streamFrom_nil {dc : Level} {evs : List Event} (h : streamFrom dc evs = []) :
    SendsOpcodes dc evs := by
  intro q hq
  rw [h] at hq
  cases hq

/-- Data bytes are sent with DC high. -/
theorem SendsOpcodes.data_bracket (dc : Level) (xs : List (List Byte)) :
    SendsOpcodes dc ((bracket true xs).map PortStep.event) := by
  have hstream : streamFrom dc ((bracket true xs).map PortStep.event) =
      xs.flatten.map (fun b => (Level.of true, b)) := by
    simpa [streamFrom] using streamFrom_bracket dc true xs []
  intro q hq hlow
  rw [hstream] at hq
  obtain ⟨b, -, rfl⟩ := List.mem_map.mp hq
  cases hlow

theorem SendsOpcodes.cmd_bracket (dc : Level) {op : Byte} (h : isOpcode op = true) :
    SendsOpcodes dc ((bracket false [[op]]).map PortStep.event) := by
  intro q hq _
  rw [List.mem_singleton.mp hq]
  exact h

theorem microSteps_sendsOpcodes {m : MicroOp} (hm : m.wf = true) (dc : Level) :
    SendsOpcodes dc ((microSteps m).map PortStep.event) := by
  cases m with
  | cmd op => exact .cmd_bracket dc hm
  | data bs => exact .data_bracket dc _
  | cmdData op bs =>
    rw [microSteps, List.map_append]
    exact SendsOpcodes.append_iff.mpr ⟨.cmd_bracket dc hm, .data_bracket _ _⟩
  | repeatByte v n => exact .data_bracket dc _
  | waitIdle => exact .of_streamFrom_nil rfl
  | reset => exact .of_streamFrom_nil rfl

theorem streamFrom_samples (dc : Level) (n : Nat) : streamFrom dc (List.replicate n (.busy true)) = [] := by
  induction n with
  | zero => rfl
  | succ n ih => exact ih

theorem MicroEvents.sendsOpcodes {m : MicroOp} {evs : List Event} {e : MicroEnd} (h : MicroEvents m evs e)
    (hm : m.wf = true) (dc : Level) : SendsOpcodes dc evs := by
  cases h with
  | steps m _ => exact microSteps_sendsOpcodes hm dc
  | stepFails m _ pre p post a hsteps _ =>
    have hall := microSteps_sendsOpcodes hm dc
    rw [hsteps, List.map_append] at hall
    exact SendsOpcodes.append_iff.mpr ⟨(SendsOpcodes.append_iff.mp hall).1, .of_streamFrom_nil rfl⟩
  | waitDone k | waitFails k =>
    exact SendsOpcodes.append_iff.mpr
      ⟨.of_streamFrom_nil (streamFrom_samples dc k), .of_streamFrom_nil rfl⟩
  | waitGoesOn k => exact .of_streamFrom_nil (streamFrom_samples dc (k + 1))

theorem runOps_opcodeInv {ops : List MicroOp} (hw : ∀ m ∈ ops, m.wf = true) (c : Completion) {s : State}
    (hs : s.OpcodeInv) : (runOps ops c s).OpcodeInv := by
  refine runOps_keeps (P := State.OpcodeInv) ops ?_ ?_ ?_ ?_ s hs
  · intro m hm u hu
    obtain ⟨evs, busy, draws, e, hrun, hev⟩ := runMicro_cases m u
    rw [hrun]
    exact SendsOpcodes.append_iff.mpr ⟨hu, hev.sendsOpcodes (hw m hm) _⟩
  · exact fun u hu => by simpa [State.OpcodeInv] using hu
  · exact fun u hu => hu
  · exact fun u ms hu _ => hu

theorem Effect.opcodeInv {s t : State} {i : Instr} (h : Effect s i t) (hi : i.wf = true) (hs : s.OpcodeInv) :
    t.OpcodeInv := by
  obtain ⟨ops, c, hw, -, -, rfl⟩ | hq := h.ran_or_quiet
  · exact runOps_opcodeInv (hw hi) c hs
  · rw [State.OpcodeInv, hq.trace]
    exact hs

/-- Settles O58: a micro-operation that the block runs sends only its own opcode with DC low, and both a frame that
decodes and an operation in progress hold only such micro-operations. -/
theorem stepKeepsOpcodesAssigned : Obligations.StepKeepsOpcodesAssigned := by
  intro s t hrun hs h
  obtain ⟨hfault, ⟨-, -, rfl⟩ | ⟨r, hr, rfl⟩ | ⟨-, f, rest, i, -, hd, hx⟩⟩ := step_cases h
  · exact ⟨hrun, hs⟩
  · obtain ⟨-, -, hw, hc⟩ := hrun r hr
    exact ⟨(runOps_end r.rest r.done { s with running := none }).runningInv hfault rfl hw hc,
      runOps_opcodeInv hw r.done hs⟩
  · obtain ⟨hfree, he⟩ := exec_effect hx
    have hi := decode_wf hd
    exact ⟨he.runningInv hfree hi, he.opcodeInv hi hs⟩

end Sys2Proof.Machine
end

section
/-! SUPPORT. A sequence without waits as one list of port steps, and the transport error of one action in it (R138,
R241, R242). -/

namespace Sys2Proof.Machine

/-! ### Port steps in sequence -/

/-- Go on with more port steps where none has failed (R138). -/
def PortRun.andThen (r : PortRun) (more : List Bool → Lines → PortRun) : PortRun :=
  if r.failed then r
  else { more r.draws r.lines with events := r.events ++ (more r.draws r.lines).events }

theorem PortRun.andThen_of_failed {r : PortRun} (h : r.failed = true) (more : List Bool → Lines → PortRun) :
    r.andThen more = r := if_pos h

theorem PortRun.andThen_of_ok {r : PortRun} (h : r.failed = false) (more : List Bool → Lines → PortRun) :
    r.andThen more = { more r.draws r.lines with events := r.events ++ (more r.draws r.lines).events } :=
  if_neg (by simp [h])

theorem PortRun.cons_andThen (e : Event) (r : PortRun) (more : List Bool → Lines → PortRun) :
    (r.cons e).andThen more = (r.andThen more).cons e := by
  cases h : r.failed with
  | true => rw [andThen_of_failed h, andThen_of_failed (r := r.cons e) h]
  | false => rw [andThen_of_ok h, andThen_of_ok (r := r.cons e) h]; rfl

theorem perform_append (ps qs : List PortStep) (ds : List Bool) (ls : Lines) :
    perform (ps ++ qs) ds ls = (perform ps ds ls).andThen (perform qs) := by
  induction ps generalizing ds ls with
  | nil => rfl
  | cons p ps ih =>
    cases ha : p.action? with
    | none => simp only [List.cons_append, perform, ha, ih, PortRun.cons_andThen]
    | some a =>
      simp only [List.cons_append, perform, ha]
      split
      · exact (PortRun.andThen_of_failed rfl _).symm
      · rw [ih, PortRun.cons_andThen]

theorem runMicro_ports {m : MicroOp} (hm : m ≠ .waitIdle) (s : State) :
    runMicro m s = (s.afterPorts (perform (microSteps m) s.failIn s.lines),
      if (perform (microSteps m) s.failIn s.lines).failed then .failed else .done) := by
  cases m with
  | waitIdle => exact absurd rfl hm
  | _ => rfl

/-- The end of a sequence whose port steps have run: a transport error where one failed, else completion. -/
def State.endPorts (s : State) (c : Completion) (r : PortRun) : State :=
  if r.failed then (s.afterPorts r).raiseTransportError else (s.afterPorts r).complete c

theorem State.endPorts_afterPorts (s : State) {r : PortRun} (h : r.failed = false) (c : Completion)
    (more : List Bool → Lines → PortRun) :
    (s.afterPorts r).endPorts c (more r.draws r.lines) = s.endPorts c (r.andThen more) := by
  rw [PortRun.andThen_of_ok h]
  simp [State.endPorts, State.afterPorts]

/-- A sequence without waits is one run of all its port steps. -/
theorem runOps_eq_endPorts (ops : List MicroOp) (c : Completion) (s : State) (hw : .waitIdle ∉ ops) :
    runOps ops c s = s.endPorts c (perform (ops.flatMap microSteps) s.failIn s.lines) := by
  induction ops generalizing s with
  | nil => simp [runOps, perform, State.endPorts, State.afterPorts]
  | cons m ms ih =>
    rw [List.mem_cons, not_or] at hw
    have hrun := runMicro_ports (Ne.symm hw.1) s
    rw [List.flatMap_cons, perform_append]
    cases h : (perform (microSteps m) s.failIn s.lines).failed with
    | true =>
      rw [h] at hrun
      rw [runOps_cons_failed hrun, PortRun.andThen_of_failed h, State.endPorts, if_pos h]
    | false =>
      rw [h] at hrun
      rw [runOps_cons_done hrun, ih _ hw.2, ← State.endPorts_afterPorts s h]
      rfl

/-- A sequence without waits, the action of the step after `pre` the first to fail. -/
theorem runOps_fail {ops : List MicroOp} {pre post : List PortStep} {p : PortStep} {a : PortAction}
    (c : Completion) {s : State} (hw : .waitIdle ∉ ops) (hsteps : ops.flatMap microSteps = pre ++ p :: post)
    (hp : p.action? = some a) (hok : s.DrawsOk (drawCount pre)) (hfail : s.failIn[drawCount pre]? = some true) :
    runOps ops c s = s.failedAt (pre.map PortStep.event) a (drawCount pre + 1) := by
  rw [runOps_eq_endPorts ops c s hw, hsteps, perform_fail pre p post a _ _ hp hok hfail]
  rfl

/-! ### Sequences in which every port step may fail -/

theorem PortStep.action?_event (p : PortStep) : p.event.action? = p.action? := by
  cases p <;> rfl

theorem drawCount_of_actions {ps : List PortStep} (h : ∀ p ∈ ps, p.action?.isSome = true) :
    drawCount ps = ps.length := by
  rw [drawCount, List.filter_eq_self.mpr h]

/-- The action recorded at place `k` is that of the port step there. -/
theorem exists_step_of_action? {ps : List PortStep} {k : Nat} {a : PortAction}
    (h : ((ps.map PortStep.event)[k]?).bind Event.action? = some a) :
    ∃ p, p.action? = some a ∧ k < ps.length ∧ ps = ps.take k ++ p :: ps.drop (k + 1) := by
  obtain ⟨e, he, ha⟩ := Option.bind_eq_some_iff.mp h
  rw [List.getElem?_map] at he
  obtain ⟨p, hp, rfl⟩ := Option.map_eq_some_iff.mp he
  obtain ⟨hk, rfl⟩ := List.getElem?_eq_some_iff.mp hp
  exact ⟨ps[k], (PortStep.action?_event _).symm.trans ha, hk,
    by rw [← List.drop_eq_getElem_cons hk, List.take_append_drop]⟩

/-- An instruction that runs a sequence without waits and delays performs its events: its port steps all succeed, or
the one at place `k` is the first to fail. -/
theorem performs_of_runOps {s : State} {i : Instr} {ops : List MicroOp} {c : Completion} {evs : List Event}
    {dc : Level} (hexec : exec i s = .next (runOps ops c s)) (hw : .waitIdle ∉ ops)
    (hactions : ∀ p ∈ ops.flatMap microSteps, p.action?.isSome = true)
    (hevs : (ops.flatMap microSteps).map PortStep.event = evs)
    (hlines : linesAfter s.lines evs = { s.lines with csN := .high, dc := dc }) :
    Performs s i evs dc (·.complete c) := by
  subst hevs
  constructor
  · intro hok
    rw [List.length_map, ← drawCount_of_actions hactions] at hok ⊢
    rw [hexec, runOps_ok ops c s hw hok, hlines]
    rfl
  · intro k a hk hok hfail
    obtain ⟨p, hp, hlt, hsteps⟩ := exists_step_of_action? hk
    have hcount : drawCount ((ops.flatMap microSteps).take k) = k := by
      rw [drawCount_of_actions fun q hq => hactions q (List.mem_of_mem_take hq), List.length_take_of_le hlt.le]
    rw [hexec, runOps_fail c hw hsteps hp (by rwa [hcount]) (by rwa [hcount]), hcount, List.map_take]

/-! ### Brackets -/

theorem bracket_actions (dc : Bool) (xs : List (List Byte)) : ∀ p ∈ bracket dc xs, p.action?.isSome = true := by
  intro p hp
  simp only [bracket, List.mem_cons, List.mem_append, List.mem_map, List.not_mem_nil, or_false] at hp
  rcases hp with rfl | rfl | ⟨bs, -, rfl⟩ | rfl <;> rfl

/-- Transfers leave the lines. -/
theorem linesAfter_xfers (ls : Lines) (xs : List (List Byte)) : linesAfter ls (xs.map Event.xfer) = ls := by
  induction xs with
  | nil => rfl
  | cons x xs ih => exact ih

/-- A bracket leaves CS_N high and DC as it drove it (R130). -/
theorem linesAfter_bracket (ls : Lines) (dc : Bool) (xs : List (List Byte)) :
    linesAfter ls ((bracket dc xs).map PortStep.event) = { ls with csN := .high, dc := .of dc } := by
  rw [bracket_events, linesAfter_cons, linesAfter_cons, linesAfter_append, linesAfter_xfers]
  rfl

theorem data_events (d : List Byte) : (microSteps (.data d)).map PortStep.event = dataEvents d :=
  bracket_events true (chunks d)

theorem cmdData_events (op : Byte) (d : List Byte) :
    (microSteps (.cmdData op d)).map PortStep.event = cmdEvents op ++ dataEvents d := by
  rw [microSteps, List.map_append]
  exact congrArg (cmdEvents op ++ ·) (data_events d)

theorem repeat_events (v : Byte) (n : Nat) :
    (microSteps (.repeatByte v n)).map PortStep.event = repeatEvents v n := by
  rw [microSteps, bracket_events, List.map_replicate]
  rfl

end Sys2Proof.Machine
end

section
/-! PROOFS. The bracket discipline of traces without failure (O56). -/

namespace Sys2Proof.Machine

/-- Events that, from outside a chip-select bracket, keep the discipline of R139 and end outside a bracket. -/
def KeepsBrackets (evs : List Event) : Prop := evs.foldl bracketStep (some false) = some false

theorem KeepsBrackets.append {es fs : List Event} (hes : KeepsBrackets es) (hfs : KeepsBrackets fs) :
    KeepsBrackets (es ++ fs) := by
  rw [KeepsBrackets, List.foldl_append, hes]
  exact hfs

/-- Inside a bracket transfers are allowed, and end inside it. -/
theorem foldl_bracketStep_xfers (xs : List (List Byte)) :
    (xs.map Event.xfer).foldl bracketStep (some true) = some true := by
  induction xs with
  | nil => rfl
  | cons x xs ih => exact ih

theorem KeepsBrackets.bracket (dc : Bool) (xs : List (List Byte)) :
    KeepsBrackets ((bracket dc xs).map PortStep.event) := by
  rw [KeepsBrackets, bracket_events, List.foldl_cons, List.foldl_cons, List.foldl_append]
  exact congrArg ([Event.line .csN true].foldl bracketStep ·) (foldl_bracketStep_xfers xs)

theorem KeepsBrackets.samples (n : Nat) : KeepsBrackets (List.replicate n (.busy true)) := by
  induction n with
  | zero => rfl
  | succ n ih => exact ih

theorem KeepsBrackets.microSteps (m : MicroOp) : KeepsBrackets ((microSteps m).map PortStep.event) := by
  cases m with
  | cmd op => exact .bracket false [[op]]
  | data d => exact .bracket true (chunks d)
  | cmdData op d =>
    rw [Machine.microSteps, List.map_append]
    exact (KeepsBrackets.bracket false [[op]]).append (.bracket true (chunks d))
  | repeatByte v n => exact .bracket true _
  | waitIdle => rfl
  | reset => rfl

theorem noFail_append_fail (es : List Event) (a : PortAction) : noFail (es ++ [.fail a]) = false := by
  rw [noFail_append]
  exact Bool.and_false _

theorem MicroEvents.keepsBrackets {m : MicroOp} {evs : List Event} {e : MicroEnd} (h : MicroEvents m evs e)
    (hf : noFail evs = true) : KeepsBrackets evs := by
  cases h with
  | steps m _ => exact .microSteps m
  | waitDone k => exact (KeepsBrackets.samples k).append rfl
  | stepFails | waitFails =>
    rw [noFail_append_fail] at hf
    cases hf
  | waitGoesOn k => exact .samples (k + 1)

theorem runOps_bracketInv (ops : List MicroOp) (c : Completion) {s : State} (hs : s.BracketInv) :
    (runOps ops c s).BracketInv := by
  refine runOps_keeps (P := State.BracketInv) ops ?_ ?_ ?_ ?_ s hs
  · intro m _ u hu
    obtain ⟨evs, busy, draws, e, hrun, hev⟩ := runMicro_cases m u
    rw [hrun]
    intro hf
    obtain ⟨hfu, hfevs⟩ := Bool.and_eq_true_iff.mp (noFail_append u.trace evs ▸ hf)
    exact KeepsBrackets.append (hu hfu) (hev.keepsBrackets hfevs)
  · exact fun u hu => by simpa [State.BracketInv] using hu
  · exact fun u hu => hu
  · exact fun u ms hu _ => hu

theorem Effect.bracketInv {s t : State} {i : Instr} (h : Effect s i t) (hs : s.BracketInv) : t.BracketInv := by
  obtain ⟨ops, c, -, -, -, rfl⟩ | hq := h.ran_or_quiet
  · exact runOps_bracketInv ops c hs
  · rw [State.BracketInv, hq.trace]
    exact hs

/-- Settles O56: a micro-operation none of whose actions fails opens and closes its own brackets, and a wait that stands
in between leaves none open. -/
theorem stepKeepsBrackets : Obligations.StepKeepsBrackets := by
  intro s t hs h
  obtain ⟨-, ⟨-, -, rfl⟩ | ⟨r, -, rfl⟩ | ⟨-, f, rest, i, -, -, hx⟩⟩ := step_cases h
  · exact hs
  · exact runOps_bracketInv r.rest r.done hs
  · exact (exec_effect hx).2.bracketInv hs

end Sys2Proof.Machine
end

section
/-! PROOFS. The pieces of a payload (O12). -/

namespace Sys2Proof.Machine

/-- The first `n` pieces of `c` bytes are the first `n * c` bytes, in order. -/
theorem flatten_pieces (s : List Byte) (c n : Nat) :
    ((List.range n).map fun k => (s.drop (k * c)).take c).flatten = s.take (n * c) := by
  induction n with
  | zero => simp
  | succ n ih =>
    rw [List.range_succ, List.map_append, List.flatten_append, ih, Nat.succ_mul, List.take_add]
    simp

theorem flatten_chunks (s : List Byte) : (chunks s).flatten = s := by
  rw [chunks, flatten_pieces]
  exact List.take_of_length_le (by rw [Config.chunkMax_eq]; omega)

theorem length_chunks (s : List Byte) : (chunks s).length = (s.length + 4095) / 4096 := by
  rw [chunks, List.length_map, List.length_range, Config.chunkMax_eq]

theorem getElem?_chunks {s : List Byte} {k : Nat} (h : k < (chunks s).length) :
    (chunks s)[k]? = some ((s.drop (k * 4096)).take 4096) := by
  rw [length_chunks] at h
  simp [chunks, h]

/-- A piece with another after it is full. -/
theorem length_chunk_of_succ_lt {s : List Byte} {k : Nat} (h : k + 1 < (chunks s).length) :
    ((chunks s)[k]?).map List.length = some 4096 := by
  rw [getElem?_chunks (by omega), Option.map_some, List.length_take, List.length_drop]
  rw [length_chunks] at h
  congr 1
  omega

/-- Settles O12, fact by fact. -/
theorem chunksCoverInOrder : Obligations.ChunksCoverInOrder := by
  intro s
  exact ⟨flatten_chunks s, length_chunks s, fun _ => length_of_mem_chunks, fun _ => length_chunk_of_succ_lt⟩

end Sys2Proof.Machine
end

section
/-! PROOFS. The micro-operations that send (O13, O14, O15, O16). -/

namespace Sys2Proof.Machine

/-- Every port step of a micro-operation may fail, but for the delays of MU_RESET (R138, R255). -/
theorem microSteps_actions {m : MicroOp} (hm : m ≠ .reset) : ∀ p ∈ microSteps m, p.action?.isSome = true := by
  cases m with
  | cmd op => exact bracket_actions false _
  | data d => exact bracket_actions true _
  | cmdData op d => exact List.forall_mem_append.mpr ⟨bracket_actions false _, bracket_actions true _⟩
  | repeatByte v n => exact bracket_actions true _
  | waitIdle => exact fun _ hp => absurd hp List.not_mem_nil
  | reset => exact absurd rfl hm

theorem linesAfter_cmdEvents (ls : Lines) (op : Byte) :
    linesAfter ls (cmdEvents op) = { ls with csN := .high, dc := .low } := rfl

theorem linesAfter_dataEvents (ls : Lines) (d : List Byte) :
    linesAfter ls (dataEvents d) = { ls with csN := .high, dc := .high } := by
  rw [← data_events]
  exact linesAfter_bracket ls true _

theorem linesAfter_repeatEvents (ls : Lines) (v : Byte) (n : Nat) :
    linesAfter ls (repeatEvents v n) = { ls with csN := .high, dc := .high } := by
  rw [← repeat_events]
  exact linesAfter_bracket ls true _

/-- A sending micro-operation as an instruction on its own. -/
theorem performs_of_micro {s : State} {i : Instr} {m : MicroOp} {evs : List Event} {dc : Level}
    (hexec : exec i s = .next (runOps [m] .quiet s)) (hw : m ≠ .waitIdle) (hr : m ≠ .reset)
    (hevs : (microSteps m).map PortStep.event = evs)
    (hlines : linesAfter s.lines evs = { s.lines with csN := .high, dc := dc }) : Performs s i evs dc id := by
  have hsteps : [m].flatMap microSteps = microSteps m := List.flatMap_singleton microSteps m
  refine performs_of_runOps hexec ?_ ?_ ?_ hlines
  · exact fun h => hw (List.mem_singleton.mp h).symm
  · rw [hsteps]; exact microSteps_actions hr
  · rw [hsteps]; exact hevs

/-- Settles O13: one bracket with DC low round the opcode. -/
theorem muCmdPerforms : Obligations.MuCmdPerforms := by
  intro s op hs
  exact performs_of_micro (whenFree_of_free hs _) (by simp) (by simp) rfl (linesAfter_cmdEvents ..)

/-- Settles O14: one bracket with DC high, a transfer for each piece. -/
theorem muDataPerforms : Obligations.MuDataPerforms := by
  intro s d hs
  refine ⟨performs_of_micro (whenFree_of_free hs _) (by simp) (by simp) (data_events d)
    (linesAfter_dataEvents ..), ?_⟩
  simp only [dataEvents, List.length_append, List.length_map, length_chunks, List.length_cons, List.length_nil]
  omega

/-- Settles O15: the bracket of the opcode and then that of the payload, which leaves DC high. -/
theorem muCmdDataPerforms : Obligations.MuCmdDataPerforms := by
  intro s op d hs
  refine performs_of_micro (whenFree_of_free hs _) (by simp) (by simp) (cmdData_events op d) ?_
  rw [linesAfter_append, linesAfter_cmdEvents, linesAfter_dataEvents]

theorem stream_repeatEvents (v : Byte) (n : Nat) : stream (repeatEvents v n) = List.replicate n (.high, v) := by
  have hbracket := streamFrom_bracket .undef true (List.replicate n [v]) []
  rw [List.append_nil, List.flatten_replicate_singleton, List.map_replicate] at hbracket
  rw [← repeat_events]
  exact hbracket.trans (List.append_nil _)

/-- Settles O16: one bracket with DC high, a transfer for each repetition. -/
theorem muRepeatPerforms : Obligations.MuRepeatPerforms := by
  intro s v n hs
  refine ⟨performs_of_micro (whenFree_of_free hs _) (by simp) (by simp) (repeat_events v n)
    (linesAfter_repeatEvents ..), ?_, stream_repeatEvents v n⟩
  simp only [repeatEvents, List.length_append, List.length_replicate, List.length_cons, List.length_nil]
  omega

end Sys2Proof.Machine
end

section
/-! PROOFS. The wait for BUSY (O17) and the reset pulse (O18). -/

namespace Sys2Proof.Machine

/-! ### The wait -/

theorem nextFails_of_getElem? {ds : List Bool} (h : ds[0]? = some true) : nextFails ds = true := by
  cases ds with
  | nil => cases h
  | cons d ds => exact Option.some.inj h

/-- A wait whose sample after `k` times 1 fails: the samples after those `k` stay (R136, R241). -/
theorem pollBusy_fail (k : Nat) (bs : List Bool) (rest : Bool) (ds : List Bool)
    (h : ∀ b ∈ ds.take k, b = false) (hfail : ds[k]? = some true) :
    pollBusy (List.replicate k true ++ bs) rest ds =
      { events := List.replicate k (.busy true) ++ [.fail .sampleBusy], busy := bs, draws := ds.drop (k + 1),
        ending := .failed } := by
  induction k generalizing ds with
  | zero => cases bs <;> simp [pollBusy, nextFails_of_getElem? hfail]
  | succ k ih =>
    rw [← List.getElem?_tail] at hfail
    simp only [List.replicate_succ, List.cons_append, pollBusy, nextFails_of_take h, ih ds.tail (tail_take h) hfail,
      WaitRun.cons, Bool.false_eq_true, if_false, if_true, List.drop_tail]

/-- A wait that takes `k + 1` samples of 1 and has not ended (R254). -/
theorem pollBusy_stuck (k : Nat) (ds : List Bool) (h : ∀ b ∈ ds.take (k + 1), b = false) :
    pollBusy (List.replicate k true) true ds =
      { events := List.replicate (k + 1) (.busy true), busy := [], draws := ds.drop (k + 1), ending := .waiting } := by
  induction k generalizing ds with
  | zero => simp [pollBusy, nextFails_of_take h]
  | succ k ih =>
    rw [List.replicate_succ, List.replicate_succ (n := k + 1)]
    simp only [pollBusy, nextFails_of_take h, ih ds.tail (tail_take h), WaitRun.cons, Bool.false_eq_true, if_false,
      if_true, List.drop_tail]

/-- A wait in a state whose samples to come are `bs` and then the level `rest`. -/
theorem runMicro_waitIdle {s : State} {bs : List Bool} {rest : Bool} {r : WaitRun} (hbusy : s.busyIn = bs)
    (hrest : s.busyRest = rest) (h : pollBusy bs rest s.failIn = r) :
    runMicro .waitIdle s = (s.afterWait r, r.ending) := by
  subst hbusy hrest h
  rfl

theorem exec_muWaitIdle {s : State} (hs : s.Free) :
    exec .muWaitIdle s = .next (runOps [.waitIdle] .quiet s) := whenFree_of_free hs _

/-- Settles O17: what the wait does in each of the four ways the next samples and draws can stand. -/
theorem muWaitIdlePolls : Obligations.MuWaitIdlePolls := by
  intro s k bs hs
  rw [exec_muWaitIdle hs]
  refine ⟨fun hbusy hok => ?_, fun hbusy hrest hok => ?_, fun hbusy hok hfail => ?_, fun hbusy hrest hok => ?_⟩
  · rw [runOps_cons_done (runMicro_waitIdle hbusy rfl (pollBusy_idle k bs _ _ hok))]
    rfl
  · rw [runOps_cons_done (runMicro_waitIdle hbusy hrest (pollBusy_rest_idle k _ hok))]
    rfl
  · rw [runOps_cons_failed (runMicro_waitIdle hbusy rfl (pollBusy_fail k bs _ _ hok hfail))]
    rfl
  · rw [runOps_cons_waiting (runMicro_waitIdle hbusy hrest (pollBusy_stuck k _ hok))]
    rfl

/-! ### The reset pulse -/

theorem exec_muReset {s : State} (hs : s.Free) : exec .muReset s = .next (runOps [.reset] .quiet s) :=
  whenFree_of_free hs _

/-- Settles O18: of the four port steps the two drives take a draw. -/
theorem muResetPerforms : Obligations.MuResetPerforms := by
  intro s hs
  rw [exec_muReset hs]
  refine ⟨fun hok => ?_, fun hfail => ?_, fun hok hfail => ?_⟩
  · rw [runOps_ok [.reset] .quiet s (by decide) hok]
    rfl
  · rw [runOps_fail (pre := []) .quiet (by decide) rfl rfl (by simp [drawCount]) hfail]
    rfl
  · rw [runOps_fail (pre := [.drive .rstN false, .delay 10]) .quiet (by decide) rfl rfl hok hfail]
    rfl

end Sys2Proof.Machine
end

section
/-! SUPPORT. The events of a sequence of micro-operations that completes, and the sequences of the sequencer operations
(R150, R151). -/

namespace Sys2Proof.Machine

/-! ### The events of a sequence that completes -/

/-- The events of a sequence each of whose micro-operations completes, its waits after any numbers of samples of 1. -/
inductive OpsEvents : List MicroOp → List Event → Prop
  | nil : OpsEvents [] []
  | cons {m : MicroOp} {ms : List MicroOp} {es evs : List Event} (hm : MicroEvents m es .done)
      (h : OpsEvents ms evs) : OpsEvents (m :: ms) (es ++ evs)

theorem OpsEvents.single {m : MicroOp} {es : List Event} (hm : MicroEvents m es .done) : OpsEvents [m] es := by
  simpa using OpsEvents.cons hm .nil

theorem OpsEvents.append {ops ops' : List MicroOp} {evs evs' : List Event} (h : OpsEvents ops evs)
    (h' : OpsEvents ops' evs') : OpsEvents (ops ++ ops') (evs ++ evs') := by
  induction h with
  | nil => exact h'
  | cons hm _ ih =>
    rw [List.append_assoc]
    exact .cons hm ih

/-- Without waits the events are those of the port steps, in order. -/
theorem OpsEvents.map_event {ops : List MicroOp} {evs : List Event} (h : OpsEvents ops evs)
    (hw : .waitIdle ∉ ops) : (ops.flatMap microSteps).map PortStep.event = evs := by
  induction h with
  | nil => rfl
  | cons hm _ ih =>
    rw [List.mem_cons, not_or] at hw
    rw [List.flatMap_cons, List.map_append, ih hw.2]
    cases hm with
    | steps => rfl
    | waitDone k => exact absurd rfl hw.1

theorem OpsEvents.wait (k : Nat) : OpsEvents [.waitIdle] (waitEvents k) := .single (.waitDone k)

theorem OpsEvents.reset : OpsEvents [.reset] resetEvents := .single (.steps .reset (by simp))

theorem OpsEvents.cmd (op : Byte) : OpsEvents [.cmd op] (cmdEvents op) := .single (.steps (.cmd op) (by simp))

theorem OpsEvents.cmdData (op : Byte) (d : List Byte) : OpsEvents [.cmdData op d] (commandEvents op d) := by
  rw [commandEvents, ← cmdData_events]
  exact .single (.steps _ (by simp))

theorem OpsEvents.repeatByte (v : Byte) (n : Nat) : OpsEvents [.repeatByte v n] (repeatEvents v n) := by
  rw [← repeat_events]
  exact .single (.steps _ (by simp))

/-! ### Windows and counters (R97, R151, R153, R154) -/

theorem byteOf_eq (n : Nat) : byteOf n = BitVec.ofNat 8 n := by
  apply BitVec.eq_of_toNat_eq
  simp [byteOf]

/-- A Y position is sent low byte first (R71, R97). -/
theorem le16_yWord (y : Nat) : le16 (yWord y) = [byteOf y, byteOf (y / 256)] := by
  rw [le16, yWord, byteOf_eq, byteOf_eq, List.cons.injEq, List.cons.injEq]
  refine ⟨BitVec.eq_of_toNat_eq ?_, BitVec.eq_of_toNat_eq ?_, rfl⟩
  · simp only [BitVec.extractLsb'_toNat, BitVec.toNat_ofNat, Nat.shiftRight_zero]
    omega
  · simp only [BitVec.extractLsb'_toNat, BitVec.toNat_ofNat, Nat.shiftRight_eq_div_pow]
    omega

theorem OpsEvents.window (sx sy ex ey : Nat) :
    OpsEvents (windowOps sx sy ex ey) (windowEvents sx sy ex ey) := by
  have hx : (xWindow sx ex).payload = [byteOf (sx / 8), byteOf (ex / 8)] := by
    rw [byteOf_eq, byteOf_eq]
    rfl
  have hy : (yWindow sy ey).payload = [byteOf sy, byteOf (sy / 256), byteOf ey, byteOf (ey / 256)] :=
    congrArg₂ (· ++ ·) (le16_yWord sy) (le16_yWord ey)
  rw [windowEvents, ← hx, ← hy]
  exact (OpsEvents.cmdData _ _).append (.cmdData _ _)

theorem OpsEvents.counter (x y : Nat) : OpsEvents (counterOps x y) (counterEvents x y) := by
  have hx : (xCounter x).payload = [byteOf (x / 8)] := by
    rw [byteOf_eq]
    rfl
  have hy : (yCounter y).payload = [byteOf y, byteOf (y / 256)] := le16_yWord y
  rw [counterEvents, ← hx, ← hy]
  exact (OpsEvents.cmdData _ _).append (.cmdData _ _)

theorem OpsEvents.fullSelect : OpsEvents fullSelect fullSelectEvents := by
  rw [fullSelectEvents, List.append_assoc]
  exact (OpsEvents.window 0 0 199 199).append (.counter 0 0)

/-! ### The lines after a command or a sequence of commands -/

theorem linesAfter_commandEvents (ls : Lines) (op : Byte) (d : List Byte) :
    linesAfter ls (commandEvents op d) = { ls with csN := .high, dc := .high } := by
  rw [commandEvents, linesAfter_append, linesAfter_cmdEvents, linesAfter_dataEvents]

theorem linesAfter_counterEvents (ls : Lines) (x y : Nat) :
    linesAfter ls (counterEvents x y) = { ls with csN := .high, dc := .high } := by
  rw [counterEvents, linesAfter_append, linesAfter_commandEvents, linesAfter_commandEvents]

theorem linesAfter_windowEvents (ls : Lines) (sx sy ex ey : Nat) :
    linesAfter ls (windowEvents sx sy ex ey) = { ls with csN := .high, dc := .high } := by
  rw [windowEvents, linesAfter_append, linesAfter_commandEvents, linesAfter_commandEvents]

/-! ### Sequences without waits and delays -/

/-- A micro-operation that only sends: each of its events may fail, for it has no wait and no delay (R138, R255). -/
def Sends (m : MicroOp) : Prop := m ≠ .waitIdle ∧ m ≠ .reset

theorem emission_sends (c : Command) : Sends (emission c) := by
  cases c <;> exact ⟨by simp [emission], by simp [emission]⟩

theorem windowOps_send {sx sy ex ey : Nat} : ∀ m ∈ windowOps sx sy ex ey, Sends m := by
  simp [windowOps, emission_sends]

theorem counterOps_send {x y : Nat} : ∀ m ∈ counterOps x y, Sends m := by
  simp [counterOps, emission_sends]

theorem fullSelect_send : ∀ m ∈ fullSelect, Sends m :=
  List.forall_mem_append.mpr ⟨windowOps_send, counterOps_send⟩

/-- An instruction that runs such a sequence performs its events. -/
theorem performs_of_opsEvents {s : State} {i : Instr} {ops : List MicroOp} {c : Completion} {evs : List Event}
    {dc : Level} (hexec : exec i s = .next (runOps ops c s)) (hsends : ∀ m ∈ ops, Sends m)
    (hevs : OpsEvents ops evs) (hlines : linesAfter s.lines evs = { s.lines with csN := .high, dc := dc }) :
    Performs s i evs dc (·.complete c) := by
  have hw : MicroOp.waitIdle ∉ ops := fun h => (hsends _ h).1 rfl
  refine performs_of_runOps hexec hw (fun p hp => ?_) (hevs.map_event hw) hlines
  obtain ⟨m, hm, hp⟩ := List.mem_flatMap.mp hp
  exact microSteps_actions (hsends m hm).2 p hp

end Sys2Proof.Machine
end

section
/-! PROOFS. The sequencer operations without a wait (O22, O23, O24, O25, O26, O27). -/

namespace Sys2Proof.Machine

/-! ### Windows and counters -/

theorem refusedBeforeInit_of_needsInit {i : Instr} (h : i.needsInit = true) : RefusedBeforeInit i :=
  fun _ hs hphase => exec_uninitialized hs h hphase

theorem exec_setRamWindow {s : State} (hs : s.Booted) (sx sy ex ey : U32) :
    exec (.setRamWindow sx sy ex ey) s =
      if ¬ sx.toNat < ex.toNat then fatalAnswer s (.windowOrder .x sx.toNat ex.toNat)
      else if ¬ sy.toNat < ey.toNat then fatalAnswer s (.windowOrder .y sy.toNat ey.toNat)
      else runAnswer (windowOps sx.toNat sy.toNat ex.toNat ey.toNat) .ok s :=
  whenInitialized_of_booted hs _

/-- Settles O22: the two checks in their order, then the commands of the window. -/
theorem setRamWindowSendsOrFaults : Obligations.SetRamWindowSendsOrFaults := by
  intro s sx sy ex ey hs
  refine ⟨fun hx hy => ?_, fun hx => ?_, fun hx hy => ?_, refusedBeforeInit_of_needsInit rfl, _, rfl⟩
  · have hexec := exec_setRamWindow hs sx sy ex ey
    rw [if_neg (not_not_intro hx), if_neg (not_not_intro hy)] at hexec
    exact performs_of_opsEvents hexec windowOps_send (.window ..) (linesAfter_windowEvents ..)
  · rw [exec_setRamWindow hs, if_pos (Nat.not_lt.mpr hx)]
    rfl
  · rw [exec_setRamWindow hs, if_neg (not_not_intro hx), if_pos (Nat.not_lt.mpr hy)]
    rfl

/-- Settles O23: the commands of the counter, with no check before them. -/
theorem setRamCounterSends : Obligations.SetRamCounterSends := by
  intro s x y hs
  exact ⟨performs_of_opsEvents (c := .ok) (whenInitialized_of_booted hs _) counterOps_send (.counter ..)
    (linesAfter_counterEvents ..), refusedBeforeInit_of_needsInit rfl, _, rfl⟩

/-! ### Buffers -/

/-- A constructed plane's bytes, read one at a time, are those that the walk over the whole plane reads (R191). -/
theorem withBuf_of_holds {s : State} {buf : Buf} {bs : List Byte} (hmem : s.mem.wf) (h : BufHolds s buf bs)
    (k : List Byte → Answer) : withBuf s buf k = k bs := by
  cases buf with
  | inline b => exact congrArg k h
  | plane p =>
    obtain ⟨hvalid, hlen, hread⟩ := h
    refine withPlaneBytes_ok hvalid ((Memory.readRange_spec hmem.1 _ _ _).mpr ⟨hlen, fun i hi => ?_⟩) k
    rw [fb_zero_add]
    exact hread i hi

/-- A sequence that selects the full window and then emits one command with a payload. -/
theorem performs_fullSelect_emission {s : State} {i : Instr} {cmd : Command} {c : Completion}
    (hexec : exec i s = .next (runOps (fullSelect ++ [emission cmd]) c s))
    (hcmd : emission cmd = .cmdData cmd.opcode cmd.payload) :
    Performs s i (fullSelectEvents ++ commandEvents cmd.opcode cmd.payload) .high (·.complete c) := by
  refine performs_of_opsEvents hexec ?_ ?_ ?_
  · exact List.forall_mem_append.mpr ⟨fullSelect_send, by simp [emission_sends]⟩
  · rw [hcmd]
    exact OpsEvents.fullSelect.append (.cmdData ..)
  · rw [linesAfter_append, linesAfter_commandEvents]
    rfl

/-- Settles O24: the buffer operand gives its bytes, or the refusal for a plane without any. -/
theorem updateFramesSendTheBuffer : Obligations.UpdateFramesSendTheBuffer := by
  refine ⟨fun s buf bs hs hmem hbuf => ⟨?_, ?_⟩, fun s p hs hv => ⟨?_, ?_⟩, fun buf => ?_⟩
  · exact performs_fullSelect_emission (cmd := .writeBwData bs) (c := .okPhase .frameStaged)
      ((whenInitialized_of_booted hs _).trans (withBuf_of_holds hmem hbuf _)) rfl
  · exact performs_fullSelect_emission (cmd := .writeRedData bs) (c := .okPhase .frameStaged)
      ((whenInitialized_of_booted hs _).trans (withBuf_of_holds hmem hbuf _)) rfl
  · exact exec_of_invalid hs.1 rfl hv fun _ => hs.2
  · exact exec_of_invalid hs.1 rfl hv fun _ => hs.2
  · exact ⟨refusedBeforeInit_of_needsInit rfl, refusedBeforeInit_of_needsInit rfl, ⟨_, rfl⟩, _, rfl⟩

/-! ### The partial update -/

/-- The five checks in the order of R157; a window's order fails where its size is 0. -/
theorem partialFault_eq (x y w h length : Nat) : partialFault x y w h length =
    if w = 0 then some (.windowOrder .x x (x + w))
    else if h = 0 then some (.windowOrder .y y (y + h))
    else if 200 < x + w ∨ 200 < y + h then some (.partialBounds x y w h)
    else if x % 8 ≠ 0 then some (.partialMisaligned x)
    else if length ≠ (w + 7) / 8 * h then some (.partialLength length ((w + 7) / 8 * h))
    else none := by
  have order (a n : Nat) : ¬ a < a + n ↔ n = 0 := by omega
  exact if_congr (order x w) rfl (if_congr (order y h) rfl rfl)

/-- A partial update is fatal or sends, as its checks say. -/
theorem exec_updatePartialBwFrame {s : State} {buf : Buf} {bs : List Byte} (hs : s.Booted) (hmem : s.mem.wf)
    (hbuf : BufHolds s buf bs) (x y w h : U32) :
    exec (.updatePartialBwFrame x y w h buf) s =
      match partialFault x.toNat y.toNat w.toNat h.toNat bs.length with
      | some f => fatalAnswer s f
      | none => runAnswer (partialOps x.toNat y.toNat w.toNat h.toNat bs) (.okPhase .frameStaged) s :=
  (whenInitialized_of_booted hs _).trans (withBuf_of_holds hmem hbuf _)

theorem partialOps_send {x y w h : Nat} {bs : List Byte} : ∀ m ∈ partialOps x y w h bs, Sends m :=
  List.forall_mem_append.mpr ⟨List.forall_mem_append.mpr ⟨windowOps_send, counterOps_send⟩,
    by simp [emission_sends]⟩

/-- Settles O25: all five checks pass. -/
theorem partialUpdateSendsTheRectangle : Obligations.PartialUpdateSendsTheRectangle := by
  intro s x y w h buf bs hs hmem hbuf hw hh hx hy halign hlen
  have hexec := exec_updatePartialBwFrame hs hmem hbuf x y w h
  rw [partialFault_eq, if_neg hw.ne', if_neg hh.ne', if_neg (by omega), if_neg (not_not_intro halign),
    if_neg (not_not_intro hlen)] at hexec
  refine performs_of_opsEvents hexec partialOps_send
    (((OpsEvents.window ..).append (.counter ..)).append (.cmdData ..)) ?_
  rw [linesAfter_append, linesAfter_append, linesAfter_windowEvents, linesAfter_counterEvents,
    linesAfter_commandEvents]

/-- Settles O26: the statement's checks are the model's. -/
theorem partialUpdateFaultsInOrder : Obligations.PartialUpdateFaultsInOrder := by
  intro s x y w h buf bs f hs hmem hbuf hf
  rw [← partialFault_eq] at hf
  rw [exec_updatePartialBwFrame hs hmem hbuf, hf]
  rfl

/-! ### Clearing a frame -/

theorem clearOps_send {cmd : Command} {p : Plane} : ∀ m ∈ clearOps cmd p, Sends m :=
  List.forall_mem_append.mpr ⟨fullSelect_send, by simp [Sends]⟩

/-- A clear sends its opcode in a bracket of its own and then the white byte, once for each byte of a plane. -/
theorem performs_clear {s : State} {i : Instr} {cmd : Command} {p : Plane} {c : Completion}
    (hexec : exec i s = .next (runOps (clearOps cmd p) c s)) :
    Performs s i (fullSelectEvents ++ cmdEvents cmd.opcode ++ repeatEvents (fillByte p false) 5000) .high
      (·.complete c) := by
  refine performs_of_opsEvents hexec clearOps_send ?_ ?_
  · rw [List.append_assoc]
    exact OpsEvents.fullSelect.append ((OpsEvents.cmd _).append (.repeatByte _ 5000))
  · rw [linesAfter_append, linesAfter_repeatEvents, linesAfter_append, linesAfter_cmdEvents]
    rfl

/-- Settles O27: the white byte is 0xFF for the inverted BW plane and 0x00 for the red one (R187). -/
theorem clearFramesFloodWhite : Obligations.ClearFramesFloodWhite := by
  refine ⟨fun s hs => ⟨?_, ?_⟩, fun v op => ?_, refusedBeforeInit_of_needsInit rfl,
    refusedBeforeInit_of_needsInit rfl, ⟨_, rfl⟩, _, rfl⟩
  · exact performs_clear (cmd := .writeBwData []) (p := .bw) (c := .okPhase .frameStaged)
      (whenInitialized_of_booted hs _)
  · exact performs_clear (cmd := .writeRedData []) (p := .red) (c := .okPhase .frameStaged)
      (whenInitialized_of_booted hs _)
  · have hselect : fullSelectEvents.length = 32 := rfl
    simp only [hselect, cmdEvents, repeatEvents, List.length_append, List.length_replicate, List.length_cons,
      List.length_nil]

end Sys2Proof.Machine
end

section
/-! SUPPORT. Sequences with waits: the samples BUSY gives, and the three ways a sequence that is to take certain events
can end (R136, R241, R253, R254). -/

namespace Sys2Proof.Machine

/-! ### The samples that BUSY gives -/

/-- BUSY gives the samples: those in store, in order, and zeros after them where the level there is 0 (R40, R253). -/
def Served : List Bool → List Bool → Bool → Prop
  | [], _, _ => True
  | x :: xs, [], rest => x = false ∧ rest = false ∧ Served xs [] rest
  | x :: xs, b :: bs, rest => x = b ∧ Served xs bs rest

theorem served_iff (xs bs : List Bool) (rest : Bool) : Served xs bs rest ↔
    xs <+: bs ∨ (rest = false ∧ xs = bs ++ List.replicate (xs.length - bs.length) false) := by
  induction xs generalizing bs with
  | nil => simp [Served]
  | cons x xs ih =>
    cases bs with
    | nil =>
      rw [Served, ih]
      cases rest with
      | true => simp
      | false =>
        have hnil : xs = [] → xs = List.replicate xs.length false := by rintro rfl; rfl
        simpa [List.replicate_succ] using fun _ => hnil
    | cons b bs =>
      rw [Served, ih]
      simp [and_or_left, and_left_comm]

theorem State.samples_iff {s : State} {evs : List Event} :
    s.Samples evs ↔ Served (samplesIn evs) s.busyIn s.busyRest := (served_iff ..).symm

theorem served_append_iff {xs ys bs : List Bool} {rest : Bool} :
    Served (xs ++ ys) bs rest ↔ Served xs bs rest ∧ Served ys (bs.drop xs.length) rest := by
  induction xs generalizing bs with
  | nil => simp [Served]
  | cons x xs ih => cases bs <;> simp [Served, ih, and_assoc]

/-- Samples of 1 come from those in store. -/
theorem served_ones_iff {k : Nat} {bs : List Bool} {rest : Bool} :
    Served (List.replicate k true) bs rest ↔ ∃ more, bs = List.replicate k true ++ more := by
  induction k generalizing bs with
  | zero => simp [Served]
  | succ k ih =>
    cases bs with
    | nil => simp [Served, List.replicate_succ]
    | cons b bs => simp [Served, List.replicate_succ, ih, eq_comm (a := true)]

/-- The samples of a wait that ends: the 0 is in store, or comes after the samples in store. -/
theorem served_wait {k : Nat} {bs : List Bool} {rest : Bool}
    (h : Served (List.replicate k true ++ [false]) bs rest) :
    (∃ more, bs = List.replicate k true ++ false :: more) ∨ (bs = List.replicate k true ∧ rest = false) := by
  obtain ⟨hones, hzero⟩ := served_append_iff.mp h
  obtain ⟨more, rfl⟩ := served_ones_iff.mp hones
  rw [List.drop_left] at hzero
  cases more with
  | nil => exact .inr ⟨List.append_nil _, hzero.2.1⟩
  | cons b more => exact .inl ⟨more, by rw [← hzero.1]⟩

/-- Where BUSY will read 0, the next wait ends; the other zeros are left for the waits after it (R253). -/
theorem exists_served_wait {n : Nat} {bs : List Bool} {rest : Bool}
    (h : rest = false ∨ n + 1 ≤ bs.count false) :
    ∃ k, Served (List.replicate k true ++ [false]) bs rest ∧
      (rest = false ∨ n ≤ (bs.drop (k + 1)).count false) := by
  induction bs with
  | nil =>
    have hrest : rest = false := h.resolve_right (by simp)
    exact ⟨0, ⟨rfl, hrest, trivial⟩, .inl hrest⟩
  | cons b bs ih =>
    cases b with
    | false => exact ⟨0, ⟨rfl, trivial⟩, h.imp_right (by simp)⟩
    | true =>
      obtain ⟨k, hk, hleft⟩ := ih (h.imp_right (by simp))
      exact ⟨k + 1, ⟨rfl, hk⟩, hleft⟩

/-! ### Samples and draws of events -/

theorem samplesIn_append (es fs : List Event) : samplesIn (es ++ fs) = samplesIn es ++ samplesIn fs :=
  List.filterMap_append

theorem drawsIn_append (es fs : List Event) : drawsIn (es ++ fs) = drawsIn es + drawsIn fs := by
  simp [drawsIn]

theorem samplesIn_ones (k : Nat) : samplesIn (List.replicate k (.busy true)) = List.replicate k true := by
  induction k with
  | zero => rfl
  | succ k ih => exact congrArg (true :: ·) ih

theorem drawsIn_ones (k : Nat) : drawsIn (List.replicate k (.busy true)) = k := by
  rw [drawsIn, List.filter_eq_self.mpr fun e he => by rw [List.eq_of_mem_replicate he]; rfl, List.length_replicate]

theorem samplesIn_waitEvents (k : Nat) : samplesIn (waitEvents k) = List.replicate k true ++ [false] := by
  rw [waitEvents, samplesIn_append, samplesIn_ones]
  rfl

theorem drawsIn_waitEvents (k : Nat) : drawsIn (waitEvents k) = k + 1 := by
  rw [waitEvents, drawsIn_append, drawsIn_ones]
  rfl

theorem take_waitEvents {k n : Nat} (h : n ≤ k) : (waitEvents k).take n = List.replicate n (.busy true) := by
  rw [waitEvents, List.take_append_of_le_length (by simpa using h), List.take_replicate, Nat.min_eq_left h]

theorem length_waitEvents (k : Nat) : (waitEvents k).length = k + 1 := by
  simp [waitEvents]

/-- Every event of a wait is a sample, at a place up to that of the 0. -/
theorem exists_busy_of_getElem?_waitEvents {k n : Nat} {e : Event} (h : (waitEvents k)[n]? = some e) :
    n ≤ k ∧ ∃ v, e = .busy v := by
  obtain ⟨hn, -⟩ := List.getElem?_eq_some_iff.mp h
  rw [length_waitEvents] at hn
  refine ⟨Nat.le_of_lt_succ hn, ?_⟩
  rcases List.mem_append.mp (List.mem_of_getElem? h) with he | he
  · exact ⟨true, List.eq_of_mem_replicate he⟩
  · exact ⟨false, List.mem_singleton.mp he⟩

/-- Samples leave the lines. -/
theorem linesAfter_ones (ls : Lines) (k : Nat) : linesAfter ls (List.replicate k (.busy true)) = ls := by
  induction k with
  | zero => rfl
  | succ k ih => exact ih

theorem linesAfter_waitEvents (ls : Lines) (k : Nat) : linesAfter ls (waitEvents k) = ls := by
  rw [waitEvents, linesAfter_append, linesAfter_ones]
  rfl

theorem PortStep.draw?_event (p : PortStep) : p.event.draw? = p.action? := by
  cases p <;> rfl

theorem bind_draw?_map_event (ps : List PortStep) (n : Nat) :
    ((ps.map PortStep.event)[n]?).bind Event.draw? = ((ps.map PortStep.event)[n]?).bind Event.action? := by
  rw [List.getElem?_map]
  cases ps[n]? with
  | none => rfl
  | some p => exact p.draw?_event.trans p.action?_event.symm

theorem samplesIn_map_event (ps : List PortStep) : samplesIn (ps.map PortStep.event) = [] := by
  rw [samplesIn, List.filterMap_map, List.filterMap_eq_nil_iff]
  rintro (_ | _ | _) _ <;> rfl

theorem drawsIn_map_event (ps : List PortStep) : drawsIn (ps.map PortStep.event) = drawCount ps := by
  simp [drawsIn, drawCount, List.filter_map, Function.comp_def, PortStep.draw?_event]

/-! ### The states a sequence can end in -/

/-- A transport error at the action after the events, among which may be samples (R241, R242). -/
def State.abortedAt (s : State) (evs : List Event) (a : PortAction) : State :=
  { s.advanced evs (linesAfter s.lines (evs ++ [.fail a])) with
    trace := s.trace ++ (evs ++ [.fail a]), failIn := s.failIn.drop (drawsIn evs + 1), result := some .err,
    ctrlUndef := true }

/-- A wait that takes a sample of 1 after the events and has not ended (R254). -/
def State.waitingAt (s : State) (evs : List Event) (r : Running) : State :=
  { s.advanced evs (linesAfter s.lines evs) with
    trace := s.trace ++ (evs ++ [.busy true]), failIn := s.failIn.drop (drawsIn evs + 1), running := some r }

/-- The state after events, the lines as they leave them. -/
def State.after (s : State) (evs : List Event) : State := s.advanced evs (linesAfter s.lines evs)

theorem State.after_after (s : State) (es evs : List Event) : (s.after es).after evs = s.after (es ++ evs) := by
  simp [State.after, State.advanced, samplesIn_append, drawsIn_append, linesAfter_append]

theorem State.abortedAt_after (s : State) (es evs : List Event) (a : PortAction) :
    (s.after es).abortedAt evs a = s.abortedAt (es ++ evs) a := by
  simp [State.abortedAt, State.after, State.advanced, samplesIn_append, drawsIn_append, linesAfter_append,
    Nat.add_assoc]

theorem State.waitingAt_after (s : State) (es evs : List Event) (r : Running) :
    (s.after es).waitingAt evs r = s.waitingAt (es ++ evs) r := by
  simp [State.waitingAt, State.after, State.advanced, samplesIn_append, drawsIn_append, linesAfter_append,
    Nat.add_assoc]

theorem State.samples_append {s : State} {es evs : List Event} (h : s.Samples (es ++ evs)) :
    s.Samples es ∧ (s.after es).Samples evs := by
  rw [State.samples_iff, samplesIn_append] at h
  obtain ⟨hes, hevs⟩ := served_append_iff.mp h
  exact ⟨State.samples_iff.mpr hes, State.samples_iff.mpr hevs⟩

theorem State.drawsOk_append {s : State} {es evs : List Event} {n : Nat}
    (h : s.DrawsOk (drawsIn (es ++ evs) + n)) :
    s.DrawsOk (drawsIn es) ∧ (s.after es).DrawsOk (drawsIn evs + n) := by
  rw [drawsIn_append, Nat.add_assoc] at h
  exact h.of_add

/-! ### One micro-operation -/

section
variable {m : MicroOp} {es : List Event} {s : State}

/-- A micro-operation completes where BUSY gives its samples and no action fails. -/
theorem MicroEvents.runMicro_done (h : MicroEvents m es .done) (hs : s.Samples es) (hok : s.DrawsOk (drawsIn es)) :
    runMicro m s = (s.after es, .done) := by
  cases h with
  | steps m hm =>
    rw [drawsIn_map_event] at hok
    rw [runMicro_ok hm hok]
    simp [State.after, State.advanced, samplesIn_map_event, drawsIn_map_event]
  | waitDone k =>
    rw [State.samples_iff, samplesIn_waitEvents] at hs
    rw [drawsIn_waitEvents] at hok
    rcases served_wait hs with ⟨more, hbusy⟩ | ⟨hbusy, hrest⟩
    · rw [runMicro_waitIdle hbusy rfl (pollBusy_idle k more _ _ hok)]
      simp [State.after, State.advanced, State.afterWait, samplesIn_waitEvents, drawsIn_waitEvents,
        linesAfter_waitEvents, hbusy, List.drop_append]
    · rw [runMicro_waitIdle hbusy hrest (pollBusy_rest_idle k _ hok)]
      simp [State.after, State.advanced, State.afterWait, samplesIn_waitEvents, drawsIn_waitEvents,
        linesAfter_waitEvents, hbusy]

/-- A micro-operation is aborted at the first of its actions that fails, a sample included. -/
theorem MicroEvents.runOps_aborted (h : MicroEvents m es .done) {n : Nat} {a : PortAction}
    (ha : (es[n]?).bind Event.draw? = some a) (hs : s.Samples (es.take n)) (hok : s.DrawsOk (drawsIn (es.take n)))
    (hfail : s.failIn[drawsIn (es.take n)]? = some true) (ms : List MicroOp) (c : Completion) :
    runOps (m :: ms) c s = s.abortedAt (es.take n) a := by
  cases h with
  | steps m hm =>
    rw [bind_draw?_map_event] at ha
    obtain ⟨p, hp, -, hsteps⟩ := exists_step_of_action? ha
    rw [← List.map_take, drawsIn_map_event] at hok hfail
    have hrun := runMicro_ports hm s
    rw [hsteps, perform_fail _ p _ a _ _ hp hok hfail] at hrun
    rw [runOps_cons_failed hrun, ← List.map_take]
    simp [-List.map_take, State.abortedAt, State.advanced, samplesIn_map_event, drawsIn_map_event, State.afterPorts,
      State.raiseTransportError]
  | waitDone k =>
    obtain ⟨e, he, hea⟩ := Option.bind_eq_some_iff.mp ha
    obtain ⟨hn, v, rfl⟩ := exists_busy_of_getElem?_waitEvents he
    cases hea
    rw [take_waitEvents hn] at hs hok hfail ⊢
    rw [State.samples_iff, samplesIn_ones] at hs
    rw [drawsIn_ones] at hok hfail
    obtain ⟨more, hbusy⟩ := served_ones_iff.mp hs
    rw [runOps_cons_failed (runMicro_waitIdle hbusy rfl (pollBusy_fail n more _ _ hok hfail))]
    simp [State.abortedAt, State.advanced, State.afterWait, State.raiseTransportError, samplesIn_ones, drawsIn_ones,
      linesAfter_append, linesAfter_ones, hbusy, Lines.after]

/-- A wait stays in progress where the samples in store are used up and BUSY reads 1. -/
theorem MicroEvents.runOps_waiting (h : MicroEvents m es .done) {n : Nat} {v : Bool} (he : es[n]? = some (.busy v))
    (hs : samplesIn (es.take n) = s.busyIn) (hrest : s.busyRest = true)
    (hok : s.DrawsOk (drawsIn (es.take n) + 1)) (ms : List MicroOp) (c : Completion) :
    runOps (m :: ms) c s = s.waitingAt (es.take n) { rest := m :: ms, done := c } := by
  cases h with
  | steps m hm =>
    obtain ⟨p, -, hp⟩ := List.mem_map.mp (List.mem_of_getElem? he)
    cases p <;> cases hp
  | waitDone k =>
    rw [take_waitEvents (exists_busy_of_getElem?_waitEvents he).1] at hs hok ⊢
    rw [samplesIn_ones] at hs
    rw [drawsIn_ones] at hok
    rw [runOps_cons_waiting (runMicro_waitIdle hs.symm hrest (pollBusy_stuck n _ hok))]
    simp [State.waitingAt, State.advanced, State.afterWait, samplesIn_ones, drawsIn_ones, linesAfter_ones, ← hs,
      List.replicate_succ']

end

/-! ### A sequence -/

theorem OpsEvents.runOps_done {ops : List MicroOp} {evs : List Event} (h : OpsEvents ops evs) {s : State}
    (hs : s.Samples evs) (hok : s.DrawsOk (drawsIn evs)) (c : Completion) :
    runOps ops c s = (s.after evs).complete c := by
  induction h generalizing s with
  | nil => simp [runOps, State.after, State.advanced, drawsIn, samplesIn]
  | @cons m ms es evs hm _ ih =>
    obtain ⟨hes, hevs⟩ := State.samples_append hs
    obtain ⟨hokes, hokevs⟩ := State.drawsOk_append (n := 0) hok
    rw [runOps_cons_done (hm.runMicro_done hes hokes), ih hevs hokevs, State.after_after]

theorem OpsEvents.runOps_aborted {ops : List MicroOp} {evs : List Event} (h : OpsEvents ops evs) {s : State}
    {n : Nat} {a : PortAction} (ha : (evs[n]?).bind Event.draw? = some a) (hs : s.Samples (evs.take n))
    (hok : s.DrawsOk (drawsIn (evs.take n))) (hfail : s.failIn[drawsIn (evs.take n)]? = some true)
    (c : Completion) : runOps ops c s = s.abortedAt (evs.take n) a := by
  induction h generalizing s n with
  | nil => cases ha
  | @cons m ms es evs hm _ ih =>
    by_cases hn : n < es.length
    · rw [List.getElem?_append_left hn] at ha
      rw [List.take_append_of_le_length hn.le] at hs hok hfail ⊢
      exact hm.runOps_aborted ha hs hok hfail ms c
    · obtain ⟨k, rfl⟩ := Nat.exists_eq_add_of_le (Nat.not_lt.mp hn)
      rw [List.getElem?_append_right (Nat.le_add_right ..), Nat.add_sub_cancel_left] at ha
      rw [List.take_length_add_append] at hs hok hfail ⊢
      obtain ⟨hes, hevs⟩ := State.samples_append hs
      obtain ⟨hokes, hokevs⟩ := State.drawsOk_append (n := 0) hok
      rw [drawsIn_append, ← List.getElem?_drop] at hfail
      rw [runOps_cons_done (hm.runMicro_done hes hokes), ih ha hevs hokevs hfail, State.abortedAt_after]

theorem OpsEvents.runOps_waiting {ops : List MicroOp} {evs : List Event} (h : OpsEvents ops evs) {s : State}
    {n : Nat} {v : Bool} (he : evs[n]? = some (.busy v)) (hs : samplesIn (evs.take n) = s.busyIn)
    (hrest : s.busyRest = true) (hok : s.DrawsOk (drawsIn (evs.take n) + 1)) (c : Completion) :
    ∃ r, runOps ops c s = s.waitingAt (evs.take n) r := by
  induction h generalizing s n with
  | nil => cases he
  | @cons m ms es evs hm _ ih =>
    by_cases hn : n < es.length
    · rw [List.getElem?_append_left hn] at he
      rw [List.take_append_of_le_length hn.le] at hs hok ⊢
      exact ⟨_, hm.runOps_waiting he hs hrest hok ms c⟩
    · obtain ⟨k, rfl⟩ := Nat.exists_eq_add_of_le (Nat.not_lt.mp hn)
      rw [List.getElem?_append_right (Nat.le_add_right ..), Nat.add_sub_cancel_left] at he
      rw [List.take_length_add_append] at hs hok ⊢
      obtain ⟨hokes, hokevs⟩ := State.drawsOk_append hok
      rw [samplesIn_append] at hs
      have hes : s.Samples es := .inl ⟨_, hs⟩
      have hleft : samplesIn (evs.take k) = (s.after es).busyIn := by
        simp [State.after, State.advanced, ← hs]
      obtain ⟨r, hr⟩ := ih he hleft hrest hokevs
      exact ⟨r, by rw [runOps_cons_done (hm.runMicro_done hes hokes), hr, State.waitingAt_after]⟩

/-- An instruction that runs a sequence with waits performs its events: it completes, it is aborted at the first action
that fails, or it stays in a wait. -/
theorem performsWaits_of_opsEvents {s : State} {i : Instr} {ops : List MicroOp} {c : Completion} {evs : List Event}
    {ls : Lines} (hexec : exec i s = .next (runOps ops c s)) (hevs : OpsEvents ops evs)
    (hlines : linesAfter s.lines evs = ls) : PerformsWaits s i evs ls (·.complete c) := by
  subst hlines
  refine ⟨fun hs hok => ?_, fun n a ha hs hok hfail => ?_, fun n v he hs hrest hok => ?_⟩
  · rw [hexec, hevs.runOps_done hs hok]
    rfl
  · rw [hexec, hevs.runOps_aborted ha hs hok hfail]
    rfl
  · obtain ⟨r, hr⟩ := hevs.runOps_waiting he hs hrest hok c
    exact ⟨r, by rw [hexec, hr]; rfl⟩

end Sys2Proof.Machine
end

section
/-! PROOFS. The sequencer operations with waits (O21, O28). -/

namespace Sys2Proof.Machine

/-! ### What waits add to the stream and to the samples -/

/-- Samples send nothing. -/
theorem streamFrom_waitEvents_append (dc : Level) (k : Nat) (es : List Event) :
    streamFrom dc (waitEvents k ++ es) = streamFrom dc es := by
  rw [waitEvents, List.append_assoc]
  induction k with
  | zero => rfl
  | succ k ih => exact ih

theorem streamFrom_append_waitEvents (dc : Level) (k : Nat) (es : List Event) :
    streamFrom dc (es ++ waitEvents k) = streamFrom dc es := by
  have hwait := streamFrom_waitEvents_append (dcAfter dc es) k []
  rw [List.append_nil] at hwait
  rw [streamFrom_append, hwait]
  exact List.append_nil _

theorem length_waitSamples (k : Nat) : (List.replicate k true ++ [false]).length = k + 1 := by
  simp

/-! ### INIT (R152) -/

/-- The commands of INIT after the software reset, between its second wait and its third. -/
def setupEvents : List Event :=
  commandEvents 0x01 [0xC7, 0x00, 0x00] ++ commandEvents 0x11 [0x03] ++ fullSelectEvents ++
    commandEvents 0x3C [0x05] ++ commandEvents 0x18 [0x80]

theorem initEvents_eq (j k l : Nat) : initEvents j k l =
    resetEvents ++ (waitEvents j ++ (cmdEvents 0x12 ++ (waitEvents k ++ (setupEvents ++ waitEvents l)))) := by
  simp only [initEvents, setupEvents, List.append_assoc]

theorem OpsEvents.init (j k l : Nat) : OpsEvents initOps (initEvents j k l) :=
  OpsEvents.reset.append (.wait j) |>.append (.cmd 0x12) |>.append (.wait k) |>.append (.cmdData 0x01 _)
    |>.append (.cmdData 0x11 _) |>.append .fullSelect |>.append (.cmdData 0x3C _) |>.append (.cmdData 0x18 _)
    |>.append (.wait l)

theorem linesAfter_initEvents (ls : Lines) (j k l : Nat) :
    linesAfter ls (initEvents j k l) = { csN := .high, dc := .high, rstN := .high } := by
  simp only [initEvents_eq, linesAfter_append, linesAfter_waitEvents]
  rfl

theorem samplesIn_initEvents (j k l : Nat) : samplesIn (initEvents j k l) =
    List.replicate j true ++ [false] ++ (List.replicate k true ++ [false]) ++ (List.replicate l true ++ [false]) := by
  have hreset : samplesIn resetEvents = [] := rfl
  have hcmd : samplesIn (cmdEvents 0x12) = [] := rfl
  have hsetup : samplesIn setupEvents = [] := rfl
  simp only [initEvents_eq, samplesIn_append, samplesIn_waitEvents, hreset, hcmd, hsetup, List.nil_append,
    List.append_assoc]

theorem length_initEvents (j k l : Nat) : (initEvents j k l).length = 75 + (j + k + l) := by
  have hreset : resetEvents.length = 4 := rfl
  have hcmd : (cmdEvents 0x12).length = 4 := rfl
  have hsetup : setupEvents.length = 64 := rfl
  simp only [initEvents_eq, List.length_append, length_waitEvents, hreset, hcmd, hsetup]
  omega

/-- The two delays of the reset pulse take no draw (R255). -/
theorem drawsIn_initEvents (j k l : Nat) : drawsIn (initEvents j k l) = 73 + (j + k + l) := by
  have hreset : drawsIn resetEvents = 2 := rfl
  have hcmd : drawsIn (cmdEvents 0x12) = 4 := rfl
  have hsetup : drawsIn setupEvents = 64 := rfl
  simp only [initEvents_eq, drawsIn_append, drawsIn_waitEvents, hreset, hcmd, hsetup]
  omega

theorem stream_initEvents (j k l : Nat) :
    stream (initEvents j k l) = (.low, 0x12) :: streamFrom .low setupEvents := by
  calc stream (initEvents j k l)
      = streamFrom .undef (waitEvents j ++ (cmdEvents 0x12 ++ (waitEvents k ++ (setupEvents ++ waitEvents l)))) :=
        by rw [initEvents_eq]; rfl
    _ = (.low, 0x12) :: streamFrom .low (waitEvents k ++ (setupEvents ++ waitEvents l)) :=
        streamFrom_waitEvents_append ..
    _ = (.low, 0x12) :: streamFrom .low setupEvents := by
        rw [streamFrom_waitEvents_append, streamFrom_append_waitEvents]

/-- Settles O21: the events of INIT are those of its sequence, and each wait takes the samples up to a 0. -/
theorem initProgramsTheController : Obligations.InitProgramsTheController := by
  refine ⟨fun s j k l hs => ?_, fun s hidle => ?_, fun j k l => ⟨samplesIn_initEvents j k l,
    length_initEvents j k l, drawsIn_initEvents j k l, ?_⟩⟩
  · exact performsWaits_of_opsEvents (c := .initDone) (whenFree_of_free hs _) (.init j k l)
      (linesAfter_initEvents ..)
  · obtain ⟨j, hj, hidle⟩ := exists_served_wait (n := 2) hidle
    obtain ⟨k, hk, hidle⟩ := exists_served_wait (n := 1) hidle
    obtain ⟨l, hl, -⟩ := exists_served_wait (n := 0) hidle
    refine ⟨j, k, l, State.samples_iff.mpr ?_⟩
    rw [samplesIn_initEvents, List.append_assoc]
    refine served_append_iff.mpr ⟨hj, served_append_iff.mpr ?_⟩
    rw [length_waitSamples, length_waitSamples]
    exact ⟨hk, hl⟩
  · rw [cmdsOf, stream_initEvents]
    decide

/-! ### The refreshes (R160, R161) -/

/-- The events of the refresh before its wait. -/
def activateEvents (flag : Byte) : List Event :=
  cmdEvents 0x22 ++ [.line .dc true, .line .csN false, .xfer [flag], .line .csN true] ++ cmdEvents 0x20

theorem displayEvents_eq (flag : Byte) (k : Nat) : displayEvents flag k = activateEvents flag ++ waitEvents k := by
  have hchunks : chunks [flag] = [[flag]] := by simp [chunks]
  rw [displayEvents, commandEvents, dataEvents, hchunks]
  rfl

theorem OpsEvents.display (flag : Byte) (k : Nat) : OpsEvents (displayOps flag) (displayEvents flag k) :=
  (OpsEvents.cmdData 0x22 [flag]).append (.cmd 0x20) |>.append (.wait k)

theorem linesAfter_displayEvents (ls : Lines) (flag : Byte) (k : Nat) :
    linesAfter ls (displayEvents flag k) = { ls with csN := .high, dc := .low } := by
  rw [displayEvents_eq, linesAfter_append, linesAfter_waitEvents]
  rfl

theorem samplesIn_displayEvents (flag : Byte) (k : Nat) :
    samplesIn (displayEvents flag k) = List.replicate k true ++ [false] := by
  rw [displayEvents_eq, samplesIn_append, samplesIn_waitEvents]
  rfl

theorem length_displayEvents (flag : Byte) (k : Nat) : (displayEvents flag k).length = 13 + k := by
  have hcommands : (activateEvents flag).length = 12 := rfl
  rw [displayEvents_eq, List.length_append, length_waitEvents, hcommands]
  omega

theorem drawsIn_displayEvents (flag : Byte) (k : Nat) : drawsIn (displayEvents flag k) = 13 + k := by
  have hcommands : drawsIn (activateEvents flag) = 12 := rfl
  rw [displayEvents_eq, drawsIn_append, drawsIn_waitEvents, hcommands]
  omega

theorem cmdsOf_displayEvents (flag : Byte) (k : Nat) :
    cmdsOf (displayEvents flag k) = [(0x22, [flag]), (0x20, [])] := by
  rw [cmdsOf, stream, displayEvents_eq, streamFrom_append_waitEvents]
  rfl

/-- Settles O28: the two refreshes differ in their flag alone. -/
theorem displayFramesActivate : Obligations.DisplayFramesActivate := by
  refine ⟨fun s k hs => ⟨?_, ?_⟩, fun s hidle => ?_, fun flag k => ⟨samplesIn_displayEvents flag k,
    length_displayEvents flag k, drawsIn_displayEvents flag k, cmdsOf_displayEvents flag k⟩,
    refusedBeforeInit_of_needsInit rfl, refusedBeforeInit_of_needsInit rfl, ⟨_, rfl⟩, _, rfl⟩
  · exact performsWaits_of_opsEvents (c := .okPhase .activated) (whenInitialized_of_booted hs _)
      (.display flagDisplayFull k) (linesAfter_displayEvents ..)
  · exact performsWaits_of_opsEvents (c := .okPhase .activated) (whenInitialized_of_booted hs _)
      (.display Config.partialRefreshFlag k) (linesAfter_displayEvents ..)
  · obtain ⟨k, hk, -⟩ := exists_served_wait (n := 0) hidle
    refine ⟨k, fun flag => State.samples_iff.mpr ?_⟩
    rw [samplesIn_displayEvents]
    exact hk

end Sys2Proof.Machine
end

section
/-! PROOFS. The phase check (O29) and the phase that an operation ends in (O47). -/

namespace Sys2Proof.Machine

/-! ### What an instruction that passes the phase check answers -/

/-- The phase that completion writes (R150). -/
def Completion.endPhase : Completion → Phase → Phase
  | .quiet, p => p
  | .ok, p => p
  | .okPhase q, _ => q
  | .initDone, _ => .initialized

/-- The phase at a completion is the one of R150's table for the instruction. -/
def Completion.Tabled (c : Completion) (i : Instr) : Prop := ∀ p, c.endPhase p = phaseAfter i p

/-- An answer to `i` as to the phase: a sequence whose completion writes the table's phase, a state with the phase as it
was where the table keeps it or a fault is recorded, a fault, or a refusal for another reason than the phase. -/
inductive PhaseAnswer (s : State) (i : Instr) : Answer → Prop
  | ran (ops : List MicroOp) {c : Completion} (hc : c.Tabled i) : PhaseAnswer s i (runAnswer ops c s)
  | kept {t : State} (hphase : t.phase = s.phase) (hrun : t.running = s.running)
      (htable : t.fault = none → phaseAfter i s.phase = s.phase) : PhaseAnswer s i (.next t)
  | fault (f : Fault) : PhaseAnswer s i (.fault f)
  | refused {r : Refusal} (hr : r ≠ .uninitialized) : PhaseAnswer s i (.refused r)

section
variable {s : State} {i : Instr} {k : Answer}

theorem PhaseAnswer.fatal (f : FatalFault) : PhaseAnswer s i (fatalAnswer s f) :=
  .kept rfl rfl fun hf => by cases hf

theorem PhaseAnswer.result (hi : ∀ p, phaseAfter i p = p) (r : Result) : PhaseAnswer s i (resultAnswer s r) :=
  .kept rfl rfl fun _ => hi _

theorem PhaseAnswer.withPlane {p : Plane} (h : PhaseAnswer s i k) : PhaseAnswer s i (withPlane s p k) := by
  unfold Machine.withPlane
  split
  · exact h
  · exact .refused (by simp)

theorem PhaseAnswer.withPlaneBytes {p : Plane} {f : List Byte → Answer} (h : ∀ bs, PhaseAnswer s i (f bs)) :
    PhaseAnswer s i (withPlaneBytes s p f) := by
  refine .withPlane ?_
  split
  · exact h _
  · exact .fault _

theorem PhaseAnswer.withBuf {buf : Buf} {f : List Byte → Answer} (h : ∀ bs, PhaseAnswer s i (f bs)) :
    PhaseAnswer s i (withBuf s buf f) := by
  cases buf with
  | inline bs => exact h bs
  | plane p => exact .withPlaneBytes h

end

/-- Where the phase check passes or there is none, the answer is one of the above. -/
theorem exec_phaseAnswer {i : Instr} {s : State} (hs : s.Free)
    (hi : i.needsInit = true → s.phase ≠ .uninitialized) : PhaseAnswer s i (exec i s) := by
  have free (k : Answer) (h : PhaseAnswer s i k) : PhaseAnswer s i (whenFree s k) := by
    rwa [whenFree_of_free hs]
  have booted (k : Answer) (hneeds : i.needsInit = true) (h : PhaseAnswer s i k) :
      PhaseAnswer s i (whenInitialized s k) := by
    rwa [whenInitialized_of_booted ⟨hs, hi hneeds⟩]
  cases i with
  | init | muCmd | muData | muCmdData | muRepeat | muWaitIdle | muReset => exact free _ (.ran _ fun _ => rfl)
  | swReset | driverControl | dataEntryMode | setRamXPos | setRamYPos | setRamXCounter | setRamYCounter
  | borderWaveformControl | tempControl | writeBwData | writeRedData | updateDisplayCtrl2 | masterActivate =>
    exact free _ (.ran _ fun _ => rfl)
  | setRamCounter | clearBwFrame | clearRedFrame | displayFrame | displayPartialFrame =>
    exact booted _ rfl (.ran _ fun _ => rfl)
  | setRamWindow sx sy ex ey =>
    refine booted _ rfl ?_
    split
    · exact .fatal _
    · split
      · exact .fatal _
      · exact .ran _ fun _ => rfl
  | updateBwFrame | updateRedFrame => exact booted _ rfl (.withBuf fun _ => .ran _ fun _ => rfl)
  | updatePartialBwFrame x y w h buf =>
    refine booted _ rfl (.withBuf fun bs => ?_)
    split
    · exact .fatal _
    · exact .ran _ fun _ => rfl
  | fbNew p on => exact free _ (.kept (by simp) (by simp) fun _ => rfl)
  | fbSetRotation p r => exact free _ (.withPlane (.kept (by simp) (by simp) fun _ => rfl))
  | fbSetPixel p x y on =>
    refine free _ (.withPlane ?_)
    split
    · exact .result (fun _ => rfl) _
    · next j m haddr =>
      unfold withByte
      split
      · beta_reduce
        rw [storeByte_ok s _ (fb_lt (address_lt_planeBytes haddr))]
        exact .kept rfl rfl fun _ => rfl
      · exact .fault _
  | fbClear p on => exact free _ (.withPlane (.kept rfl rfl fun _ => rfl))
  | fbOutsideBounds | fbRotate | fbBufferLength => exact free _ (.result (fun _ => rfl) _)
  | fbAddress x y w h r =>
    refine free _ ?_
    split
    · exact .refused (by simp)
    · exact .result (fun _ => rfl) _
  | fbRead p => exact free _ (.withPlaneBytes fun _ => .result (fun _ => rfl) _)

/-! ### The phase check -/

theorem exec_ne_uninitialized {i : Instr} {s : State} (hs : s.Free)
    (hi : i.needsInit = true → s.phase ≠ .uninitialized) : exec i s ≠ .refused .uninitialized := by
  intro h
  have ha := exec_phaseAnswer hs hi
  rw [h] at ha
  cases ha with
  | refused hr => exact hr rfl

/-- Settles O29: an instruction that needs no INIT, or has it, is refused for no phase. -/
theorem sequencerRefusedBeforeInit : Obligations.SequencerRefusedBeforeInit := by
  intro i s hs
  constructor
  · intro h
    by_contra hnot
    exact exec_ne_uninitialized hs (fun hi hphase => hnot ⟨hi, hphase⟩) h
  · rintro ⟨hi, hphase⟩
    exact exec_uninitialized hs hi hphase

/-! ### The phase that an operation ends in -/

/-- An operation ran to its end with Ok: no fault, nothing left in progress. -/
def State.EndedOk (u : State) : Prop := u.fault = none ∧ u.running = none ∧ u.result = some .ok

/-- The phase of `u` is the table's for `i` begun in phase `p`, where the operation ended with Ok, and else `p`; what is
left in progress completes as the table says. -/
structure FollowsTable (i : Instr) (p : Phase) (u : State) : Prop where
  ended : u.EndedOk → u.phase = phaseAfter i p
  notEnded : ¬ u.EndedOk → u.phase = p
  inProgress : ∀ r, u.running = some r → u.fault = none ∧ r.done.Tabled i

theorem State.complete_phase (s : State) (c : Completion) : (s.complete c).phase = c.endPhase s.phase := by
  cases c <;> rfl

/-- A completion that leaves the result leaves the phase. -/
theorem State.complete_endedOk {s : State} (hs : s.Free) (c : Completion) :
    (s.complete c).EndedOk ∨ c.endPhase s.phase = s.phase := by
  cases c with
  | quiet => exact .inr rfl
  | ok => exact .inr rfl
  | okPhase p => exact .inl ⟨hs.1, hs.2, rfl⟩
  | initDone => exact .inl ⟨hs.1, hs.2, rfl⟩

theorem OpsEnd.followsTable {ops : List MicroOp} {c : Completion} {s t : State} (h : OpsEnd ops c s t) (hs : s.Free)
    {i : Instr} (hc : c.Tabled i) : FollowsTable i s.phase t := by
  cases h with
  | completed evs busy draws =>
    have hfree : (s.ported evs busy draws).Free := hs
    have hphase := (s.ported evs busy draws).complete_phase c
    refine ⟨fun _ => hphase.trans (hc _), fun hnot => ?_, fun r hr => ?_⟩
    · exact hphase.trans ((State.complete_endedOk hfree c).resolve_left hnot)
    · rw [State.complete_running, hfree.2] at hr
      cases hr
  | failed =>
    refine ⟨fun hend => ?_, fun _ => rfl, fun r hr => ?_⟩
    · cases hend.2.2
    · cases hs.2.symm.trans hr
  | paused =>
    refine ⟨fun hend => ?_, fun _ => rfl, fun r hr => ?_⟩
    · cases hend.2.1
    · cases hr
      exact ⟨hs.1, hc⟩

theorem exec_followsTable {i : Instr} {s t : State} (h : exec i s = .next t) : FollowsTable i s.phase t := by
  have hs := (exec_effect h).1
  have hi : i.needsInit = true → s.phase ≠ .uninitialized := fun hi hphase => by
    rw [exec_uninitialized hs hi hphase] at h
    cases h
  have ha := exec_phaseAnswer hs hi
  rw [h] at ha
  generalize hk : Host.Outcome.next t = k at ha
  cases ha with
  | ran ops hc =>
    cases hk
    exact (runOps_end ops _ s).followsTable hs hc
  | kept hphase hrun htable =>
    cases hk
    refine ⟨fun hend => hphase.trans (htable hend.1).symm, fun _ => hphase, fun r hr => ?_⟩
    cases (hrun.trans hs.2).symm.trans hr
  | fault f => cases hk
  | refused hr => cases hk

/-- A pause keeps the phase, so that what is left to do begins in the phase the operation began in (R22, R254). -/
theorem FollowsTable.goesOn {i : Instr} {p : Phase} {t u : State} (h : GoesOn t u) (ht : FollowsTable i p t) :
    FollowsTable i p u := by
  induction h with
  | here => exact ht
  | @step t u r busy rest fails _ hr hstep ih =>
    obtain ⟨hfault, hc⟩ := ih.inProgress r hr
    have hphase : t.phase = p := ih.notEnded fun hend => by cases hr.symm.trans hend.2.1
    obtain ⟨-, ⟨hn, -⟩ | ⟨r', hr', rfl⟩ | ⟨hn, -⟩⟩ := step_cases hstep
    · cases hr.symm.trans hn
    · cases hr.symm.trans hr'
      rw [← hphase]
      exact (runOps_end r.rest r.done { t.withInputs busy rest fails with running := none }).followsTable
        ⟨hfault, rfl⟩ hc
    · cases hr.symm.trans hn

/-- Settles O47: the instruction follows the table, and so does each state it goes on to. -/
theorem phaseFollowsTheTable : Obligations.PhaseFollowsTheTable := by
  intro i s t u h hon
  have hu := (exec_followsTable h).goesOn hon
  exact ⟨hu.ended, hu.notEnded⟩

end Sys2Proof.Machine
end

section
/-! PROOFS. The geometry of the address translator: bounds, rotation, addresses and bit masks (O39, O40), and what its
pure functions return (O38). -/

namespace Sys2Proof.Machine

/-! ### Bounds and rotation -/

/-- Bounds are those of the physical rectangle, for the rotated point (R180, R181). -/
theorem outsideBounds_eq_false_iff {x y : Int} {w h : Nat} {r : Rot} : outsideBounds x y w h r = false ↔
    (0 ≤ (rotateCoordinates x y w h r).1 ∧ (rotateCoordinates x y w h r).1 < w) ∧
      0 ≤ (rotateCoordinates x y w h r).2 ∧ (rotateCoordinates x y w h r).2 < h := by
  cases r
  all_goals
    refine decide_eq_false_iff_not.trans ?_
    simp only [rotateCoordinates]
    omega

/-- The rotated point of a point inside bounds is a column and a row of the physical rectangle. -/
theorem exists_rotateCoordinates_eq {x y : Int} {w h : Nat} {r : Rot} (hin : outsideBounds x y w h r = false) :
    ∃ c d : Nat, c < w ∧ d < h ∧ rotateCoordinates x y w h r = ((c : Int), (d : Int)) := by
  obtain ⟨⟨hc, hw⟩, hd, hh⟩ := outsideBounds_eq_false_iff.mp hin
  exact ⟨_, _, (Int.toNat_lt hc).mpr hw, (Int.toNat_lt hd).mpr hh,
    Prod.ext (Int.toNat_of_nonneg hc).symm (Int.toNat_of_nonneg hd).symm⟩

/-- A rotation moves no two points to one. -/
theorem rotateCoordinates_inj {x y x₂ y₂ : Int} {w h : Nat} {r : Rot}
    (heq : rotateCoordinates x₂ y₂ w h r = rotateCoordinates x y w h r) : x₂ = x ∧ y₂ = y := by
  cases r
  all_goals
    simp only [rotateCoordinates, Prod.mk.injEq] at heq
    omega

/-- The bounds of a square are the same at every rotation (R196). -/
theorem outsideBounds_square (x y : Int) (n : Nat) (r : Rot) : outsideBounds x y n n r = outsideBounds x y n n .r0 := by
  cases r <;> rfl

/-- A quarter turn swaps the coordinates that the bounds see (R196). -/
theorem outsideBounds_r90 (x y : Int) (w h : Nat) : outsideBounds x y w h .r90 = outsideBounds y x w h .r0 :=
  decide_eq_decide.mpr (by omega)

/-- Settles O40: the bounds at 270° are by definition those at 90°. -/
theorem boundsUnderRotation : Obligations.BoundsUnderRotation := by
  refine ⟨fun x y n r r' => ?_, fun x y w h => ⟨outsideBounds_r90 x y w h, outsideBounds_r90 x y w h⟩, ?_, ?_⟩
  · rw [outsideBounds_square x y n r, outsideBounds_square x y n r']
  · decide
  · decide

/-! ### Bit masks -/

/-- The eight masks of one bit, column 0 of a byte first (R62). -/
abbrev bitMasks : List Byte := [0x80#8, 0x40#8, 0x20#8, 0x10#8, 0x08#8, 0x04#8, 0x02#8, 0x01#8]

theorem bitMask_mem_bitMasks (c : Nat) : bitMask c ∈ bitMasks := by
  have key : ∀ k < 8, 0x80#8 >>> k ∈ bitMasks := by decide
  exact key _ (Nat.mod_lt c (by decide))

theorem mod_eq_of_bitMask_eq {c d : Nat} (h : bitMask c = bitMask d) : c % 8 = d % 8 := by
  have key : ∀ k < 8, ∀ l < 8, 0x80#8 >>> k = 0x80#8 >>> l → k = l := by decide
  exact key _ (Nat.mod_lt c (by decide)) _ (Nat.mod_lt d (by decide)) h

theorem ne_zero_of_mem_bitMasks : ∀ m ∈ bitMasks, m ≠ 0#8 := by decide

/-- Different masks have no bit in common. -/
theorem bitMasks_disjoint : ∀ m ∈ bitMasks, ∀ m' ∈ bitMasks, m' ≠ m → m &&& m' = 0#8 ∧ ~~~m &&& m' = m' := by
  decide

/-! ### Addresses -/

theorem address_eq_none_iff {x y : Int} {w h : Nat} {r : Rot} :
    address x y w h r = none ↔ outsideBounds x y w h r = true := by
  simp [address]

theorem inside_of_address {x y : Int} {w h : Nat} {r : Rot} {a : Nat × Byte} (ha : address x y w h r = some a) :
    outsideBounds x y w h r = false :=
  Bool.eq_false_of_not_eq_true fun hout => by
    rw [address_eq_none_iff.mpr hout] at ha
    cases ha

theorem exists_address {x y : Int} {w h : Nat} {r : Rot} (hin : outsideBounds x y w h r = false) :
    ∃ a, address x y w h r = some a :=
  Option.ne_none_iff_exists'.mp fun hnone => Bool.eq_false_iff.mp hin (address_eq_none_iff.mp hnone)

/-- The address of a point inside bounds, from its column and row (R182). -/
theorem address_of_rotateCoordinates {x y : Int} {w h : Nat} {r : Rot} {c d : Nat}
    (hin : outsideBounds x y w h r = false) (hq : rotateCoordinates x y w h r = ((c : Int), (d : Int))) :
    address x y w h r = some (c / 8 + (w + 7) / 8 * d, bitMask c) := by
  simp [address, hin, hq, ceilDiv8]

/-- A column's byte lies within its row. -/
theorem div_lt_ceilDiv8 {c w : Nat} (hc : c < w) : c / 8 < (w + 7) / 8 := by omega

/-- An address is a byte of the buffer and one bit of it (R184). -/
theorem address_range {x y : Int} {w h : Nat} {r : Rot} {i : Nat} {m : Byte} (ha : address x y w h r = some (i, m)) :
    i < bufferLength w h ∧ m ∈ bitMasks := by
  have hin := inside_of_address ha
  obtain ⟨c, d, hc, hd, hq⟩ := exists_rotateCoordinates_eq hin
  rw [address_of_rotateCoordinates hin hq] at ha
  cases ha
  refine ⟨?_, bitMask_mem_bitMasks c⟩
  calc c / 8 + (w + 7) / 8 * d
      < (w + 7) / 8 * (d + 1) := by rw [Nat.mul_succ, Nat.add_comm]; exact Nat.add_lt_add_left (div_lt_ceilDiv8 hc) _
    _ ≤ bufferLength w h := Nat.mul_le_mul_left _ hd

/-- The column and the row of an address: the byte index gives the row and the column's byte, the mask the column's
place in that byte (R184). -/
theorem column_row_of_index {c d c₂ d₂ w : Nat} (hc : c < w) (hc₂ : c₂ < w)
    (hi : c₂ / 8 + (w + 7) / 8 * d₂ = c / 8 + (w + 7) / 8 * d) (hm : bitMask c₂ = bitMask c) : c₂ = c ∧ d₂ = d := by
  have hpos : 0 < (w + 7) / 8 := Nat.zero_lt_of_lt (div_lt_ceilDiv8 hc)
  have hbyte : c₂ / 8 = c / 8 := by
    have hmod := congrArg (· % ((w + 7) / 8)) hi
    simpa [Nat.mod_eq_of_lt, div_lt_ceilDiv8 hc, div_lt_ceilDiv8 hc₂] using hmod
  have hcol : c₂ % 8 = c % 8 := mod_eq_of_bitMask_eq hm
  rw [hbyte] at hi
  exact ⟨by omega, Nat.eq_of_mul_eq_mul_left hpos (Nat.add_left_cancel hi)⟩

/-- Distinct points inside bounds have distinct addresses (R184). -/
theorem address_inj {x y x₂ y₂ : Int} {w h : Nat} {r : Rot} (hin : outsideBounds x y w h r = false)
    (hin₂ : outsideBounds x₂ y₂ w h r = false) (heq : address x₂ y₂ w h r = address x y w h r) :
    x₂ = x ∧ y₂ = y := by
  obtain ⟨c, d, hc, -, hq⟩ := exists_rotateCoordinates_eq hin
  obtain ⟨c₂, d₂, hc₂, -, hq₂⟩ := exists_rotateCoordinates_eq hin₂
  rw [address_of_rotateCoordinates hin hq, address_of_rotateCoordinates hin₂ hq₂] at heq
  obtain ⟨hi, hm⟩ := Prod.mk.inj (Option.some.inj heq)
  obtain ⟨rfl, rfl⟩ := column_row_of_index hc hc₂ hi hm
  exact rotateCoordinates_inj (hq₂.trans hq.symm)

/-- Whether an address is a point's own tells whether a point is that point. -/
theorem address_eq_some_iff {x y x₂ y₂ : Int} {w h : Nat} {r : Rot} {a : Nat × Byte}
    (ha : address x y w h r = some a) : address x₂ y₂ w h r = some a ↔ x₂ = x ∧ y₂ = y := by
  constructor
  · intro ha₂
    exact address_inj (inside_of_address ha) (inside_of_address ha₂) (ha₂.trans ha.symm)
  · rintro ⟨rfl, rfl⟩
    exact ha

/-- Settles O39: bounds are those of the rotated point, and an address gives back its column and row. -/
theorem addressesAreInRangeAndDistinct : Obligations.AddressesAreInRangeAndDistinct := by
  intro x y w h r hin
  obtain ⟨⟨hc, hw⟩, hd, hh⟩ := outsideBounds_eq_false_iff.mp hin
  obtain ⟨⟨i, m⟩, ha⟩ := exists_address hin
  exact ⟨⟨hc, hw, hd, hh⟩, ⟨i, m, ha, address_range ha⟩, fun x₂ y₂ hin₂ heq => address_inj hin hin₂ heq⟩

/-! ### The pure functions -/

theorem exec_fbAddress_inside {s : State} {x y : I32} {w h : U16} {r : Rot} {i : Nat} {m : Byte} (hs : s.Free)
    (ha : address x.toInt y.toInt w.toNat h.toNat r = some (i, m)) :
    exec (.fbAddress x y w h r) s = .next (s.setResult (.addr i m)) := by
  refine (whenFree_of_free hs _).trans ?_
  rw [ha]
  rfl

theorem exec_fbAddress_outside {s : State} {x y : I32} {w h : U16} {r : Rot} (hs : s.Free)
    (hout : outsideBounds x.toInt y.toInt w.toNat h.toNat r = true) :
    exec (.fbAddress x y w h r) s = .refused .outOfBounds := by
  refine (whenFree_of_free hs _).trans ?_
  rw [address_eq_none_iff.mpr hout]

/-- Settles O38: each function answers its formula's value, FB_ADDRESS inside bounds alone. -/
theorem pureFunctionsReturnTheFormulas : Obligations.PureFunctionsReturnTheFormulas := by
  intro s x y w h hs
  refine ⟨fun r => ⟨_, whenFree_of_free hs _, ?_⟩, whenFree_of_free hs _, whenFree_of_free hs _,
    whenFree_of_free hs _, whenFree_of_free hs _, fun r hin c d hq => ?_,
    fun r hout => exec_fbAddress_outside hs hout, whenFree_of_free hs _,
    fun r => ⟨⟨_, rfl⟩, ⟨_, rfl⟩, _, rfl⟩, _, rfl⟩
  · cases r <;> exact decide_eq_true_iff
  · exact exec_fbAddress_inside hs (address_of_rotateCoordinates hin hq)

end Sys2Proof.Machine
end

section
/-! PROOFS. The plane operations: what each one writes, refuses and leaves alone (O31, O32, O33, O35, O37, O42), and
what it does to the picture (O34, O36, O41). -/

namespace Sys2Proof.Machine

/-! ### The fills -/

theorem exec_fbNew {s : State} (hs : s.Free) (p : Plane) (on : Bool) : exec (.fbNew p on) s =
    .next (((s.fillPlane p (fillByte p on)).setPlaneRegs p { valid := true, rot := .r0 }).setResult .ok) :=
  whenFree_of_free hs _

theorem exec_fbClear {s : State} (hs : s.Free) {p : Plane} (hv : (s.planeRegs p).valid = true) (on : Bool) :
    exec (.fbClear p on) s = .next ((s.fillPlane p (fillByte p on)).setResult .ok) :=
  (whenFree_of_free hs _).trans (withPlane_of_valid hv _)

theorem exec_fbSetRotation {s : State} (hs : s.Free) {p : Plane} (hv : (s.planeRegs p).valid = true) (r : Rot) :
    exec (.fbSetRotation p r) s = .next ((s.setPlaneRegs p { s.planeRegs p with rot := r }).setResult .ok) :=
  (whenFree_of_free hs _).trans (withPlane_of_valid hv _)

/-- After a fill the plane's bytes are the fill byte, and every other byte is as it was. -/
theorem State.read_fillPlane (s : State) (p : Plane) (v : Byte) (a : Nat) :
    (s.fillPlane p v).mem.read a = if inPlane p a then some v else s.mem.read a :=
  Memory.read_fill ..

/-- Settles O31: a fill and a write of the plane's registers. -/
theorem fbNewConstructsThePlane : Obligations.FbNewConstructsThePlane := by
  intro s p on hs
  refine ⟨⟨_, rfl⟩, _, exec_fbNew hs p on, ?_, ?_, fun q hq => ?_, fun a => ?_⟩
  · cases p <;> rfl
  · exact State.planeRegs_setPlaneRegs_same ..
  · exact State.planeRegs_setPlaneRegs_other _ _ hq
  · rw [State.setResult_mem, State.setPlaneRegs_mem, State.read_fillPlane]

/-- Settles O32: the registers written keep the plane's validity. -/
theorem fbSetRotationSetsRot : Obligations.FbSetRotationSetsRot := by
  intro s p r hs
  refine ⟨fun hv => ⟨_, exec_fbSetRotation hs hv r, ?_, ?_, fun q hq => ?_⟩,
    fun hv => exec_of_invalid hs rfl hv nofun, _, rfl⟩
  · cases p <;> rfl
  · rw [← hv]
    exact State.planeRegs_setPlaneRegs_same ..
  · exact State.planeRegs_setPlaneRegs_other _ _ hq

/-- Settles O35: a fill alone. -/
theorem fbClearFillsThePlane : Obligations.FbClearFillsThePlane := by
  intro s p on hs
  exact ⟨fun hv => ⟨_, exec_fbClear hs hv on, rfl, fun a => State.read_fillPlane s p _ a⟩,
    fun hv => exec_of_invalid hs rfl hv nofun, _, rfl⟩

/-- Settles O37: the bytes held one at a time are those that the walk over the plane reads. -/
theorem fbReadReturnsTheBytes : Obligations.FbReadReturnsTheBytes := by
  intro s p hs
  refine ⟨fun bs hmem hbuf => ⟨hbuf.2.1, ?_⟩, fun hv => exec_of_invalid hs rfl hv nofun, _, rfl⟩
  exact (whenFree_of_free hs _).trans (withBuf_of_holds hmem hbuf _)

/-! ### One pixel -/

section
variable {s : State} {p : Plane} {x y : I32}

/-- Outside bounds the pixel is dropped (R245). -/
theorem exec_fbSetPixel_outside (hs : s.Free) (hv : (s.planeRegs p).valid = true)
    (hout : outsideBounds x.toInt y.toInt Config.panelWidth Config.panelHeight (s.planeRegs p).rot = true)
    (on : Bool) : exec (.fbSetPixel p x y on) s = .next (s.setResult .ok) := by
  refine (whenFree_of_free hs _).trans ((withPlane_of_valid hv _).trans ?_)
  rw [address_eq_none_iff.mpr hout]
  rfl

/-- Inside bounds the pixel's byte is replaced (R189). -/
theorem exec_fbSetPixel_inside (hs : s.Free) (hv : (s.planeRegs p).valid = true) {i : Nat} {m b : Byte}
    (ha : address x.toInt y.toInt Config.panelWidth Config.panelHeight (s.planeRegs p).rot = some (i, m))
    (hb : s.mem.read (fb p i) = some b) (on : Bool) : exec (.fbSetPixel p x y on) s =
      .next (({ s with mem := s.mem.write (fb p i) (pixelByte p on b m) } : State).setResult .ok) := by
  have hi : fb p i < Config.spaceBytes := fb_lt (address_lt_planeBytes ha)
  refine (whenFree_of_free hs _).trans ((withPlane_of_valid hv _).trans ?_)
  rw [ha]
  exact (withByte_ok hi hb _).trans (storeByte_ok s _ hi _)

/-- The two ways FB_SET_PIXEL answers a next state. -/
theorem exec_fbSetPixel_cases {on : Bool} {t : State} (h : exec (.fbSetPixel p x y on) s = .next t) :
    (outsideBounds x.toInt y.toInt Config.panelWidth Config.panelHeight (s.planeRegs p).rot = true ∧
      t = s.setResult .ok) ∨
    ∃ i m b, address x.toInt y.toInt Config.panelWidth Config.panelHeight (s.planeRegs p).rot = some (i, m) ∧
      s.mem.read (fb p i) = some b ∧
      t = ({ s with mem := s.mem.write (fb p i) (pixelByte p on b m) } : State).setResult .ok := by
  obtain ⟨-, h⟩ := whenFree_next h
  obtain ⟨-, h⟩ := withPlane_next h
  split at h
  · next hnone =>
    cases h
    exact .inl ⟨address_eq_none_iff.mp hnone, rfl⟩
  · next i m ha =>
    obtain ⟨b, hi, hb, h⟩ := withByte_next h
    rw [storeByte_ok s _ hi] at h
    cases h
    exact .inr ⟨i, m, b, ha, hb, rfl⟩

end

/-- Settles O33: outside bounds RESULT, inside bounds the pixel's byte besides. -/
theorem fbSetPixelWritesOneBit : Obligations.FbSetPixelWritesOneBit := by
  intro s p x y on hs
  refine ⟨fun hv => ⟨fun i m b ha hb => ?_, fun hout => exec_fbSetPixel_outside hs hv hout on⟩,
    fun hv => exec_of_invalid hs rfl hv nofun, _, rfl⟩
  exact ⟨_, exec_fbSetPixel_inside hs hv ha hb on, rfl, Memory.read_write_same .., fun a hne =>
    Memory.read_write_other _ _ hne⟩

/-! ### Colours -/

/-- Each pixel of a fill byte has the colour (R187). -/
theorem fillByte_colour (p : Plane) (on : Bool) :
    ∀ m ∈ bitMasks, (((fillByte p on &&& m) != 0) != invOf p) = on := by
  cases p <;> cases on <;> decide

/-- Settles O41: the table, and the colour of each pixel. -/
theorem fillBytesFollowPolarity : Obligations.FillBytesFollowPolarity :=
  ⟨rfl, rfl, rfl, rfl, fun p on => ⟨rfl, fillByte_colour p on⟩⟩

/-- The bit that FB_SET_PIXEL writes has the colour (R185, R189). -/
theorem pixelByte_colour (p : Plane) (on : Bool) (b : Byte) {m : Byte} (hm : m ∈ bitMasks) :
    (((pixelByte p on b m &&& m) != 0) != invOf p) = on := by
  have hbit : ((pixelByte p on b m &&& m) != 0) = storedBit p on := by
    unfold pixelByte
    cases storedBit p on with
    | true =>
      have hset : (b ||| m) &&& m = m := by ext; simp +contextual
      simpa [hset] using ne_zero_of_mem_bitMasks m hm
    | false =>
      have hclear : b &&& ~~~m &&& m = 0#8 := by ext; simp
      simp [hclear]
  rw [hbit]
  cases p <;> cases on <;> rfl

/-- The other seven bits of the pixel's byte are as they were (R189). -/
theorem pixelByte_and_other (p : Plane) (on : Bool) (b : Byte) {m m' : Byte} (hm : m ∈ bitMasks)
    (hm' : m' ∈ bitMasks) (hne : m' ≠ m) : pixelByte p on b m &&& m' = b &&& m' := by
  obtain ⟨hand, hnot⟩ := bitMasks_disjoint m hm m' hm' hne
  unfold pixelByte
  cases storedBit p on with
  | true =>
    calc (b ||| m) &&& m' = b &&& m' ||| m &&& m' := by ext; simp [Bool.and_or_distrib_right]
      _ = b &&& m' := by rw [hand, BitVec.or_zero]
  | false =>
    calc b &&& ~~~m &&& m' = b &&& (~~~m &&& m') := BitVec.and_assoc ..
      _ = b &&& m' := by rw [hnot]

/-! ### The picture -/

theorem pixelAt_of_address {s : State} {q : Plane} {regs : PlaneRegs} {x y : Int} {a : Option (Nat × Byte)}
    (hregs : s.planeRegs q = regs) (ha : address x y Config.panelWidth Config.panelHeight regs.rot = a) :
    pixelAt s q x y = pixelOn s q a := by
  rw [pixelAt, hregs, ha]

theorem pixelOn_of_read {s : State} {q : Plane} {j : Nat} {b : Byte} (h : s.mem.read (fb q j) = some b) (m : Byte) :
    pixelOn s q (some (j, m)) = some (((b &&& m) != 0) != invOf q) := by
  simp only [pixelOn, h, Option.map_some]

/-- A stored pixel depends on its byte alone. -/
theorem pixelOn_congr {s t : State} {q : Plane} {j : Nat} (h : t.mem.read (fb q j) = s.mem.read (fb q j))
    (m : Byte) : pixelOn t q (some (j, m)) = pixelOn s q (some (j, m)) := by
  simp only [pixelOn, h]

/-- A pixel's byte written: the pixel reads the colour, and every other pixel of either plane reads as before. -/
theorem pixelOn_write_pixelByte {s : State} {p q : Plane} {i j : Nat} {m m' b : Byte} (on : Bool)
    (hi : i < Config.planeBytes) (hj : j < Config.planeBytes) (hm : m ∈ bitMasks) (hm' : m' ∈ bitMasks)
    (hb : s.mem.read (fb p i) = some b) :
    pixelOn { s with mem := s.mem.write (fb p i) (pixelByte p on b m) } q (some (j, m')) =
      if q = p ∧ (j, m') = (i, m) then some on else pixelOn s q (some (j, m')) := by
  by_cases hfb : fb q j = fb p i
  · obtain ⟨rfl, rfl⟩ := fb_inj hj hi hfb
    rw [pixelOn_of_read (Memory.read_write_same ..), pixelOn_of_read hb]
    by_cases hmm : m' = m
    · subst hmm
      rw [pixelByte_colour q on b hm, if_pos ⟨rfl, rfl⟩]
    · rw [pixelByte_and_other q on b hm hm' hmm, if_neg (by simp [hmm])]
  · rw [if_neg (by rintro ⟨rfl, heq⟩; exact hfb (congrArg (fun a => fb q a.1) heq))]
    exact pixelOn_congr (Memory.read_write_other s.mem _ hfb) m'

/-- Settles O34: distinct points of a plane have distinct addresses, so the write of one address is the update of one
point. -/
theorem setPixelUpdatesThePicture : Obligations.SetPixelUpdatesThePicture := by
  intro s t p q x y x' y' on h
  obtain ⟨hout, rfl⟩ | ⟨i, m, b, ha, hb, ht⟩ := exec_fbSetPixel_cases h
  · refine (if_neg ?_).symm
    rintro ⟨-, rfl, rfl, hin⟩
    exact Bool.eq_false_iff.mp hin hout
  · have hregs : t.planeRegs q = s.planeRegs q := by
      rw [ht]
      exact State.planeRegs_congr rfl rfl q
    cases ha' : address x' y' Config.panelWidth Config.panelHeight (s.planeRegs q).rot with
    | none =>
      rw [if_neg]
      · rw [pixelAt_of_address hregs ha', pixelAt_of_address rfl ha']
        rfl
      · rintro ⟨rfl, -, -, hin⟩
        exact Bool.eq_false_iff.mp hin (address_eq_none_iff.mp ha')
    | some a' =>
      obtain ⟨j, m'⟩ := a'
      have hpoint : (q = p ∧ (j, m') = (i, m)) ↔
          q = p ∧ x' = x.toInt ∧ y' = y.toInt ∧ outsideBounds x' y' 200 200 (s.planeRegs p).rot = false := by
        refine and_congr_right ?_
        rintro rfl
        rw [← Option.some_inj, ← ha', address_eq_some_iff ha]
        exact ⟨fun ⟨hx, hy⟩ => ⟨hx, hy, inside_of_address ha'⟩, fun ⟨hx, hy, _⟩ => ⟨hx, hy⟩⟩
      rw [← if_congr hpoint rfl rfl, pixelAt_of_address hregs ha', pixelAt_of_address rfl ha', ht]
      exact pixelOn_write_pixelByte on (address_lt_planeBytes ha) (address_lt_planeBytes ha') (address_range ha).2
        (address_range ha').2 hb

/-- Where FB_NEW or FB_CLEAR answers a next state, the plane's bytes are the fill byte of the colour (R186, R190). -/
theorem read_of_exec_fill {i : Instr} {s t : State} {p : Plane} {on : Bool} (hi : i = .fbNew p on ∨ i = .fbClear p on)
    (h : exec i s = .next t) {j : Nat} (hj : j < Config.planeBytes) :
    t.mem.read (fb p j) = some (fillByte p on) := by
  have hfill : t.mem = (s.fillPlane p (fillByte p on)).mem := by
    rcases hi with rfl | rfl
    · obtain ⟨-, h⟩ := whenFree_next h
      cases h
      exact State.setPlaneRegs_mem ..
    · obtain ⟨-, h⟩ := whenFree_next h
      obtain ⟨-, h⟩ := withPlane_next h
      cases h
      rfl
  rw [hfill, State.read_fillPlane, if_pos ((inPlane_fb_iff hj).mpr rfl)]

/-- Settles O36: every address of the plane is a bit of a fill byte. -/
theorem fillColoursEveryPixel : Obligations.FillColoursEveryPixel := by
  intro i s t p on x y hi h hin
  obtain ⟨⟨j, m⟩, ha⟩ := exists_address hin
  have hread := read_of_exec_fill hi h (address_lt_planeBytes ha)
  rw [pixelAt_of_address rfl ha, pixelOn_of_read hread, fillByte_colour p on m (address_range ha).2]

/-! ### What the plane operations leave alone -/

/-- Settles O42: the plane operations write what their rules name, and the functions RESULT alone. -/
theorem fbOperationsTouchNoPort : Obligations.FbOperationsTouchNoPort := by
  intro i s t hi h
  cases i with
  | fbNew p on =>
    obtain ⟨-, h⟩ := whenFree_next h
    cases h
    cases p <;> rfl
  | fbSetRotation p r =>
    obtain ⟨-, h⟩ := whenFree_next h
    obtain ⟨-, h⟩ := withPlane_next h
    cases h
    cases p <;> rfl
  | fbSetPixel p x y on =>
    obtain ⟨-, rfl⟩ | ⟨i, m, b, -, -, rfl⟩ := exec_fbSetPixel_cases h
    · rfl
    · rfl
  | fbClear p on =>
    obtain ⟨-, h⟩ := whenFree_next h
    obtain ⟨-, h⟩ := withPlane_next h
    cases h
    rfl
  | fbOutsideBounds | fbRotate | fbBufferLength =>
    obtain ⟨-, h⟩ := whenFree_next h
    cases h
    rfl
  | fbAddress x y w h' r =>
    obtain ⟨-, h⟩ := whenFree_next h
    split at h
    · cases h
    · cases h
      rfl
  | fbRead p =>
    obtain ⟨-, h⟩ := whenFree_next h
    obtain ⟨-, bs, -, h⟩ := withPlaneBytes_next h
    cases h
    rfl
  | _ => cases hi

end Sys2Proof.Machine
end

section
/-! PROOFS. The controller commands as instructions of their own (O19, O20). -/

namespace Sys2Proof.Machine

/-! ### The two ways a command is emitted -/

section
variable {s : State} {i : Instr} {c : Command}

theorem emitCommand_of_free (hs : s.Free) (c : Command) :
    emitCommand c s = .next (runOps [emission c] .quiet s) := whenFree_of_free hs _

/-- A command sent by MU_CMD is one bracket with DC low (R131). -/
theorem performs_opcode (hs : s.Free) (hexec : exec i s = emitCommand c s) (hc : emission c = .cmd c.opcode) :
    Performs s i (cmdEvents c.opcode) .low id := by
  rw [emitCommand_of_free hs, hc] at hexec
  exact performs_of_micro hexec (by simp) (by simp) rfl (linesAfter_cmdEvents ..)

/-- A command sent by MU_CMD_DATA is the bracket of its opcode and then that of its payload (R134). -/
theorem performs_opcode_payload (hs : s.Free) (hexec : exec i s = emitCommand c s)
    (hc : emission c = .cmdData c.opcode c.payload) :
    Performs s i (commandEvents c.opcode c.payload) .high id := by
  rw [emitCommand_of_free hs, hc] at hexec
  exact performs_of_micro hexec (by simp) (by simp) (cmdData_events ..) (linesAfter_commandEvents ..)

end

/-! ### The commands with one payload only -/

/-- Settles O19: two of the six have no payload, and the payloads of the others are constants (R96). -/
theorem fixedCommandsEmit : Obligations.FixedCommandsEmit := by
  intro s hs
  exact ⟨performs_opcode (c := .swReset) hs rfl rfl,
    performs_opcode_payload (c := .driverControl) hs rfl rfl,
    performs_opcode_payload (c := .dataEntryMode) hs rfl rfl,
    performs_opcode_payload (c := .borderWaveformControl) hs rfl rfl,
    performs_opcode_payload (c := .tempControl) hs rfl rfl,
    performs_opcode (c := .masterActivate) hs rfl rfl⟩

/-! ### The commands with fields -/

/-- A 16-bit field goes low byte first (R71). -/
theorem le16_eq_byteOf (v : U16) : le16 v = [byteOf v.toNat, byteOf (v.toNat / 256)] := by
  rw [← le16_yWord, yWord, BitVec.ofNat_toNat, BitVec.setWidth_eq]

theorem payload_setRamYPos (ys ye : U16) : (Command.setRamYPos ys ye).payload =
    [byteOf ys.toNat, byteOf (ys.toNat / 256), byteOf ye.toNat, byteOf (ye.toNat / 256)] :=
  congrArg₂ (· ++ ·) (le16_eq_byteOf ys) (le16_eq_byteOf ye)

theorem payload_setRamYCounter (y : U16) :
    (Command.setRamYCounter y).payload = [byteOf y.toNat, byteOf (y.toNat / 256)] := le16_eq_byteOf y

/-- Settles O20: each of the seven has a payload, and the two with 16-bit fields send them low byte first. -/
theorem fieldCommandsEmit : Obligations.FieldCommandsEmit := by
  intro s hs
  refine ⟨fun xs xe => ?_, fun ys ye => ?_, fun x => ?_, fun y => ?_, fun d => ?_, fun d => ?_, fun f => ?_⟩
  · exact performs_opcode_payload (c := .setRamXPos xs xe) hs rfl rfl
  · rw [← payload_setRamYPos]
    exact performs_opcode_payload (c := .setRamYPos ys ye) hs rfl rfl
  · exact performs_opcode_payload (c := .setRamXCounter x) hs rfl rfl
  · rw [← payload_setRamYCounter]
    exact performs_opcode_payload (c := .setRamYCounter y) hs rfl rfl
  · exact performs_opcode_payload (c := .writeBwData d) hs rfl rfl
  · exact performs_opcode_payload (c := .writeRedData d) hs rfl rfl
  · exact performs_opcode_payload (c := .updateDisplayCtrl2 f) hs rfl rfl

end Sys2Proof.Machine
end

section
/-! PROOFS. The opcodes that a host operation emits, in order (O51). -/

namespace Sys2Proof.Machine

/-! ### The command bytes of events -/

/-- A byte of the stream sent with DC low (R74). -/
def commandByte? : Level × Byte → Option Byte
  | (.low, b) => some b
  | (.high, _) => none
  | (.undef, _) => none

/-- The commands of a stream begin with its command bytes. -/
theorem map_fst_cmds (st : List (Level × Byte)) : (cmds st).map Prod.fst = st.filterMap commandByte? := by
  induction st with
  | nil => rfl
  | cons q st ih =>
    obtain ⟨dc, b⟩ := q
    cases dc with
    | low => exact congrArg (b :: ·) ih
    | high => exact ih
    | undef => exact ih

/-- The bytes that events send with DC low, DC standing at a level before them. -/
def opcodesIn (dc : Level) (evs : List Event) : List Byte := (streamFrom dc evs).filterMap commandByte?

theorem map_fst_cmdsOf (evs : List Event) : (cmdsOf evs).map Prod.fst = opcodesIn .undef evs :=
  map_fst_cmds (stream evs)

theorem opcodesIn_append (dc : Level) (es fs : List Event) :
    opcodesIn dc (es ++ fs) = opcodesIn dc es ++ opcodesIn (dcAfter dc es) fs := by
  rw [opcodesIn, streamFrom_append, List.filterMap_append]
  rfl

theorem opcodesIn_samples (dc : Level) (n : Nat) : opcodesIn dc (List.replicate n (.busy true)) = [] := by
  rw [opcodesIn, streamFrom_samples]
  rfl

theorem opcodesIn_waitEvents (dc : Level) (k : Nat) : opcodesIn dc (waitEvents k) = [] := by
  rw [waitEvents, opcodesIn_append, opcodesIn_samples]
  rfl

/-- Data bytes are sent with DC high. -/
theorem opcodesIn_data_bracket (dc : Level) (xs : List (List Byte)) :
    opcodesIn dc ((bracket true xs).map PortStep.event) = [] := by
  have hstream := streamFrom_bracket dc true xs []
  rw [List.append_nil] at hstream
  rw [opcodesIn, hstream, List.filterMap_append, List.filterMap_map]
  simp [Function.comp_def, commandByte?, Level.of, streamFrom]

/-! ### The opcodes of a sequence of micro-operations -/

/-- The opcode that a micro-operation sends, where it sends one (R131, R134). -/
def microOpcodes : MicroOp → List Byte
  | .cmd op => [op]
  | .cmdData op _ => [op]
  | .data _ | .repeatByte _ _ | .waitIdle | .reset => []

theorem opcodesIn_microSteps (m : MicroOp) (dc : Level) :
    opcodesIn dc ((microSteps m).map PortStep.event) = microOpcodes m := by
  cases m with
  | cmd op => rfl
  | data d => exact opcodesIn_data_bracket dc _
  | cmdData op d =>
    rw [microSteps, List.map_append, opcodesIn_append, opcodesIn_data_bracket]
    rfl
  | repeatByte v n => exact opcodesIn_data_bracket dc _
  | waitIdle => rfl
  | reset => rfl

theorem MicroEvents.opcodesIn_done {m : MicroOp} {evs : List Event} (h : MicroEvents m evs .done) (dc : Level) :
    opcodesIn dc evs = microOpcodes m := by
  cases h with
  | steps m hm => exact opcodesIn_microSteps m dc
  | waitDone k => exact opcodesIn_waitEvents dc k

/-! ### What has been sent and what is left to send -/

/-- The operation ended with a fatal fault or with an error (R241, R243). -/
def State.Aborted (t : State) : Prop := t.fault ≠ none ∨ (t.running = none ∧ t.result = some .err)

theorem State.Completed.not_aborted {t : State} (h : t.Completed) : ¬ t.Aborted := by
  obtain ⟨hfault, -, hresult⟩ := h
  rintro (hf | ⟨-, hr⟩)
  · exact hf hfault
  · exact hresult hr

/-- The opcodes that the operation in progress has left to send. -/
def State.opcodesLeft (t : State) : List Byte :=
  match t.running with
  | none => []
  | some r => r.rest.flatMap microOpcodes

theorem State.opcodesLeft_of_none {t : State} (h : t.running = none) : t.opcodesLeft = [] := by
  rw [opcodesLeft, h]

theorem State.opcodesLeft_of_some {t : State} {r : Running} (h : t.running = some r) :
    t.opcodesLeft = r.rest.flatMap microOpcodes := by
  rw [opcodesLeft, h]

/-- From `s` to `t` the opcodes `ops` are sent, but for those that `t` has left to send; unless the operation was
aborted. -/
def SendsInOrder (ops : List Byte) (s t : State) : Prop :=
  ∃ evs, t.trace = s.trace ++ evs ∧ (t.Aborted ∨ ∀ dc, opcodesIn dc evs ++ t.opcodesLeft = ops)

theorem SendsInOrder.of_fatal (ops : List Byte) (s : State) (f : FatalFault) :
    SendsInOrder ops s (s.raiseFatal f) :=
  ⟨[], (List.append_nil _).symm, .inl (.inl (by simp))⟩

/-- Nothing is sent where the trace stays as it is. -/
theorem SendsInOrder.of_trace_eq {s t : State} (htrace : t.trace = s.trace) (hrun : t.running = none) :
    SendsInOrder [] s t :=
  ⟨[], by rw [htrace, List.append_nil], .inr fun _ => State.opcodesLeft_of_none hrun⟩

/-- What was left to send at `t` has been sent, or is left, at `u`. -/
theorem SendsInOrder.trans {ops : List Byte} {s t u : State} (hst : SendsInOrder ops s t) (ht : ¬ t.Aborted)
    (htu : SendsInOrder t.opcodesLeft t u) : SendsInOrder ops s u := by
  obtain ⟨es, htrace, hsent⟩ := hst
  obtain ⟨fs, hutrace, husent⟩ := htu
  refine ⟨es ++ fs, by rw [hutrace, htrace, List.append_assoc], husent.imp_right fun hleft dc => ?_⟩
  rw [opcodesIn_append, List.append_assoc, hleft]
  exact hsent.resolve_left ht dc

/-- A sequence of micro-operations sends its opcodes in order, up to the wait it stands in (R254). -/
theorem runOps_sendsInOrder (ops : List MicroOp) (c : Completion) {s : State} (hs : s.running = none) :
    SendsInOrder (ops.flatMap microOpcodes) s (runOps ops c s) := by
  induction ops generalizing s with
  | nil => exact .of_trace_eq (s.complete_trace c) ((s.complete_running c).trans hs)
  | cons m ms ih =>
    obtain ⟨evs, busy, draws, e, hrun, hev⟩ := runMicro_cases m s
    cases e with
    | done =>
      rw [runOps_cons_done hrun, List.flatMap_cons]
      obtain ⟨evs', htrace, hsent⟩ := ih (s := s.ported evs busy draws) hs
      refine ⟨evs ++ evs', htrace.trans (List.append_assoc ..), hsent.imp_right fun hleft dc => ?_⟩
      rw [opcodesIn_append, hev.opcodesIn_done, List.append_assoc]
      exact congrArg (microOpcodes m ++ ·) (hleft _)
    | failed =>
      rw [runOps_cons_failed hrun]
      exact ⟨evs, rfl, .inl (.inr ⟨hs, rfl⟩)⟩
    | waiting =>
      rw [runOps_cons_waiting hrun]
      refine ⟨evs, rfl, .inr fun dc => ?_⟩
      cases hev with
      | waitGoesOn k => rw [opcodesIn_samples, State.opcodesLeft_of_some rfl, List.nil_append]

/-! ### The opcodes of an instruction (R223) -/

theorem sendsInOrder_of_runAnswer {s t : State} {mops : List MicroOp} {c : Completion} {ops : List Byte}
    (hs : s.Free) (h : runAnswer mops c s = .next t) (hops : mops.flatMap microOpcodes = ops) :
    SendsInOrder ops s t := by
  subst hops
  rw [runAnswer_next h]
  exact runOps_sendsInOrder mops c hs.2

/-- The operations on the planes send nothing. -/
theorem sendsInOrder_of_isFb {i : Instr} {s t : State} (hi : i.isFb = true) (h : exec i s = .next t) :
    SendsInOrder [] s t := by
  obtain ⟨⟨-, hrun⟩, -⟩ := exec_effect h
  rw [fbOperationsTouchNoPort i s t hi h]
  exact .of_trace_eq rfl hrun

theorem exec_sendsInOrder {i : Instr} {ops : List Byte} {s t : State} (hops : opcodesOf i = some ops)
    (h : exec i s = .next t) : SendsInOrder ops s t := by
  cases i with
  | init =>
    cases hops
    obtain ⟨hs, h⟩ := whenFree_next h
    exact sendsInOrder_of_runAnswer hs h rfl
  | setRamCounter | clearBwFrame | clearRedFrame | displayFrame | displayPartialFrame =>
    cases hops
    obtain ⟨hs, h⟩ := whenInitialized_next h
    exact sendsInOrder_of_runAnswer hs.1 h rfl
  | setRamWindow sx sy ex ey =>
    cases hops
    obtain ⟨hs, h⟩ := whenInitialized_next h
    split at h
    · cases h
      exact .of_fatal _ s _
    · split at h
      · cases h
        exact .of_fatal _ s _
      · exact sendsInOrder_of_runAnswer hs.1 h rfl
  | updateBwFrame | updateRedFrame =>
    cases hops
    obtain ⟨hs, h⟩ := whenInitialized_next h
    obtain ⟨bs, h⟩ := withBuf_next h
    exact sendsInOrder_of_runAnswer hs.1 h rfl
  | updatePartialBwFrame x y w h' buf =>
    cases hops
    obtain ⟨hs, h⟩ := whenInitialized_next h
    obtain ⟨bs, h⟩ := withBuf_next h
    split at h
    · cases h
      exact .of_fatal _ s _
    · exact sendsInOrder_of_runAnswer hs.1 h rfl
  | fbNew | fbSetRotation | fbSetPixel | fbClear | fbOutsideBounds | fbRotate | fbAddress | fbBufferLength
  | fbRead =>
    cases hops
    exact sendsInOrder_of_isFb rfl h
  | _ => cases hops

/-- An operation that goes on from a pause sends what it had left to send (R22, R254). -/
theorem SendsInOrder.goesOn {ops : List Byte} {s t u : State} (h : GoesOn t u) (hst : SendsInOrder ops s t) :
    SendsInOrder ops s u := by
  induction h with
  | here => exact hst
  | @step t u r busy rest fails _ hr hstep ih =>
    obtain ⟨hfault, ⟨hn, -⟩ | ⟨r', hr', rfl⟩ | ⟨hn, -⟩⟩ := step_cases hstep
    · cases hr.symm.trans hn
    · cases hr.symm.trans hr'
      have ht : ¬ t.Aborted := by
        rintro (hf | ⟨hn, -⟩)
        · exact hf hfault
        · cases hr.symm.trans hn
      refine ih.trans ht ?_
      rw [State.opcodesLeft_of_some hr]
      exact runOps_sendsInOrder r.rest r.done (s := { t.withInputs busy rest fails with running := none }) rfl
    · cases hr.symm.trans hn

/-- Settles O51: the instruction sends the opcodes of its table in order, over all its pauses, and at completion none is
left to send. -/
theorem operationsEmitTheirCommands : Obligations.OperationsEmitTheirCommands := by
  intro i ops s t u hops h hon hdone
  obtain ⟨evs, htrace, hsent⟩ := (exec_sendsInOrder hops h).goesOn hon
  have hleft := hsent.resolve_left hdone.not_aborted .undef
  rw [State.opcodesLeft_of_none hdone.2.1, List.append_nil] at hleft
  exact ⟨evs, htrace, (map_fst_cmdsOf evs).trans hleft⟩

end Sys2Proof.Machine
end

section
/-! PROOFS. What a transport error does (O48). -/

namespace Sys2Proof.Machine

/-! ### Where a failure stands among the events -/

/-- The last of the events is a failure, and it is the only one (R241). -/
def FailsLast (evs : List Event) : Prop := ∃ pre a, evs = pre ++ [.fail a] ∧ noFail pre = true

theorem noFail_samples (k : Nat) : noFail (List.replicate k (.busy true)) = true := by
  induction k with
  | zero => rfl
  | succ k ih => exact ih

theorem noFail_map_event (ps : List PortStep) : noFail (ps.map PortStep.event) = true := by
  induction ps with
  | nil => rfl
  | cons p ps ih => cases p <;> exact ih

theorem MicroEvents.noFail {m : MicroOp} {evs : List Event} {e : MicroEnd} (h : MicroEvents m evs e)
    (he : e ≠ .failed) : noFail evs = true := by
  cases h with
  | steps m _ => exact noFail_map_event _
  | waitDone k =>
    rw [waitEvents, noFail_append, noFail_samples]
    rfl
  | waitGoesOn k => exact noFail_samples _
  | stepFails | waitFails => exact absurd rfl he

theorem MicroEvents.failsLast {m : MicroOp} {evs : List Event} (h : MicroEvents m evs .failed) : FailsLast evs := by
  cases h with
  | stepFails _ _ pre _ _ a => exact ⟨_, a, rfl, noFail_map_event pre⟩
  | waitFails k => exact ⟨_, .sampleBusy, rfl, noFail_samples k⟩

theorem FailsLast.append_left {es evs : List Event} (h : FailsLast evs) (hes : noFail es = true) :
    FailsLast (es ++ evs) := by
  obtain ⟨pre, a, rfl, hpre⟩ := h
  exact ⟨es ++ pre, a, (List.append_assoc ..).symm, by rw [noFail_append, hes, hpre]; rfl⟩

/-! ### The end of a sequence that fails -/

/-- A sequence of micro-operations appends no failure, or it ends at the one it appends (R138, R241). -/
theorem runOps_noFail_or_failsLast (ops : List MicroOp) (c : Completion) (s : State) :
    ∃ evs, (runOps ops c s).trace = s.trace ++ evs ∧ (noFail evs = true ∨
      FailsLast evs ∧ ∃ busy draws, runOps ops c s = (s.ported evs busy draws).raiseTransportError) := by
  induction ops generalizing s with
  | nil => exact ⟨[], (s.complete_trace c).trans (List.append_nil _).symm, .inl rfl⟩
  | cons m ms ih =>
    obtain ⟨evs, busy, draws, e, hrun, hev⟩ := runMicro_cases m s
    cases e with
    | done =>
      rw [runOps_cons_done hrun]
      have hevs := hev.noFail (by simp)
      obtain ⟨evs', htrace, hend⟩ := ih (s.ported evs busy draws)
      refine ⟨evs ++ evs', htrace.trans (List.append_assoc ..), hend.imp (fun h => ?_) ?_⟩
      · rw [noFail_append, hevs, h]
        rfl
      · rintro ⟨hlast, busy', draws', h⟩
        exact ⟨hlast.append_left hevs, busy', draws', by rw [← State.ported_ported, ← h]; rfl⟩
    | failed =>
      rw [runOps_cons_failed hrun]
      exact ⟨evs, rfl, .inr ⟨hev.failsLast, busy, draws, rfl⟩⟩
    | waiting =>
      rw [runOps_cons_waiting hrun]
      exact ⟨evs, rfl, .inl (hev.noFail (by simp))⟩

theorem runOps_transportError {ops : List MicroOp} {c : Completion} {s : State} {evs : List Event}
    (htrace : (runOps ops c s).trace = s.trace ++ evs) (hfail : noFail evs = false) :
    FailsLast evs ∧ ∃ busy draws, runOps ops c s = (s.ported evs busy draws).raiseTransportError := by
  obtain ⟨evs', htrace', hend⟩ := runOps_noFail_or_failsLast ops c s
  obtain rfl : evs' = evs := List.append_cancel_left (htrace'.symm.trans htrace)
  exact hend.resolve_left (by simp [hfail])

/-- An instruction that fails, or a step that goes on and fails, ran micro-operations with no operation in progress. -/
theorem exists_runOps_of_fail {s t : State} {evs : List Event}
    (h : (∃ i, exec i s = .next t) ∨ (∃ r, s.running = some r ∧ step s = .next t))
    (htrace : t.trace = s.trace ++ evs) (hfail : noFail evs = false) :
    s.fault = none ∧ ∃ ops c, t = runOps ops c { s with running := none } := by
  obtain ⟨i, h⟩ | ⟨r, hr, h⟩ := h
  · obtain ⟨⟨hfault, hrun⟩, he⟩ := exec_effect h
    refine ⟨hfault, ?_⟩
    rw [← hrun]
    obtain ⟨ops, c, -, -, -, rfl⟩ | hq := he.ran_or_quiet
    · exact ⟨ops, c, rfl⟩
    · obtain rfl : [] = evs := List.append_cancel_left ((List.append_nil _).trans (hq.trace.symm.trans htrace))
      cases hfail
  · obtain ⟨hfault, ⟨hn, -⟩ | ⟨r', -, rfl⟩ | ⟨hn, -⟩⟩ := step_cases h
    · cases hr.symm.trans hn
    · exact ⟨hfault, r'.rest, r'.done, rfl⟩
    · cases hr.symm.trans hn

/-- Settles O48: the sequence of micro-operations ends at the action that fails. -/
theorem transportErrorEffects : Obligations.TransportErrorEffects := by
  intro s t evs h htrace hfail
  obtain ⟨hfault, ops, c, rfl⟩ := exists_runOps_of_fail h htrace hfail
  obtain ⟨hlast, busy, draws, hend⟩ := runOps_transportError htrace hfail
  rw [hend]
  exact ⟨hlast, rfl, rfl, rfl, rfl, rfl, hfault, rfl, rfl, rfl, rfl, rfl⟩

end Sys2Proof.Machine
end

section
/-! PROOFS. Which instruction can raise a fatal fault, which can be left in a wait, and what a fault changes (O49). -/

namespace Sys2Proof.Machine

/-! ### The ends of an instruction -/

/-- The instruction can raise the fatal fault (R244). -/
def RaisesFatal (i : Instr) (f : FatalFault) : Prop :=
  (∃ sx sy ex ey axis a b, i = .setRamWindow sx sy ex ey ∧ f = .windowOrder axis a b) ∨
    ∃ x y w h buf, i = .updatePartialBwFrame x y w h buf

/-- The states an instruction can end in, as to a fault and an operation in progress: that of a sequence, which has a
wait only where R76 gives the instruction one; a fatal fault that the instruction can raise; or a state with both as
they were. -/
inductive InstrEnd (s : State) (i : Instr) : State → Prop
  | ran {ops : List MicroOp} {c : Completion} (hw : .waitIdle ∈ ops → i.waits = true) :
      InstrEnd s i (runOps ops c s)
  | fatal {f : FatalFault} (hf : RaisesFatal i f) : InstrEnd s i (s.raiseFatal f)
  | kept {t : State} (hfault : t.fault = s.fault) (hrun : t.running = s.running) : InstrEnd s i t

section
variable {s t : State} {i : Instr} {ops : List MicroOp} {c : Completion}

theorem InstrEnd.of_runAnswer (hw : .waitIdle ∈ ops → i.waits = true) (h : runAnswer ops c s = .next t) :
    InstrEnd s i t := by
  rw [runAnswer_next h]
  exact .ran hw

theorem InstrEnd.of_sends (hsends : ∀ m ∈ ops, Sends m) (h : runAnswer ops c s = .next t) : InstrEnd s i t :=
  .of_runAnswer (fun hm => absurd rfl (hsends _ hm).1) h

theorem InstrEnd.of_micro {m : MicroOp} (hm : m ≠ .waitIdle)
    (h : whenFree s (runAnswer [m] .quiet s) = .next t) : InstrEnd s i t :=
  .of_runAnswer (fun hmem => absurd (List.mem_singleton.mp hmem).symm hm) (whenFree_next h).2

theorem InstrEnd.of_fatal {f : FatalFault} (hf : RaisesFatal i f) (h : fatalAnswer s f = .next t) :
    InstrEnd s i t := by
  cases h
  exact .fatal hf

end

theorem updateOps_send {cmd : Command} : ∀ m ∈ fullSelect ++ [emission cmd], Sends m :=
  List.forall_mem_append.mpr ⟨fullSelect_send, by simp [emission_sends]⟩

theorem exec_end {i : Instr} {s t : State} (h : exec i s = .next t) : InstrEnd s i t := by
  cases i with
  | init => exact .of_runAnswer (fun _ => rfl) (whenFree_next h).2
  | displayFrame | displayPartialFrame => exact .of_runAnswer (fun _ => rfl) (whenInitialized_next h).2
  | setRamWindow sx sy ex ey =>
    obtain ⟨-, h⟩ := whenInitialized_next h
    split at h
    · exact .of_fatal (.inl ⟨sx, sy, ex, ey, _, _, _, rfl, rfl⟩) h
    · split at h
      · exact .of_fatal (.inl ⟨sx, sy, ex, ey, _, _, _, rfl, rfl⟩) h
      · exact .of_sends windowOps_send h
  | setRamCounter => exact .of_sends counterOps_send (whenInitialized_next h).2
  | updateBwFrame | updateRedFrame =>
    obtain ⟨bs, h⟩ := withBuf_next (whenInitialized_next h).2
    exact .of_sends updateOps_send h
  | updatePartialBwFrame x y w h' buf =>
    obtain ⟨bs, h⟩ := withBuf_next (whenInitialized_next h).2
    split at h
    · exact .of_fatal (.inr ⟨x, y, w, h', buf, rfl⟩) h
    · exact .of_sends partialOps_send h
  | clearBwFrame | clearRedFrame => exact .of_sends clearOps_send (whenInitialized_next h).2
  | fbNew | fbSetRotation | fbSetPixel | fbClear | fbOutsideBounds | fbRotate | fbAddress | fbBufferLength
  | fbRead =>
    rw [fbOperationsTouchNoPort _ s t rfl h]
    exact .kept rfl rfl
  | swReset | driverControl | dataEntryMode | setRamXPos | setRamYPos | setRamXCounter | setRamYCounter
  | borderWaveformControl | tempControl | writeBwData | writeRedData | updateDisplayCtrl2 | masterActivate =>
    exact .of_micro (emission_sends _).1 h
  | muCmd | muData | muCmdData | muRepeat | muReset => exact .of_micro (by simp) h
  | muWaitIdle => exact .of_runAnswer (fun _ => rfl) (whenFree_next h).2

/-! ### Fatal faults -/

/-- Settles O49: a sequence of micro-operations raises no fatal fault, and the two operations raise theirs before it. -/
theorem fatalChangesFaultAlone : Obligations.FatalChangesFaultAlone := by
  intro i s t h hfault
  obtain ⟨⟨hnone, -⟩, -⟩ := exec_effect h
  cases exec_end h with
  | ran hw => exact absurd ((runOps_frame _ _ s).1.trans hnone) hfault
  | fatal hf => exact ⟨_, rfl, hf⟩
  | kept hkept => exact absurd (hkept.trans hnone) hfault

end Sys2Proof.Machine
end

section
/-! PROOFS. A wait that does not end, its end, and the pauses of an operation (O50). -/

namespace Sys2Proof.Machine

/-! ### Going on with an operation in progress -/

theorem step_running {s : State} {r : Running} (hfault : s.fault = none) (hr : s.running = some r) :
    step s = .next (runOps r.rest r.done { s with running := none }) := by
  have hfetch : fetch s = .resume r := by simp only [fetch, hfault, hr]
  rw [step, hfetch]
  rfl

/-- A step takes one sample of a stuck wait, and the wait stays as it is (R254). -/
theorem step_stuck {s : State} {ms : List MicroOp} {c : Completion} (hfault : s.fault = none)
    (hr : s.running = some { rest := .waitIdle :: ms, done := c }) (hbusy : s.busyIn = []) (hrest : s.busyRest = true)
    (hok : s.DrawsOk 1) :
    step s = .next { s with trace := s.trace ++ [.busy true], failIn := s.failIn.drop 1 } := by
  rw [step_running hfault hr, runOps_cons_waiting
    (runMicro_waitIdle (s := { s with running := none }) hbusy hrest (pollBusy_stuck 0 _ hok)), ← hr, ← hbusy]
  rfl

theorem run_succ_of_step {M : Host.Core} {s t : M.State} (h : M.step s = .next t) (n : Nat) :
    M.run (n + 1) s = M.run n t := by
  rw [Host.Core.run, h]

theorem run_stuck (n : Nat) {s : State} {ms : List MicroOp} {c : Completion} (hfault : s.fault = none)
    (hr : s.running = some { rest := .waitIdle :: ms, done := c }) (hbusy : s.busyIn = []) (hrest : s.busyRest = true)
    (hports : s.PortsWork) :
    Host.Core.run Sys2Proof.core n s = .next { s with
      trace := s.trace ++ List.replicate n (.busy true), failIn := s.failIn.drop n } := by
  induction n generalizing s with
  | zero => simp [Host.Core.run]
  | succ n ih =>
    have hstep := step_stuck hfault hr hbusy hrest fun b hb => hports b (List.mem_of_mem_take hb)
    refine (run_succ_of_step (M := Sys2Proof.core) hstep n).trans ?_
    have hports' : ∀ b ∈ s.failIn.drop 1, b = false := fun b hb => hports b (List.mem_of_mem_drop hb)
    refine (ih (s := { s with trace := _, failIn := s.failIn.drop 1 }) hfault hr hbusy hrest hports').trans ?_
    simp [List.replicate_succ]

/-- A wait whose samples are `k` times 1 and then a 0, in store or of the level after them (R136, R253). -/
theorem pollBusy_ends {k : Nat} {bs samples : List Bool} {rest : Bool} {ds : List Bool}
    (h : samples = List.replicate k true ++ false :: bs ∨
      (samples = List.replicate k true ∧ rest = false ∧ bs = []))
    (hok : ∀ b ∈ ds.take (k + 1), b = false) :
    pollBusy samples rest ds =
      { events := waitEvents k, busy := bs, draws := ds.drop (k + 1), ending := .done } := by
  obtain rfl | ⟨rfl, rfl, rfl⟩ := h
  · exact pollBusy_idle k bs rest ds hok
  · exact pollBusy_rest_idle k ds hok

/-! ### Pauses -/

theorem running_of_exec_not_waits {i : Instr} {s t : State} (hi : i.waits = false) (h : exec i s = .next t) :
    t.running = none := by
  obtain ⟨⟨-, hrun⟩, -⟩ := exec_effect h
  cases exec_end h with
  | @ran ops c hw =>
    cases hr : (runOps ops c s).running with
    | none => rfl
    | some r =>
      obtain ⟨-, -, ⟨ms, hrest, hsuffix⟩, -⟩ := runOps_paused hrun hr
      have hmem : .waitIdle ∈ ops := hsuffix.subset (by simp [hrest])
      cases hi.symm.trans (hw hmem)
  | fatal => exact hrun
  | kept hfault hkept => exact hkept.trans hrun

/-- An instruction with a wait runs the same sequence wherever it is not refused. -/
theorem exec_of_waits {i : Instr} (hi : i.waits = true) : ∃ ops c, ∀ s : State, s.Free →
    (i.needsInit = true → s.phase ≠ .uninitialized) → exec i s = .next (runOps ops c s) := by
  cases i with
  | init | muWaitIdle => exact ⟨_, _, fun s hs _ => whenFree_of_free hs _⟩
  | displayFrame | displayPartialFrame =>
    exact ⟨_, _, fun s hs hphase => whenInitialized_of_booted ⟨hs, hphase rfl⟩ _⟩
  | _ => cases hi

theorem phase_ne_of_exec_next {i : Instr} {s t : State} (h : exec i s = .next t) (hi : i.needsInit = true) :
    s.phase ≠ .uninitialized := by
  intro hphase
  rw [exec_uninitialized (exec_effect h).1 hi hphase] at h
  cases h

/-- A sequence that paused and goes on comes to what it comes to with all the samples in store at once (R22, R254). -/
theorem step_runOps_paused {ops : List MicroOp} {c : Completion} {s : State} {r : Running} (hs : s.Free)
    (hr : (runOps ops c s).running = some r) (bs : List Bool) (b : Bool) :
    step ((runOps ops c s).withInputs bs b (runOps ops c s).failIn) =
      .next (runOps ops c (s.withInputs (s.busyIn ++ true :: bs) b s.failIn)) := by
  have hfault : (runOps ops c s).fault = none := (runOps_frame ops c s).1.trans hs.1
  obtain ⟨-, -, -, hgo⟩ := runOps_paused hs.2 hr
  rw [← hgo bs b]
  exact step_running hfault hr

theorem step_exec_paused {i : Instr} {s t : State} {r : Running} (h : exec i s = .next t) (hr : t.running = some r)
    (bs : List Bool) (b : Bool) :
    step (t.withInputs bs b t.failIn) = exec i (s.withInputs (s.busyIn ++ true :: bs) b s.failIn) := by
  obtain ⟨hs, -⟩ := exec_effect h
  have hi : i.waits = true := by
    by_contra hn
    cases hr.symm.trans (running_of_exec_not_waits (Bool.eq_false_iff.mpr hn) h)
  have hphase := phase_ne_of_exec_next h
  obtain ⟨ops, c, hexec⟩ := exec_of_waits hi
  cases (hexec s hs hphase).symm.trans h
  rw [step_runOps_paused hs hr, hexec (s.withInputs _ b s.failIn) hs hphase]

theorem step_step_paused {s t : State} {r₀ r : Running} (hr₀ : s.running = some r₀) (h : step s = .next t)
    (hr : t.running = some r) (bs : List Bool) (b : Bool) :
    step (t.withInputs bs b t.failIn) = step (s.withInputs (s.busyIn ++ true :: bs) b s.failIn) := by
  have hfault : s.fault = none := (step_cases h).1
  cases (step_running hfault hr₀).symm.trans h
  exact (step_runOps_paused (s := { s with running := none }) ⟨hfault, rfl⟩ hr bs b).trans
    (step_running (s := s.withInputs _ b s.failIn) hfault hr₀).symm

/-- Settles O50, clause by clause: the stuck wait by induction on the steps, the end of a wait and its failure by what
the wait takes, the pauses by the sequence that paused. -/
theorem stuckBusyWaitsForever : Obligations.StuckBusyWaitsForever := by
  refine ⟨?_, fun _ _ _ => running_of_exec_not_waits, ?_, ?_, ?_,
    fun _ _ _ _ bs b h hr => step_exec_paused h hr bs b,
    fun _ _ _ _ bs b hr₀ h hr => step_step_paused hr₀ h hr bs b⟩
  · rintro n s ⟨rest, c⟩ ms hfault hr rfl hbusy hrest hports
    exact run_stuck n hfault hr hbusy hrest hports
  · intro s ms c k bs hfault hr hbusy hok
    rw [step_running hfault hr, runOps_cons_done
      (runMicro_waitIdle (s := { s with running := none }) rfl rfl (pollBusy_ends hbusy hok))]
    exact Eq.trans rfl (Eq.symm (step_running (r := { rest := ms, done := c }) hfault rfl))
  · intro s c hfault hr
    rw [step_running hfault hr]
    cases c <;> rfl
  · intro s ms c k bs hfault hr hbusy hok hfail
    rw [step_running hfault hr, runOps_cons_failed
      (runMicro_waitIdle (s := { s with running := none }) hbusy rfl (pollBusy_fail k bs _ _ hok hfail))]
    rfl

end Sys2Proof.Machine
end

section
/-! PROOFS. Frames that are refused, and the wait for the host (O2). -/

namespace Sys2Proof.Machine

theorem step_of_decode_error {s : State} {f : Frame} {rest : List Frame} {e : DecodeError} (hs : s.Free)
    (hf : s.frames = f :: rest) (hd : decode f = .error e) : step s = .refused (refusalOf e) := by
  have hfetch : fetch s = .bad e := by simp only [fetch, hs.1, hs.2, hf, hd]
  rw [step, hfetch]

theorem step_idle {s : State} (hs : s.Free) (hf : s.frames = []) : step s = .next s := by
  have hfetch : fetch s = .idle := by simp only [fetch, hs.1, hs.2, hf]
  rw [step, hfetch]

/-- Settles O2: the refusal is named after the decoder's error. -/
theorem stepRefusesOrWaits : Obligations.StepRefusesOrWaits :=
  ⟨fun _ _ _ hs hf => ⟨step_of_decode_error hs hf, step_of_decode_error hs hf, step_of_decode_error hs hf⟩,
    fun _ => step_idle⟩

end Sys2Proof.Machine
end
